-- ==== Sys2Proof/Config.lean ====
section
/-! DEFINITION. The implementation parameters of rule R9 (00_scope.md), an argument of the model, and the free values:
what the spec leaves unspecified and the machine goes on with (log 5). -/

namespace Sys2Proof

/-- The implementation parameters of one block, with the constraints that the table of R9 puts on them: an argument of the
model (D6, U11), fixed when the block is built (R20). BUS_MAP and BYTE_BIT_ORDER are left out (log 14). -/
structure Params where
  /-- Bits in a RunLengthSymbol and in MAXLEN. -/
  W_SYM : Nat
  /-- Capacity of BIT_IN and of BIT_OUT, in bits. -/
  BIT_CAP : Nat
  /-- Capacity of SYM, in symbols. -/
  SYM_CAP : Nat
  /-- Capacity of PACK, in bits. -/
  PACK_CAP : Nat
  /-- Bits in a length register and in ERRINFO. -/
  W_IDX : Nat
  /-- Bits in a FREQ weight. -/
  W_WT : Nat
  two_le_W_SYM : 2 ≤ W_SYM
  one_le_BIT_CAP : 1 ≤ BIT_CAP
  BIT_CAP_le_SYM_CAP : BIT_CAP ≤ SYM_CAP
  PACK_CAP_le_SYM_CAP : PACK_CAP ≤ SYM_CAP
  one_le_PACK_CAP : 1 ≤ PACK_CAP
  caps_lt_W_IDX : max BIT_CAP (max SYM_CAP PACK_CAP) < 2 ^ W_IDX
  eight_le_W_IDX : 8 ≤ W_IDX
  SYM_CAP_le_W_WT : SYM_CAP ≤ 2 ^ W_WT - 1
  deriving DecidableEq, Repr

/-- Largest value of MAXLEN (R9, derived). -/
abbrev Params.MAXLEN_MAX (P : Params) : Nat := 2 ^ P.W_SYM - 1

/-- Entries in the FREQ and CB spaces (R9, derived). -/
abbrev Params.N_SYM (P : Params) : Nat := 2 ^ P.W_SYM

/-- Longest codeword in bits (R9, derived). -/
abbrev Params.L_MAX (P : Params) : Nat := 2 ^ P.W_SYM - 1

/-- Bits in a codeword-length field (R9, derived). -/
abbrev Params.W_LEN (P : Params) : Nat := P.W_SYM

/-- Bits in a queue-entry weight (R9, derived). -/
abbrev Params.W_ACC (P : Params) : Nat := P.W_WT + P.W_SYM

/-- The reference configuration of R9, which the test vectors use; the state after reset is given at it (DESIGN CHOICE,
log 1). -/
def Params.reference : Params where
  W_SYM := 8
  BIT_CAP := 4096
  SYM_CAP := 4096
  PACK_CAP := 4096
  W_IDX := 16
  W_WT := 16
  two_le_W_SYM := by decide
  one_le_BIT_CAP := by decide
  BIT_CAP_le_SYM_CAP := by decide
  PACK_CAP_le_SYM_CAP := by decide
  one_le_PACK_CAP := by decide
  caps_lt_W_IDX := by decide
  eight_le_W_IDX := by decide
  SYM_CAP_le_W_WT := by decide

namespace Config

/-- What a free value stands for. Each constructor is one place where the spec says "unspecified" (R226 [60],
R15 [00], R37 to R39 [10], R48 [10], R61 [20], R66 [20], R157 [43]) and the machine goes on (log 5). -/
inductive FreeUse where
  /-- An element of BIT_IN not written since reset, as the host reads it. -/
  | bitIn
  /-- An element of SYM: after a fault, beyond SYM_LEN, or not written since reset. -/
  | sym
  /-- `present` of a FREQ element. -/
  | freqPresent
  /-- `weight` of a FREQ element. -/
  | freqWeight
  /-- `valid` of a CB element. -/
  | cbValid
  /-- `len` of a CB element. -/
  | cbLen
  /-- `bits` of a CB element. -/
  | cbBits
  /-- An element of PACK. -/
  | pack
  /-- An element of BIT_OUT. -/
  | bitOut
  /-- SYM_LEN after a fault of RLE or UNPK. -/
  | symLen
  /-- PACK_LEN after a fault of PACK. -/
  | packLen
  /-- BIT_OUT_LEN after a fault of RLD. -/
  | bitOutLen
  /-- Working register RP after a command. -/
  | rp
  /-- Working register WP after a command. -/
  | wp
  /-- Working register CNT after a command. -/
  | cnt
  /-- Length of working register CAND after a command. -/
  | candLen
  /-- Bits of working register CAND after a command. -/
  | candBit
  /-- Whether a node reference of TREE, ROOT or Q is a leaf, after BUILD. -/
  | refIsLeaf
  /-- The symbol or index of such a node reference, after BUILD. -/
  | refValue
  /-- TREE_N after BUILD. -/
  | treeN
  /-- NEXT_SEQ after BUILD. -/
  | nextSeq
  /-- The number of entries of Q after BUILD. -/
  | queueLen
  /-- The weight of an entry of Q after BUILD. -/
  | queueWeight
  /-- The sequence number of an entry of Q after BUILD. -/
  | queueSeq
  /-- Which of several matching symbols `match` answers (R157 (a) [43]). -/
  | pick
  /-- A host read at or beyond a capacity, or while BUSY = 1. -/
  | hostRead
  deriving DecidableEq, Repr

/-- A free bit: use, number of the draw, index within the draw. It has no body, so nothing can be proved
of its value (log 5). -/
opaque freeBit : FreeUse → Nat → Nat → Bool

/-- A free natural number: use, number of the draw, index within the draw; no body either (log 5). Its reader
reduces it to the width of what it fills, so every value of that width is possible. -/
opaque freeNat : FreeUse → Nat → Nat → Nat

end Config

end Sys2Proof
end

