-- ==== Sys2Proof/Word.lean ====
section
/-! DEFINITION. The element types of the registers and spaces (R21, R31 to R39 of 10_state.md), for the parameters `P` of a
block. -/

namespace Sys2Proof

/-- A RunLengthSymbol: `W_SYM` bits (R32). -/
abbrev Sym (P : Params) := BitVec P.W_SYM

/-- A length register, FILESIZE or ERRINFO: `W_IDX` bits (R21). -/
abbrev Idx (P : Params) := BitVec P.W_IDX

/-- The STATUS register: 8 bits (R23). -/
abbrev StatusWord := BitVec 8

/-- A command word: 8 bits (R80). -/
abbrev CmdWord := BitVec 8

/-- A FREQ element (R33). -/
structure FreqElem (P : Params) where
  present : Bool
  weight : BitVec P.W_WT
  deriving DecidableEq, Repr, Inhabited

/-- A CB element (R34). -/
structure CbElem (P : Params) where
  valid : Bool
  len : BitVec P.W_LEN
  bits : BitVec P.L_MAX
  deriving DecidableEq, Repr, Inhabited

/-- A node reference (R37): a leaf with its symbol, or an internal node with its index into TREE. -/
inductive NodeRef (P : Params) where
  | leaf (s : Sym P)
  | node (k : Nat)
  deriving DecidableEq, Repr, Inhabited

/-- A TREE element (R37): the "0"-child and the "1"-child. -/
structure TreeElem (P : Params) where
  c0 : NodeRef P
  c1 : NodeRef P
  deriving DecidableEq, Repr, Inhabited

/-- An entry of the queue Q (R38). Weights and sequence numbers are exact naturals (R12, R142; log 9). -/
structure QEntry (P : Params) where
  weight : Nat
  seq : Nat
  ref : NodeRef P
  deriving DecidableEq, Repr, Inhabited

/-- An element-indexed space (R60): the written elements with their indices. The canonical form is `Cells.wf`:
indices strictly rising and below the capacity; an index that is not listed has not been written since reset
(log 3). -/
abbrev Cells (α : Type) := List (Nat × α)

end Sys2Proof
end

