-- ==== Sys2Proof/Syntax.lean ====
section
/-! DEFINITION. The seven commands of rule R82 (30_encoding.md), one constructor per row of
spec/opcode_table.json. No command carries an operand (R83). -/

namespace Sys2Proof

/-- The commands (R82). -/
inductive Instr where
  /-- 0x01: run-length encode BIT_IN into SYM (R101). -/
  | rle
  /-- 0x02: run-length decode SYM into BIT_OUT (R121). -/
  | rld
  /-- 0x03: count the symbols of SYM into FREQ (R131). -/
  | fcnt
  /-- 0x04: build the Huffman codebook CB from FREQ (R134). -/
  | build
  /-- 0x05: pack the codewords of SYM into PACK (R166). -/
  | pack
  /-- 0x06: unpack PACK into SYM (R176). -/
  | unpk
  /-- 0x07: clear the fault latch (R209). -/
  | clr
  deriving DecidableEq, Repr, Inhabited

end Sys2Proof
end

