-- ==== Sys2Proof/WellFormed.lean ====
section
/-! DEFINITION. Which command words and commands are well formed (R81 to R84 of 30_encoding.md). A command has
no operand, so every command is; the checks are on the word. -/

namespace Sys2Proof

/-- The `zero` field of format CMD8, bits 7:4 (R81). -/
def CmdWord.zeroField (w : CmdWord) : BitVec 4 := w.extractLsb' 4 4

/-- The `op` field of format CMD8, bits 3:0 (R81). -/
def CmdWord.opField (w : CmdWord) : BitVec 4 := w.extractLsb' 0 4

/-- First check: the reserved field is zero (R81). -/
def CmdWord.zeroOk (w : CmdWord) : Bool := w.zeroField == 0

/-- Second check: the opcode is assigned, 1 to 7 (R82). -/
def CmdWord.opOk (w : CmdWord) : Bool := 1 ≤ w.opField.toNat && w.opField.toNat ≤ 7

/-- A well-formed command word: one of the seven of R82, not a reserved or illegal one (R84). -/
def CmdWord.wf (w : CmdWord) : Bool := w.zeroOk && w.opOk

/-- Every command is well formed: it has no operand to check (R83). -/
def Instr.wf (_ : Instr) : Bool := true

end Sys2Proof
end

