-- ==== Sys2Proof/Decode.lean ====
section
/-! DEFINITION. Decoding of command words, total on all 256 words (R85 of 30_encoding.md), and the encoder
from the opcode map of R82. -/

namespace Sys2Proof

/-- Why a command word is illegal (R84): a bit of the `zero` field is set, or the opcode is 0 or 8 to 15.
Both raise IllegalCommand (R222). -/
inductive IllegalWord where
  | reservedFieldSet
  | unassignedOpcode
  deriving DecidableEq, Repr

/-- `decode(w)` of rule R85. -/
def decode (w : CmdWord) : Except IllegalWord Instr :=
  if w.zeroField ≠ 0 then .error .reservedFieldSet
  else match w.opField.toNat with
    | 1 => .ok .rle
    | 2 => .ok .rld
    | 3 => .ok .fcnt
    | 4 => .ok .build
    | 5 => .ok .pack
    | 6 => .ok .unpk
    | 7 => .ok .clr
    | _ => .error .unassignedOpcode

/-- The command word of a command (R82). -/
def encode : Instr → CmdWord
  | .rle => 0x01
  | .rld => 0x02
  | .fcnt => 0x03
  | .build => 0x04
  | .pack => 0x05
  | .unpk => 0x06
  | .clr => 0x07

/-- The 8-bit command word in a number whose bits are numbered as spec/opcode_table.json numbers them: one
word of 8 bits, bit 0 the least significant (R80, R81). A bit above the word does not exist (R21). -/
def tableWord (nbits w : Nat) : CmdWord := BitVec.ofNat 8 (w % 2 ^ nbits)

/-- The command the decoder reads from a word of the opcode table. -/
def decodeTableWord (nbits w : Nat) : Option Instr :=
  match decode (tableWord nbits w) with
  | .ok i => some i
  | .error _ => none

end Sys2Proof
end

