-- ==== Sys2Proof/Machine/State.lean ====
section
/-! DEFINITION. The state of the block (R20 to R39 of 10_state.md) and of its host interface, the state after
reset (R48, R240), and the reasons a step can stop. -/

namespace Sys2Proof.Machine

/-- The block's fault kinds (R215). They are latched in STATUS.ERR by fault entry (R224): the machine goes on. -/
inductive FaultKind where
  /-- Code 1: BUILD with no key (R216). -/
  | emptyTable
  /-- Code 2: PACK meets a symbol with no valid CB element (R217). -/
  | unknownSymbol
  /-- Code 3: UNPK has unmatched bits at the end (R218). -/
  | incompleteCodeword
  /-- Code 4: the expansion in RLD is longer than FILESIZE (R219). -/
  | lengthMismatch
  /-- Code 5: RLE's lookahead needs a bit that does not exist, MAXLEN ≤ 2 (R220). -/
  | outOfData
  /-- Code 6: a length register or an output above its capacity (R221). -/
  | capacity
  /-- Code 7: an illegal command word (R222). -/
  | illegalCommand
  /-- Code 8: RLD meets a symbol above MAXLEN (R223). -/
  | symbolRange
  deriving DecidableEq, Repr

/-- The seven element spaces (R60). -/
inductive SpaceName where
  | bitIn | sym | freq | cb | pack | bitOut | tree
  deriving DecidableEq, Repr

/-- The working registers of rule R39. They have no meaning between commands. -/
structure Work where
  /-- RP: index of the next input element to read. -/
  rp : Nat
  /-- WP: number of output elements written so far. -/
  wp : Nat
  /-- CNT: the zero-run counter of RLE. -/
  cnt : Nat
  /-- CAND: the candidate buffer of UNPK. -/
  cand : List Bool
  deriving DecidableEq, Repr

/-- The internal state of BUILD (R37, R38). It has no meaning between commands. -/
structure Htb (P : Params) where
  /-- TREE: the internal nodes. -/
  tree : Cells (TreeElem P)
  /-- TREE_N: the number of internal nodes. -/
  treeN : Nat
  /-- ROOT: the root reference. -/
  root : NodeRef P
  /-- Q: the priority queue, least entry first (R136; log 9). -/
  queue : List (QEntry P)
  /-- NEXT_SEQ: the next sequence number. -/
  nextSeq : Nat
  deriving DecidableEq, Repr

/-- The number of a register (R21): 0 to 8 are the nine registers, 9 to 255 are reserved. -/
abbrev RegNum := Fin 256

/-- One move of the host (R46, R61, R240): an access to one register or one whole element, or a reset. Values are
naturals; a value wider than the register or the element's field keeps its low bits (R46). A write of register 0
(CMD) starts a command (R205). -/
inductive HostMove where
  | writeReg (n : RegNum) (v : Nat)
  | readReg (n : RegNum)
  | writeBitIn (i v : Nat)
  | writeSym (i v : Nat)
  | writeFreq (i present weight : Nat)
  | writeCb (i valid len bits : Nat)
  | writePack (i v : Nat)
  | writeBitOut (i v : Nat)
  | readBitIn (i : Nat)
  | readSym (i : Nat)
  | readFreq (i : Nat)
  | readCb (i : Nat)
  | readPack (i : Nat)
  | readBitOut (i : Nat)
  | reset
  deriving DecidableEq, Repr

/-- What a host read returns: a register's value, or a whole element (R62). -/
inductive HostData (P : Params) where
  | reg (v : Nat)
  | bit (b : Bool)
  | sym (v : Sym P)
  | freq (e : FreqElem P)
  | cb (e : CbElem P)
  deriving DecidableEq, Repr

/-- What a block with parameters `P` holds: its registers, spaces and internal state (R20), then the model's own fields: the
free-value counters (log 5) and the host's side of the interface (log 2). CMD stores nothing (R22). -/
structure Block (P : Params) where
  /-- STATUS (R23). -/
  status : StatusWord
  /-- ERRINFO (R24). -/
  errinfo : Idx P
  /-- MAXLEN (R25). -/
  maxlen : Sym P
  /-- FILESIZE (R26). -/
  filesize : Idx P
  /-- BIT_IN_LEN (R27). -/
  bitInLen : Idx P
  /-- SYM_LEN (R28). -/
  symLen : Idx P
  /-- PACK_LEN (R29). -/
  packLen : Idx P
  /-- BIT_OUT_LEN (R30). -/
  bitOutLen : Idx P
  /-- BIT_IN (R31). -/
  bitIn : Cells Bool
  /-- SYM (R32). -/
  sym : Cells (Sym P)
  /-- FREQ (R33). -/
  freq : Cells (FreqElem P)
  /-- CB (R34). -/
  cb : Cells (CbElem P)
  /-- PACK (R35). -/
  pack : Cells Bool
  /-- BIT_OUT (R36). -/
  bitOut : Cells Bool
  /-- TREE, TREE_N, ROOT, Q, NEXT_SEQ (R37, R38). -/
  htb : Htb P
  /-- RP, WP, CNT, CAND (R39). -/
  work : Work
  /-- The model's own: the number of the next draw of free values (log 5). -/
  free : Nat
  /-- The model's own: the draw that stands for what no one has written since reset (log 6). -/
  epoch : Nat
  /-- The host's moves still to come, oldest first (log 2). -/
  moves : List HostMove
  /-- What the last host read returned (log 2). -/
  hostData : Option (HostData P)
  deriving DecidableEq, Repr

/-- The state of the machine: the parameters it is built with (R9), which no step changes, and what it holds. The
parameters are no state of the block (R20); they stand here so that every claim is for every legal value of them (log 1). -/
structure State where
  params : Params
  block : Block params
  deriving DecidableEq, Repr

/-- A model-level stop. -/
inductive Fault where
  /-- Raised by RLE, RLD, FCNT, BUILD, PACK and UNPK when the command reads element `i` of space `sp` and nothing has
  written it since reset: R242 and U2 ask a model to treat that as an error of the model. Safe: the hardware goes on
  with some value (log 3). -/
  | unwrittenElement (sp : SpaceName) (i : Nat)
  deriving DecidableEq, Repr

/-- A refusal: no instruction is refused while every arm of `exec` has its meaning. -/
inductive Refusal where
  /-- Raised by an arm of `exec` whose instruction has no meaning yet. Safe. -/
  | notModelled (mnemonic : String)
  deriving DecidableEq, Repr

/-- The working registers after reset: unspecified in the spec (R48), zero and empty here (DESIGN CHOICE, log 4). -/
def Work.reset : Work := ⟨0, 0, 0, []⟩

/-- BUILD's internal state after reset: unspecified in the spec (R48); no TREE element written, the rest zero and
empty (DESIGN CHOICE, log 4). -/
def Htb.reset (P : Params) : Htb P := ⟨[], 0, .leaf 0, [], 0⟩

/-- What a block holds after reset, whatever its parameters (R48, R240): every register 0, no element of any space written
(log 3), the host with no move (log 2). -/
def Block.reset (P : Params) : Block P where
  status := 0
  errinfo := 0
  maxlen := 0
  filesize := 0
  bitInLen := 0
  symLen := 0
  packLen := 0
  bitOutLen := 0
  bitIn := []
  sym := []
  freq := []
  cb := []
  pack := []
  bitOut := []
  htb := Htb.reset P
  work := Work.reset
  free := 1
  epoch := 0
  moves := []
  hostData := none

/-- The state after reset, of a machine built with the reference parameters (DESIGN CHOICE, log 1). Any other legal parameters
give the state `⟨P, Block.reset P⟩`. -/
def State.reset : State := ⟨.reference, .reset .reference⟩

/-- How the scan loop of a command ends: at the end of its input with its output, by raising a fault of the block,
or at an element nobody has written (log 3). -/
inductive Scan (β : Type) where
  | done (w : Work) (out : β)
  | raised (f : FaultKind) (info : Nat)
  | unwritten (sp : SpaceName) (i : Nat)
  deriving DecidableEq, Repr

end Sys2Proof.Machine
end

