-- ==== Sys2Proof/Machine/Flags.lean ====
section
/-! DEFINITION. The only flags of the block: BUSY, DONE and ERR in STATUS (R23, R43 of 10_state.md), and the fault
codes (R215 of 60_exceptions.md). -/

namespace Sys2Proof.Machine

variable {P : Params}

/-- The STATUS word with these fields; bits 3:2 are reserved and read as 0 (R23). -/
def statusWord (busy done : Bool) (err : BitVec 4) : StatusWord :=
  err ++ (0#2 ++ (BitVec.ofBool done ++ BitVec.ofBool busy))

/-- STATUS.BUSY, bit 0 (R23). -/
def statusBusy (w : StatusWord) : Bool := w.getLsbD 0

/-- STATUS.DONE, bit 1 (R23). -/
def statusDone (w : StatusWord) : Bool := w.getLsbD 1

/-- STATUS[3:2], reserved (R23). -/
def statusReserved (w : StatusWord) : BitVec 2 := w.extractLsb' 2 2

/-- STATUS.ERR, bits 7:4 (R23). -/
def statusErr (w : StatusWord) : BitVec 4 := w.extractLsb' 4 4

/-- The code of a fault kind (R215). -/
def FaultKind.code : FaultKind → BitVec 4
  | .emptyTable => 1
  | .unknownSymbol => 2
  | .incompleteCodeword => 3
  | .lengthMismatch => 4
  | .outOfData => 5
  | .capacity => 6
  | .illegalCommand => 7
  | .symbolRange => 8

/-- BUSY of a state. -/
def Block.busy (s : Block P) : Bool := statusBusy s.status

/-- DONE of a state. -/
def Block.done (s : Block P) : Bool := statusDone s.status

/-- ERR of a state. -/
def Block.err (s : Block P) : BitVec 4 := statusErr s.status

/-- STATUS when a command is accepted: DONE 0, BUSY 1, ERR as it is (R205). -/
def Block.accept (s : Block P) : Block P :=
  { s with status := statusWord true false (statusErr s.status) }

/-- STATUS when a command ends without a fault: DONE 1, BUSY 0, ERR as it is (R208). -/
def Block.complete (s : Block P) : Block P :=
  { s with status := statusWord false true (statusErr s.status) }

end Sys2Proof.Machine
end

