-- ==== Sys2Proof/Machine/Operands.lean ====
section
/-! DEFINITION. Access to the element spaces (R61, R62 of 20_memory.md), the fields of an element (R33, R34 of
10_state.md), and the implicit operands of the commands (R83 of 30_encoding.md). No command has another
operand form. -/

namespace Sys2Proof.Machine

variable {P : Params}

/-- `MemRead(SPACE, i)` (R61): the element, or none where nothing has written it since reset (log 3). -/
def Cells.read {α : Type} : Cells α → Nat → Option α
  | [], _ => none
  | (k, x) :: r, i => if k = i then some x else Cells.read r i

/-- `MemWrite(SPACE, i, v)` (R61): replaces the whole element and keeps the indices strictly rising. -/
def Cells.write {α : Type} : Cells α → Nat → α → Cells α
  | [], i, v => [(i, v)]
  | (k, x) :: r, i, v =>
    if i < k then (i, v) :: (k, x) :: r
    else if i = k then (i, v) :: r
    else (k, x) :: Cells.write r i v

/-- The reads of `n` successive elements from index `i`, in index order (R63). -/
def Cells.window {α : Type} : Cells α → Nat → Nat → List (Option α)
  | _, _, 0 => []
  | c, i, n + 1 =>
    match c.dropWhile (fun e => decide (e.1 < i)) with
    | [] => none :: Cells.window [] (i + 1) n
    | (k, v) :: r =>
      if k = i then some v :: Cells.window r (i + 1) n
      else none :: Cells.window ((k, v) :: r) (i + 1) n

/-- `SPACE <- xs` (R15) for `n` elements from index `i`: the elements of `xs` first, and at and beyond its end the
elements `f` gives, which the caller takes free (U15; log 5). -/
def Cells.ofSeq {α : Type} : List α → (Nat → α) → Nat → Nat → Cells α
  | _, _, _, 0 => []
  | [], f, i, n + 1 => (i, f i) :: Cells.ofSeq [] f (i + 1) n
  | x :: xs, f, i, n + 1 => (i, x) :: Cells.ofSeq xs f (i + 1) n

/-- The canonical form from index `lo`: indices strictly rising and below the capacity. -/
def Cells.wfFrom {α : Type} (cap : Nat) : Nat → Cells α → Bool
  | _, [] => true
  | lo, (k, _) :: r => decide (lo ≤ k) && decide (k < cap) && Cells.wfFrom cap (k + 1) r

/-- The canonical form of a space with this capacity. An unlisted index reads as nothing at all, so no listed
element can equal it. -/
def Cells.wf {α : Type} (cap : Nat) (c : Cells α) : Bool := Cells.wfFrom cap 0 c

/-- The canonical form of all seven spaces of a state, with the capacities of R61. -/
def Memory.wf (s : Block P) : Bool :=
  Cells.wf P.BIT_CAP s.bitIn && Cells.wf P.SYM_CAP s.sym && Cells.wf P.N_SYM s.freq &&
    Cells.wf P.N_SYM s.cb && Cells.wf P.PACK_CAP s.pack && Cells.wf P.BIT_CAP s.bitOut &&
    Cells.wf (P.N_SYM - 1) s.htb.tree

/-- The values of successive reads from index `i`, or the index of the first element nobody has written. -/
def readAll {α : Type} : Nat → List (Option α) → Except Nat (List α)
  | _, [] => .ok []
  | i, none :: _ => .error i
  | i, some a :: r =>
    match readAll (i + 1) r with
    | .ok l => .ok (a :: l)
    | .error k => .error k

/-- The low bit of a value, for a one-bit element or field (R46). -/
def bitOfNat (v : Nat) : Bool := v % 2 == 1

/-- The low `n` bits of `b` as a bit string, the most significant first (R34). -/
def lowBits {w : Nat} (b : BitVec w) : Nat → List Bool
  | 0 => []
  | n + 1 => b.getLsbD n :: lowBits b n

/-- The codeword `cw(e)` of a CB element: its first bit is bit `len - 1` of the field (R34). -/
def codeword (e : CbElem P) : List Bool := lowBits e.bits e.len.toNat

/-- The number a codeword's bits stand for, `sum of w[j] * 2^(len(w)-1-j)` (R151). -/
def wordValue : List Bool → Nat
  | [] => 0
  | b :: w => b.toNat * 2 ^ w.length + wordValue w

/-- `entry(w)`: the CB element of codeword `w` (R151). -/
def codeEntry (w : List Bool) : CbElem P :=
  ⟨true, BitVec.ofNat _ w.length, BitVec.ofNat _ (wordValue w)⟩

/-- The bits of a node reference: bit `W_SYM` is 0 for a leaf and 1 for a node (R37). -/
def nodeRefBits : NodeRef P → BitVec (1 + P.W_SYM)
  | .leaf s => 0#1 ++ s
  | .node k => 1#1 ++ BitVec.ofNat P.W_SYM k

/-- The argument `maxLength` (R83, R25). -/
def Block.opMaxLength (s : Block P) : Nat := s.maxlen.toNat

/-- The argument `fileSize` (R83, R26). -/
def Block.opFileSize (s : Block P) : Nat := s.filesize.toNat

/-- The argument `bits`, BIT_IN[0..BIT_IN_LEN), each element as read (R83, R68). -/
def Block.opBits (s : Block P) : List (Option Bool) := Cells.window s.bitIn 0 s.bitInLen.toNat

/-- The argument `runLengths`, SYM[0..SYM_LEN), each element as read (R83, R68). -/
def Block.opRunLengths (s : Block P) : List (Option (Sym P)) := Cells.window s.sym 0 s.symLen.toNat

/-- The argument `bitstring`, PACK[0..PACK_LEN), each element as read (R83, R68). -/
def Block.opBitstring (s : Block P) : List (Option Bool) := Cells.window s.pack 0 s.packLen.toNat

/-- The argument `frequencies`: all elements of FREQ, as read (R83, R134). -/
def Block.opFrequencies (s : Block P) : List (Option (FreqElem P)) := Cells.window s.freq 0 P.N_SYM

/-- The argument `codebook`: all elements of CB, as read (R83, R156). -/
def Block.opCodebook (s : Block P) : List (Option (CbElem P)) := Cells.window s.cb 0 P.N_SYM

end Sys2Proof.Machine
end

