-- ==== Sys2Proof/Machine/Ops.lean ====
section
/-! DEFINITION. The shared operations: free values (log 5), what a command writes and forgets (R15, R39, R45),
accepting a command (R205), taking a fault (R224) and clearing it (R209), and how a command's scan ends. -/

namespace Sys2Proof.Machine

open Config

variable {P : Params}

/-- The outcome of a command or of a step. -/
abbrev Result := Host.Outcome State Fault Refusal

/-- The same for a block with parameters `P`. -/
abbrev BlockResult (P : Params) := Host.Outcome (Block P) Fault Refusal

/-- The outcome of the block as the outcome of the machine: the parameters stay. -/
def liftBlock : BlockResult P → Result
  | .next t => .next ⟨P, t⟩
  | .fault r => .fault r
  | .refused r => .refused r

/-- The machine with its block changed and its parameters kept. -/
def State.onBlock (s : State) (f : Block s.params → Block s.params) : State := ⟨s.params, f s.block⟩

/-- A free element of SYM. -/
def freeSym (t i : Nat) : Sym P := BitVec.ofNat _ (freeNat .sym t i)

/-- A free element of FREQ. -/
def freeFreq (t i : Nat) : FreqElem P :=
  ⟨freeBit .freqPresent t i, BitVec.ofNat _ (freeNat .freqWeight t i)⟩

/-- A free element of CB. -/
def freeCb (t i : Nat) : CbElem P :=
  ⟨freeBit .cbValid t i, BitVec.ofNat _ (freeNat .cbLen t i), BitVec.ofNat _ (freeNat .cbBits t i)⟩

/-- A free node reference. -/
def freeRef (t i : Nat) : NodeRef P :=
  if freeBit .refIsLeaf t i then .leaf (BitVec.ofNat _ (freeNat .refValue t i))
  else .node (freeNat .refValue t i % (P.N_SYM - 1))

/-- BUILD's internal state after BUILD has ended: unspecified within the bounds of R37 and R38 (U16). -/
def freeHtb (t : Nat) : Htb P where
  tree := Cells.ofSeq [] (fun k => ⟨freeRef t (2 * k), freeRef t (2 * k + 1)⟩) 0 (P.N_SYM - 1)
  treeN := freeNat .treeN t 0 % P.N_SYM
  root := freeRef t (2 * P.N_SYM)
  queue := (List.range (freeNat .queueLen t 0 % (P.N_SYM + 1))).map fun j =>
    ⟨freeNat .queueWeight t j % 2 ^ P.W_ACC, freeNat .queueSeq t j % (2 * P.N_SYM - 1),
      freeRef t (2 * P.N_SYM + 1 + j)⟩
  nextSeq := freeNat .nextSeq t 0 % (2 * P.N_SYM)

/-- The commands that use RP (R39). -/
def usesRp : Instr → Bool
  | .rle | .rld | .fcnt | .pack | .unpk => true
  | .build | .clr => false

/-- The commands that use WP (R39). -/
def usesWp : Instr → Bool
  | .rle | .rld | .pack | .unpk => true
  | .fcnt | .build | .clr => false

/-- The command that uses CNT (R39). -/
def usesCnt : Instr → Bool
  | .rle => true
  | .rld | .fcnt | .build | .pack | .unpk | .clr => false

/-- The command that uses CAND (R39). -/
def usesCand : Instr → Bool
  | .unpk => true
  | .rle | .rld | .fcnt | .build | .pack | .clr => false

/-- The command that uses TREE, TREE_N, ROOT, Q and NEXT_SEQ (R37, R38). -/
def usesHtb : Instr → Bool
  | .build => true
  | .rle | .rld | .fcnt | .pack | .unpk | .clr => false

/-- The working registers at the start of a command: those it uses at their initial value (R39). -/
def Work.start (i : Instr) (w : Work) : Work where
  rp := if usesRp i then 0 else w.rp
  wp := if usesWp i then 0 else w.wp
  cnt := if usesCnt i then 0 else w.cnt
  cand := if usesCand i then [] else w.cand

/-- The working registers after a command: those it used have no meaning any more (R39, U16; log 5). -/
def Work.release (P : Params) (i : Instr) (t : Nat) (w : Work) : Work where
  rp := if usesRp i then freeNat .rp t 0 % 2 ^ P.W_IDX else w.rp
  wp := if usesWp i then freeNat .wp t 0 % 2 ^ P.W_IDX else w.wp
  cnt := if usesCnt i then freeNat .cnt t 0 % 2 ^ P.W_SYM else w.cnt
  cand :=
    if usesCand i then (List.range (freeNat .candLen t 0 % (P.PACK_CAP + 1))).map (freeBit .candBit t)
    else w.cand

/-- The end of a command for the internal state: what it used is released, and the draw is closed (log 5). -/
def Block.release (i : Instr) (s : Block P) : Block P :=
  { s with
    work := Work.release P i s.free s.work
    htb := if usesHtb i then freeHtb s.free else s.htb
    free := s.free + 1 }

/-- `SYM <- xs` and SYM_LEN (R15, R28). The elements at and beyond the end of `xs`, which become unspecified, count as written
from then on, also those nobody has written since reset: a later command goes on with their free values, where R242 would let a
model stop (DESIGN CHOICE, log 3). -/
def Block.setSym (xs : List (Sym P)) (len : Idx P) (s : Block P) : Block P :=
  { s with sym := Cells.ofSeq xs (freeSym s.free) 0 P.SYM_CAP, symLen := len }

/-- `BIT_OUT <- xs` and BIT_OUT_LEN (R15, R30); the elements beyond the end as in `setSym` (log 3). -/
def Block.setBitOut (xs : List Bool) (len : Idx P) (s : Block P) : Block P :=
  { s with bitOut := Cells.ofSeq xs (freeBit .bitOut s.free) 0 P.BIT_CAP, bitOutLen := len }

/-- `PACK <- xs` and PACK_LEN (R15, R29); the elements beyond the end as in `setSym` (log 3). -/
def Block.setPack (xs : List Bool) (len : Idx P) (s : Block P) : Block P :=
  { s with pack := Cells.ofSeq xs (freeBit .pack s.free) 0 P.PACK_CAP, packLen := len }

/-- All elements of FREQ (R33). -/
def Block.setFreq (c : Cells (FreqElem P)) (s : Block P) : Block P := { s with freq := c }

/-- All elements of CB (R34). -/
def Block.setCb (c : Cells (CbElem P)) (s : Block P) : Block P := { s with cb := c }

/-- The spaces and length registers in a command's "writes" column of R45 become unspecified (R226, U1): each gets
free values (log 5). The elements count as written from then on (DESIGN CHOICE, log 3). -/
def Block.forgetOutputs (i : Instr) (s : Block P) : Block P :=
  match i with
  | .rle => s.setSym [] (BitVec.ofNat _ (freeNat .symLen s.free 0))
  | .rld => s.setBitOut [] (BitVec.ofNat _ (freeNat .bitOutLen s.free 0))
  | .fcnt => s.setFreq (Cells.ofSeq [] (freeFreq s.free) 0 P.N_SYM)
  | .build => s.setCb (Cells.ofSeq [] (freeCb s.free) 0 P.N_SYM)
  | .pack => s.setPack [] (BitVec.ofNat _ (freeNat .packLen s.free 0))
  | .unpk => s.setSym [] (BitVec.ofNat _ (freeNat .symLen s.free 0))
  | .clr => s

/-- The registers of fault entry (R224): ERR takes the code, DONE and BUSY are cleared, ERRINFO takes the low bits
of the detail value. -/
def Block.latch (f : FaultKind) (info : Nat) (s : Block P) : Block P :=
  { s with status := statusWord false false f.code, errinfo := BitVec.ofNat _ info }

/-- `raise <Fault>(info)` in command `i` (R16): the whole of fault entry (R224). Nothing is saved and control goes
nowhere; only the command's own outputs (R226) and working registers (U16) lose their values. -/
def Block.raise (i : Instr) (f : FaultKind) (info : Nat) (s : Block P) : Block P :=
  ((s.latch f info).forgetOutputs i).release i

/-- The return from a fault, the effect of CLR (R209, R228): ERR, DONE and ERRINFO are cleared, nothing is restored. No new draw
is opened, so a host read at or beyond a capacity (R61) has the same free value before and after CLR (DESIGN CHOICE, log 6). -/
def Block.clearFault (s : Block P) : Block P :=
  { s with status := statusWord s.busy false 0, errinfo := 0 }

/-- What dispatch does with a word that is no command (R205, R222): ignored while a command runs or a fault is
latched, else IllegalCommand with the word in ERRINFO. No new draw is opened, so a host read at or beyond a capacity (R61) has
the same free value before and after an illegal or ignored word (DESIGN CHOICE, log 6). -/
def Block.illegalCommand (w : CmdWord) (s : Block P) : Block P :=
  if s.busy then s
  else if s.err ≠ 0 then s
  else s.latch .illegalCommand w.toNat

/-- Dispatch of a command other than CLR (R205): ignored while BUSY (R211) or while a fault is latched (R206), else
accepted and run. -/
def commandGate (s : Block P) (body : Block P → BlockResult P) : BlockResult P :=
  if s.busy then .next s
  else if s.err ≠ 0 then .next s
  else body s.accept

/-- `out ++ [x]` before the rest of a scan. -/
def Scan.emit {α : Type} (x : α) : Scan (List α) → Scan (List α)
  | .done w out => .done w (x :: out)
  | .raised f info => .raised f info
  | .unwritten sp i => .unwritten sp i

/-- `out ++ xs` before the rest of a scan. -/
def Scan.emitAll {α : Type} (xs : List α) : Scan (List α) → Scan (List α)
  | .done w out => .done w (xs ++ out)
  | .raised f info => .raised f info
  | .unwritten sp i => .unwritten sp i

/-- The end of command `i`, accepted in state `s` (R208): its outputs are written and DONE is set, or its fault is
raised, or the model stops at a read of an unwritten element (log 3). -/
def endCommand {β : Type} (i : Instr) (s : Block P) (commit : β → Block P → Block P) : Scan β → BlockResult P
  | .done _ out => .next ((commit out s).complete.release i)
  | .raised f info => .next (s.raise i f info)
  | .unwritten sp k => .fault (.unwrittenElement sp k)

end Sys2Proof.Machine
end

