-- ==== Sys2Proof/Machine/Huffman.lean ====
section
/-! DEFINITION. Unit huffman_tree_builder: commands FCNT and BUILD (42_huffman_tree_builder.md), with phase 2 of
BUILD, the work of unit huffman_codeword_mapper (43_huffman_codeword_mapper.md). -/

namespace Sys2Proof.Machine

open Config

variable {P : Params}

/-- FREQ with no key: every element (present 0, weight 0) (R131). -/
def freqZero (P : Params) : Cells (FreqElem P) := Cells.ofSeq [] (fun _ => ⟨false, 0⟩) 0 P.N_SYM

/-- `FREQ[s] <- (present = 1, weight = FREQ[s].weight + 1)` (R131). -/
def countSym (f : Cells (FreqElem P)) (s : Sym P) : Cells (FreqElem P) :=
  Cells.write f s.toNat
    ⟨true, (match Cells.read f s.toNat with | some e => e.weight | none => 0) + 1⟩

/-- The counting loop of R131. -/
def fcntScan : Work → Cells (FreqElem P) → List (Option (Sym P)) → Scan (Cells (FreqElem P))
  | w, f, [] => .done w f
  | w, _, none :: _ => .unwritten .sym w.rp
  | w, f, some s :: rest => fcntScan { w with rp := w.rp + 1 } (countSym f s) rest

/-- FCNT once accepted (R131). -/
def fcntBody (s : Block P) : BlockResult P :=
  endCommand .fcnt s Block.setFreq
    (if P.SYM_CAP < s.symLen.toNat then .raised .capacity 0
     else fcntScan (s.work.start .fcnt) (freqZero P) s.opRunLengths)

/-- Command FCNT, 0x03 (R131, R205). -/
def execFcnt (s : State) : Result := liftBlock (commandGate s.block fcntBody)

/-- The keys of FREQ with their weights, in ascending order of symbol, from symbol `i` on (R134). -/
def keysFrom : Nat → List (FreqElem P) → List (Sym P × Nat)
  | _, [] => []
  | i, e :: r =>
    if e.present then (BitVec.ofNat _ i, e.weight.toNat) :: keysFrom (i + 1) r
    else keysFrom (i + 1) r

/-- The order of the queue (R136): by weight, then by sequence number. -/
def entryBefore (a b : QEntry P) : Bool :=
  decide (a.weight < b.weight) || (decide (a.weight = b.weight) && decide (a.seq < b.seq))

/-- Insertion into the queue, which is kept least entry first (R136; log 9). -/
def insertEntry (e : QEntry P) : List (QEntry P) → List (QEntry P)
  | [] => [e]
  | x :: q => if entryBefore e x then e :: x :: q else x :: insertEntry e q

/-- The leaf entries, numbered from `j` in the order of the keys (R135, R137). -/
def leafEntries : Nat → List (Sym P × Nat) → List (QEntry P)
  | _, [] => []
  | j, (s, wt) :: r => ⟨wt, j, .leaf s⟩ :: leafEntries (j + 1) r

/-- One merge (R135, R138): the least entry becomes the "0"-child and the next least the "1"-child of a new node.
With fewer than two entries there is no merge. -/
def mergeStep (h : Htb P) : Htb P :=
  match h.queue with
  | e1 :: e2 :: q =>
    { h with
      tree := Cells.write h.tree h.treeN ⟨e1.ref, e2.ref⟩
      treeN := h.treeN + 1
      queue := insertEntry ⟨e1.weight + e2.weight, h.nextSeq, .node h.treeN⟩ q
      nextSeq := h.nextSeq + 1 }
  | _ => h

/-- `k` merges. -/
def mergeLoop : Nat → Htb P → Htb P
  | 0, h => h
  | k + 1, h => mergeLoop k (mergeStep h)

/-- The start of phase 1 (R135): one leaf entry per key, NEXT_SEQ = N, TREE_N = 0. -/
def phase1Start (keys : List (Sym P × Nat)) (h : Htb P) : Htb P :=
  { h with
    treeN := 0
    queue := (leafEntries 0 keys).foldr insertEntry []
    nextSeq := keys.length }

/-- ROOT is the reference of the one entry left (R135, R139). -/
def setRoot (h : Htb P) : Htb P :=
  match h.queue with
  | [e] => { h with root := e.ref }
  | _ => h

/-- Phase 1 of BUILD (R135): with N keys the loop makes N - 1 merges (R139). -/
def phase1 (keys : List (Sym P × Nat)) (h : Htb P) : Htb P :=
  setRoot (mergeLoop (keys.length - 1) (phase1Start keys h))

/-- CB with no codeword: every element (valid 0, len 0, bits 0) (R151). -/
def cbZero (P : Params) : Cells (CbElem P) := Cells.ofSeq [] (fun _ => ⟨false, 0, 0⟩) 0 P.N_SYM

/-- `assign(ref, w)` (R151). The fuel bounds the depth, which is below `N_SYM`; TREE holds every node that a
reference of phase 1 names, so neither of the two ends without an assignment is reached. -/
def assign : Nat → Cells (TreeElem P) → NodeRef P → List Bool → Cells (CbElem P) → Cells (CbElem P)
  | 0, _, _, _, cb => cb
  | _ + 1, _, .leaf s, w, cb => Cells.write cb s.toNat (codeEntry w)
  | fuel + 1, tree, .node k, w, cb =>
    match Cells.read tree k with
    | none => cb
    | some e => assign fuel tree e.c1 (w ++ [true]) (assign fuel tree e.c0 (w ++ [false]) cb)

/-- Phase 2 of BUILD (R151): the only key of a one-key table gets the codeword "0" (R153), else the codewords are the
paths from the root. -/
def phase2 (h : Htb P) : Cells (CbElem P) :=
  match h.root with
  | .leaf s => Cells.write (cbZero P) s.toNat (codeEntry [false])
  | .node k => assign P.N_SYM h.tree (.node k) [] (cbZero P)

/-- BUILD once FREQ is read (R134): EmptyTable with no key (R140), else both phases. -/
def buildScan (w : Work) (h : Htb P) (table : Except Nat (List (FreqElem P))) : Scan (Cells (CbElem P)) :=
  match table with
  | .error i => .unwritten .freq i
  | .ok es =>
    match keysFrom 0 es with
    | [] => .raised .emptyTable 0
    | key :: keys => .done w (phase2 (phase1 (key :: keys) h))

/-- BUILD once accepted (R134). -/
def buildBody (s : Block P) : BlockResult P :=
  endCommand .build s Block.setCb
    (buildScan (s.work.start .build) s.htb (readAll 0 s.opFrequencies))

/-- Command BUILD, 0x04 (R134, R205). -/
def execBuild (s : State) : Result := liftBlock (commandGate s.block buildBody)

end Sys2Proof.Machine
end

