-- ==== Sys2Proof/Machine/Codeword.lean ====
section
/-! DEFINITION. The lookup services of unit huffman_codeword_mapper (R155, R156 of 43_huffman_codeword_mapper.md). -/

namespace Sys2Proof.Machine

open Config

variable {P : Params}

/-- `lookup(s)` (R155): the codeword of `s`, none where CB[s] is not valid; an error where CB[s] is unwritten
(log 3, log 8). -/
def lookupCode (cb : Cells (CbElem P)) (s : Sym P) : Except Nat (Option (List Bool)) :=
  match Cells.read cb s.toNat with
  | none => .error s.toNat
  | some e => .ok (if e.valid then some (codeword e) else none)

/-- Whether a CB element is valid with exactly this codeword: same length and same bits (R156). -/
def hasWord (e : CbElem P) (buf : List Bool) : Bool :=
  e.valid && (e.len.toNat == buf.length && codeword e == buf)

/-- The symbols whose valid CB element has the codeword `buf`, from symbol `i` on. -/
def candidates (buf : List Bool) : Nat → List (CbElem P) → List (Sym P)
  | _, [] => []
  | i, e :: r =>
    if hasWord e buf then BitVec.ofNat _ i :: candidates buf (i + 1) r
    else candidates buf (i + 1) r

/-- The answer among the matching symbols: the one there is, none, or a free pick among several (R157 (a), U5;
log 7). -/
def pickSym (t j : Nat) : List (Sym P) → Option (Sym P)
  | [] => none
  | [s] => some s
  | ss => ss[freeNat .pick t j % ss.length]?

/-- `match(buf)` (R156), the `j`-th of draw `t`: it reads every element of CB (log 8). -/
def matchCode (cb : List (Option (CbElem P))) (t j : Nat) (buf : List Bool) : Except Nat (Option (Sym P)) :=
  match readAll 0 cb with
  | .error i => .error i
  | .ok es => .ok (pickSym t j (candidates buf 0 es))

end Sys2Proof.Machine
end

