-- ==== Sys2Proof/Machine/Pack.lean ====
section
/-! DEFINITION. Unit huffman_bit_packer: command PACK (44_huffman_bit_packer.md). -/

namespace Sys2Proof.Machine

open Config

variable {P : Params}

/-- The loop of R166: the lookup (R167) before the space test (R168). -/
def packScan (cb : Cells (CbElem P)) : Work → List (Option (Sym P)) → Scan (List Bool)
  | w, [] => .done w []
  | w, none :: _ => .unwritten .sym w.rp
  | w, some s :: rest =>
    match lookupCode cb s with
    | .error i => .unwritten .cb i
    | .ok none => .raised .unknownSymbol w.rp
    | .ok (some cw) =>
      if P.PACK_CAP < w.wp + cw.length then .raised .capacity 0
      else .emitAll cw (packScan cb { w with rp := w.rp + 1, wp := w.wp + cw.length } rest)

/-- PACK once accepted (R166). -/
def packBody (s : Block P) : BlockResult P :=
  endCommand .pack s (fun out t => t.setPack out (BitVec.ofNat _ out.length))
    (if P.SYM_CAP < s.symLen.toNat then .raised .capacity 0
     else packScan s.cb (s.work.start .pack) s.opRunLengths)

/-- Command PACK, 0x05 (R166, R205). -/
def execPack (s : State) : Result := liftBlock (commandGate s.block packBody)

end Sys2Proof.Machine
end

