-- ==== Sys2Proof/Machine/Rld.lean ====
section
/-! DEFINITION. Unit run_length_decoder: command RLD (41_run_length_decoder.md). -/

namespace Sys2Proof.Machine

open Config

variable {P : Params}

/-- `exp(r)` for a symbol not above the cap `M` (R122): `r` zeros and a one, or `M` zeros when `r = M`. -/
def expandRun (M r : Nat) : List Bool :=
  if r < M then List.replicate r false ++ [true] else List.replicate M false

/-- The loop of R121 with cap `M` and target length `F`: the range test (R123) before the length test (R124), and
the padding at the end (R125). -/
def rldScan (M F : Nat) : Work → List (Option (Sym P)) → Scan (List Bool)
  | w, [] => .done w (List.replicate (F - w.wp) false)
  | w, none :: _ => .unwritten .sym w.rp
  | w, some r :: rest =>
    if M < r.toNat then .raised .symbolRange w.rp
    else if F < w.wp + (expandRun M r.toNat).length then .raised .lengthMismatch w.rp
    else
      .emitAll (expandRun M r.toNat)
        (rldScan M F
          { w with rp := w.rp + 1, wp := w.wp + (expandRun M r.toNat).length } rest)

/-- RLD once accepted (R121): the capacity tests first (R126), then the scan. -/
def rldBody (s : Block P) : BlockResult P :=
  endCommand .rld s (fun out t => t.setBitOut out s.filesize)
    (if P.SYM_CAP < s.symLen.toNat ∨ P.BIT_CAP < s.opFileSize then .raised .capacity 0
     else rldScan s.opMaxLength s.opFileSize (s.work.start .rld) s.opRunLengths)

/-- Command RLD, 0x02 (R121, R205). -/
def execRld (s : State) : Result := liftBlock (commandGate s.block rldBody)

end Sys2Proof.Machine
end

