-- ==== Sys2Proof/Machine/Rle.lean ====
section
/-! DEFINITION. Unit run_length_encoder: command RLE (40_run_length_encoder.md). -/

namespace Sys2Proof.Machine

open Config

variable {P : Params}

/-- One symbol of RLE's output, with the output capacity test of R101. -/
def emitRun (w : Work) (r : Nat) (rest : Scan (List (Sym P))) : Scan (List (Sym P)) :=
  if P.SYM_CAP < w.wp + 1 then .raised .capacity 0 else .emit (BitVec.ofNat _ r) rest

/-- The loop of R101 with cap `M` and input length `n`, from the working registers on the bits still to read:
a one bit (R103), a zero below the threshold (R104), the lookahead (R105), the lookahead with no bit left
(R107, R108), the end of the input (R106). -/
def rleScan (M n : Nat) : Work → List (Option Bool) → Scan (List (Sym P))
  | w, [] => .done w []
  | w, none :: _ => .unwritten .bitIn w.rp
  | w, some true :: rest =>
    emitRun w w.cnt (rleScan M n { w with rp := w.rp + 1, wp := w.wp + 1, cnt := 0 } rest)
  | w, some false :: rest =>
    if w.cnt + 2 < M then rleScan M n { w with rp := w.rp + 1, cnt := w.cnt + 1 } rest
    else
      match rest with
      | [] =>
        if M ≤ 2 then .raised .outOfData n
        else .done { w with rp := w.rp + 1 } []
      | none :: _ => .unwritten .bitIn (w.rp + 1)
      | some d :: rest' =>
        emitRun w (if d then w.cnt + 1 else w.cnt + 2)
          (rleScan M n { w with rp := w.rp + 2, wp := w.wp + 1, cnt := 0 } rest')

/-- RLE once accepted (R101): the capacity test first (R111), then the scan. -/
def rleBody (s : Block P) : BlockResult P :=
  endCommand .rle s (fun out t => t.setSym out (BitVec.ofNat _ out.length))
    (if P.BIT_CAP < s.bitInLen.toNat then .raised .capacity 0
     else rleScan s.opMaxLength s.bitInLen.toNat (s.work.start .rle) s.opBits)

/-- Command RLE, 0x01 (R101, R205). -/
def execRle (s : State) : Result := liftBlock (commandGate s.block rleBody)

end Sys2Proof.Machine
end

