-- ==== Sys2Proof/Machine/System.lean ====
section
/-! DEFINITION. The one system command, CLR (47_system_commands.md). -/

namespace Sys2Proof.Machine

/-- Command CLR, 0x07 (R209, R205): accepted with or without a fault latched, ignored only while BUSY (R211). -/
def execClr (s : State) : Result := if s.block.busy then .next s else .next (s.onBlock Block.clearFault)

end Sys2Proof.Machine
end

