-- ==== Sys2Proof/Machine/Unpk.lean ====
section
/-! DEFINITION. Unit huffman_bit_unpacker: command UNPK (45_huffman_bit_unpacker.md). -/

namespace Sys2Proof.Machine

open Config

variable {P : Params}

/-- The loop of R176 with input length `p`, in draw `t`: the candidate buffer is tested after every bit, and a
non-empty buffer at the end raises IncompleteCodeword with the index where its bits start (R178). -/
def unpkScan (cb : List (Option (CbElem P))) (t p : Nat) : Work → List (Option Bool) → Scan (List (Sym P))
  | w, [] => if w.cand = [] then .done w [] else .raised .incompleteCodeword (p - w.cand.length)
  | w, none :: _ => .unwritten .pack w.rp
  | w, some b :: rest =>
    match matchCode cb t w.rp (w.cand ++ [b]) with
    | .error i => .unwritten .cb i
    | .ok none => unpkScan cb t p { w with rp := w.rp + 1, cand := w.cand ++ [b] } rest
    | .ok (some s) =>
      if P.SYM_CAP < w.wp + 1 then .raised .capacity 0
      else .emit s (unpkScan cb t p { w with rp := w.rp + 1, wp := w.wp + 1, cand := [] } rest)

/-- UNPK once accepted (R176). -/
def unpkBody (s : Block P) : BlockResult P :=
  endCommand .unpk s (fun out t => t.setSym out (BitVec.ofNat _ out.length))
    (if P.PACK_CAP < s.packLen.toNat then .raised .capacity 0
     else unpkScan s.opCodebook s.free s.packLen.toNat (s.work.start .unpk) s.opBitstring)

/-- Command UNPK, 0x06 (R176, R205). -/
def execUnpk (s : State) : Result := liftBlock (commandGate s.block unpkBody)

end Sys2Proof.Machine
end

