-- ==== Sys2Proof/Machine/Dispatch.lean ====
section
/-! DEFINITION. The block's whole reaction to a command word that decodes, one arm per command (R82, R205). -/

namespace Sys2Proof.Machine

def exec (i : Instr) (s : State) : Host.Outcome State Fault Refusal :=
  match i with
  | .rle => Sys2Proof.Machine.execRle s
  | .rld => Sys2Proof.Machine.execRld s
  | .fcnt => Sys2Proof.Machine.execFcnt s
  | .build => Sys2Proof.Machine.execBuild s
  | .pack => Sys2Proof.Machine.execPack s
  | .unpk => Sys2Proof.Machine.execUnpk s
  | .clr => Sys2Proof.Machine.execClr s

end Sys2Proof.Machine
end

