-- ==== Sys2Proof/Machine/HostPort.lean ====
section
/-! DEFINITION. The host's access to the block: registers, elements, command words and reset (R21, R46 of 10_state.md;
R61, R66, R67 of 20_memory.md; R205 of 47_system_commands.md; R240, R241 of 70_reset_and_hazards.md). -/

namespace Sys2Proof.Machine

open Config

variable {P : Params}

/-- What a host read gives where the spec gives no value: beyond a capacity (R61), or while BUSY = 1 (R66). `slot` tells
the kinds of read apart (log 6). -/
def Block.noBit (s : Block P) (slot i : Nat) : Bool := freeBit .hostRead s.free (16 * i + slot)

/-- The same for a number (log 6). -/
def Block.noNat (s : Block P) (slot i : Nat) : Nat := freeNat .hostRead s.free (16 * i + slot)

/-- A host read of register `n` (R21, R22, R46): CMD and the reserved numbers read 0. While BUSY = 1 only STATUS means
anything (R66): a read of any other number, also of CMD, MAXLEN and the reserved ones, gives a free value of `W_IDX` bits, whatever
the width R21 gives the register (DESIGN CHOICE, log 6). -/
def Block.readReg (n : RegNum) (s : Block P) : Nat :=
  if s.busy ∧ n ≠ 1 then s.noNat 0 n.val % 2 ^ P.W_IDX
  else
    match n.val with
    | 1 => s.status.toNat
    | 2 => s.errinfo.toNat
    | 3 => s.maxlen.toNat
    | 4 => s.filesize.toNat
    | 5 => s.bitInLen.toNat
    | 6 => s.symLen.toNat
    | 7 => s.packLen.toNat
    | 8 => s.bitOutLen.toNat
    | _ => 0

/-- A host write of register `n` other than CMD (R21, R46): the low bits of the value go to a read-write register; a
write to a read-only or reserved one is ignored, and so is any write while BUSY = 1 (R66). -/
def Block.writeReg (n : RegNum) (v : Nat) (s : Block P) : Block P :=
  if s.busy then s
  else
    match n.val with
    | 3 => { s with maxlen := BitVec.ofNat _ v, free := s.free + 1 }
    | 4 => { s with filesize := BitVec.ofNat _ v, free := s.free + 1 }
    | 5 => { s with bitInLen := BitVec.ofNat _ v, free := s.free + 1 }
    | 6 => { s with symLen := BitVec.ofNat _ v, free := s.free + 1 }
    | 7 => { s with packLen := BitVec.ofNat _ v, free := s.free + 1 }
    | _ => s

/-- Whether the host's access to element `i` of a space of this capacity reaches an element (R61, R66). -/
def Block.reaches (s : Block P) (cap i : Nat) : Bool := !s.busy && decide (i < cap)

/-- A host read of element `i` of BIT_IN; one not written since reset reads as the value of epoch `s.epoch` (log 6). -/
def Block.readBitIn (i : Nat) (s : Block P) : Bool :=
  if s.reaches P.BIT_CAP i then (Cells.read s.bitIn i).getD (freeBit .bitIn s.epoch i) else s.noBit 0 i

/-- A host read of element `i` of SYM. -/
def Block.readSym (i : Nat) (s : Block P) : Sym P :=
  if s.reaches P.SYM_CAP i then (Cells.read s.sym i).getD (freeSym s.epoch i)
  else BitVec.ofNat _ (s.noNat 1 i)

/-- A host read of element `i` of FREQ. -/
def Block.readFreq (i : Nat) (s : Block P) : FreqElem P :=
  if s.reaches P.N_SYM i then (Cells.read s.freq i).getD (freeFreq s.epoch i)
  else ⟨s.noBit 1 i, BitVec.ofNat _ (s.noNat 2 i)⟩

/-- A host read of element `i` of CB. -/
def Block.readCb (i : Nat) (s : Block P) : CbElem P :=
  if s.reaches P.N_SYM i then (Cells.read s.cb i).getD (freeCb s.epoch i)
  else ⟨s.noBit 2 i, BitVec.ofNat _ (s.noNat 3 i), BitVec.ofNat _ (s.noNat 4 i)⟩

/-- A host read of element `i` of PACK. -/
def Block.readPack (i : Nat) (s : Block P) : Bool :=
  if s.reaches P.PACK_CAP i then (Cells.read s.pack i).getD (freeBit .pack s.epoch i) else s.noBit 3 i

/-- A host read of element `i` of BIT_OUT. -/
def Block.readBitOut (i : Nat) (s : Block P) : Bool :=
  if s.reaches P.BIT_CAP i then (Cells.read s.bitOut i).getD (freeBit .bitOut s.epoch i) else s.noBit 4 i

/-- A host write of element `i` of BIT_IN (R46, R61): the low bit of the value; ignored beyond the capacity and while
BUSY = 1. -/
def Block.writeBitIn (i v : Nat) (s : Block P) : Block P :=
  if s.reaches P.BIT_CAP i then
    { s with bitIn := Cells.write s.bitIn i (bitOfNat v), free := s.free + 1 }
  else s

/-- A host write of element `i` of SYM: the low `W_SYM` bits of the value. -/
def Block.writeSym (i v : Nat) (s : Block P) : Block P :=
  if s.reaches P.SYM_CAP i then
    { s with sym := Cells.write s.sym i (BitVec.ofNat _ v), free := s.free + 1 }
  else s

/-- A host write of element `i` of FREQ: the low bits of each field. -/
def Block.writeFreq (i present weight : Nat) (s : Block P) : Block P :=
  if s.reaches P.N_SYM i then
    { s with
      freq := Cells.write s.freq i ⟨bitOfNat present, BitVec.ofNat _ weight⟩, free := s.free + 1 }
  else s

/-- A host write of element `i` of CB: the low bits of each field. -/
def Block.writeCb (i valid len bits : Nat) (s : Block P) : Block P :=
  if s.reaches P.N_SYM i then
    { s with
      cb := Cells.write s.cb i ⟨bitOfNat valid, BitVec.ofNat _ len, BitVec.ofNat _ bits⟩
      free := s.free + 1 }
  else s

/-- A host write of element `i` of PACK: the low bit of the value. -/
def Block.writePack (i v : Nat) (s : Block P) : Block P :=
  if s.reaches P.PACK_CAP i then
    { s with pack := Cells.write s.pack i (bitOfNat v), free := s.free + 1 }
  else s

/-- A host write of element `i` of BIT_OUT: the low bit of the value. -/
def Block.writeBitOut (i v : Nat) (s : Block P) : Block P :=
  if s.reaches P.BIT_CAP i then
    { s with bitOut := Cells.write s.bitOut i (bitOfNat v), free := s.free + 1 }
  else s

/-- Reset applied by the platform (R240, R241), also while BUSY: the state after reset, with contents that are unspecified
anew; the host keeps its own moves and what it has read (log 10). -/
def Block.hardReset (s : Block P) : Block P :=
  { Block.reset P with free := s.free + 1, epoch := s.free, moves := s.moves, hostData := s.hostData }

/-- What a host read returns goes to the host; the block does not change (R67). -/
def Block.give (d : HostData P) (s : Block P) : Block P := { s with hostData := some d }

/-- A host write of the word `w` to CMD (R205). -/
def writeCmd (w : CmdWord) (s : State) : Result :=
  match decode w with
  | .ok i => exec i s
  | .error _ => .next (s.onBlock (Block.illegalCommand w))

/-- One move of the host. -/
def hostMove (m : HostMove) (s : State) : Result :=
  match m with
  | .writeReg n v => if n = 0 then writeCmd (BitVec.ofNat 8 v) s else .next (s.onBlock (Block.writeReg n v))
  | .readReg n => .next (s.onBlock fun b => b.give (.reg (b.readReg n)))
  | .writeBitIn i v => .next (s.onBlock (Block.writeBitIn i v))
  | .writeSym i v => .next (s.onBlock (Block.writeSym i v))
  | .writeFreq i p wt => .next (s.onBlock (Block.writeFreq i p wt))
  | .writeCb i v l b => .next (s.onBlock (Block.writeCb i v l b))
  | .writePack i v => .next (s.onBlock (Block.writePack i v))
  | .writeBitOut i v => .next (s.onBlock (Block.writeBitOut i v))
  | .readBitIn i => .next (s.onBlock fun b => b.give (.bit (b.readBitIn i)))
  | .readSym i => .next (s.onBlock fun b => b.give (.sym (b.readSym i)))
  | .readFreq i => .next (s.onBlock fun b => b.give (.freq (b.readFreq i)))
  | .readCb i => .next (s.onBlock fun b => b.give (.cb (b.readCb i)))
  | .readPack i => .next (s.onBlock fun b => b.give (.bit (b.readPack i)))
  | .readBitOut i => .next (s.onBlock fun b => b.give (.bit (b.readBitOut i)))
  | .reset => .next (s.onBlock Block.hardReset)

end Sys2Proof.Machine
end

