-- ==== Sys2Proof/Machine/Step.lean ====
section
/-! DEFINITION. One step of the machine: the host's next move, with the whole command where the move writes a
command word to CMD (R205, R207 of 47_system_commands.md), or idling where the host has no move (R236). -/

namespace Sys2Proof.Machine

/-- One step (log 2). -/
def step (s : State) : Host.Outcome State Fault Refusal :=
  match s.block.moves with
  | [] => .next s
  | m :: rest => hostMove m (s.onBlock fun b => { b with moves := rest })

/-- The word as the host's next move: the block fetches nothing (R3), a command arrives by a host write of its word to
CMD (R80). A program comes to run as a list of host moves given from outside (log 2). -/
def State.withFetchWord (s : State) (nbits w : Nat) : State :=
  s.onBlock fun b => { b with moves := .writeReg 0 (tableWord nbits w).toNat :: b.moves }

end Sys2Proof.Machine
end

