-- ==== Sys2Proof/Machine/Script.lean ====
section
/-! DEFINITION. The host-script notation of R87 (30_encoding.md) as lists of host moves, and the three codec sequences
ENCODE, ENCODE_CB and DECODE (R88, R190 to R192). -/

namespace Sys2Proof.Machine

open Config

/-- `CMD <MNEMONIC>` (R87): the host writes the command's word to CMD. -/
def scriptCmd (i : Instr) : HostMove := .writeReg 0 (encode i).toNat

/-- `CMDW <byte>` (R87). -/
def scriptCmdWord (b : Nat) : HostMove := .writeReg 0 b

/-- `WR MAXLEN, n` (R87). -/
def scriptMaxlen (n : Nat) : HostMove := .writeReg 3 n

/-- `WR FILESIZE, n` (R87). -/
def scriptFilesize (n : Nat) : HostMove := .writeReg 4 n

/-- `WR BIT_IN_LEN, n` (R87). -/
def scriptBitInLen (n : Nat) : HostMove := .writeReg 5 n

/-- `WR SYM_LEN, n` (R87). -/
def scriptSymLen (n : Nat) : HostMove := .writeReg 6 n

/-- `WR PACK_LEN, n` (R87). -/
def scriptPackLen (n : Nat) : HostMove := .writeReg 7 n

/-- `LD BIT_IN, xs` from index `i` (R87). -/
def scriptBitIn : Nat → List Bool → List HostMove
  | _, [] => []
  | i, b :: r => .writeBitIn i b.toNat :: scriptBitIn (i + 1) r

/-- `LD SYM, xs` from index `i` (R87). -/
def scriptSym : Nat → List Nat → List HostMove
  | _, [] => []
  | i, v :: r => .writeSym i v :: scriptSym (i + 1) r

/-- `LD PACK, xs` from index `i` (R87). -/
def scriptPack : Nat → List Bool → List HostMove
  | _, [] => []
  | i, b :: r => .writePack i b.toNat :: scriptPack (i + 1) r

/-- `LDF {s: w, ...}` (R87): `present = 1` for each listed symbol, `present = 0` for every other index. R87 says nothing of the
weight of an unlisted index; the script writes 0 (DESIGN CHOICE, log 15). -/
def scriptFreq (P : Params) (table : List (Nat × Nat)) : List HostMove :=
  (List.range P.N_SYM).map fun i =>
    match table.lookup i with
    | some wt => .writeFreq i 1 wt
    | none => .writeFreq i 0 0

/-- `LDC {s: "cw", ...}` (R87): `valid = 1` with the codeword for each listed symbol, `valid = 0` for every other
index. R87 says nothing of `len` and `bits` of an unlisted index; the script writes 0 (DESIGN CHOICE, log 15). -/
def scriptCb (P : Params) (table : List (Nat × List Bool)) : List HostMove :=
  (List.range P.N_SYM).map fun i =>
    match table.lookup i with
    | some w => .writeCb i 1 w.length (wordValue w)
    | none => .writeCb i 0 0 0

/-- `RD BIT_OUT` and the like read the valid part element by element (R87). -/
def scriptReadBitOut (n : Nat) : List HostMove := (List.range n).map .readBitOut

/-- Commands one after another, while each gives a next state (R88). -/
def execAll : List Instr → State → Result
  | [], s => .next s
  | i :: rest, s =>
    match exec i s with
    | .next t => execAll rest t
    | .fault r => .fault r
    | .refused r => .refused r

/-- The commands of ENCODE (R190). -/
def encodeCommands : List Instr := [.rle, .fcnt, .build, .pack]

/-- The commands of ENCODE_CB (R191). -/
def encodeCbCommands : List Instr := [.rle, .pack]

/-- The commands of DECODE (R192). -/
def decodeCommands : List Instr := [.unpk, .rld]

/-- ENCODE as a script (R190): `CMD RLE; CMD FCNT; CMD BUILD; CMD PACK`. -/
def scriptEncode : List HostMove := encodeCommands.map scriptCmd

/-- ENCODE_CB as a script (R191): `CMD RLE; CMD PACK`. -/
def scriptEncodeCb : List HostMove := encodeCbCommands.map scriptCmd

/-- DECODE as a script (R192): `CMD UNPK; CMD RLD`. -/
def scriptDecode : List HostMove := decodeCommands.map scriptCmd

end Sys2Proof.Machine
end

