-- ==== Sys2Proof/Safety.lean ====
section
/-! DEFINITION. The terms in which claims are stated: the invariant of the states a run reaches, loaded inputs, how a
command ends, well-formed codebooks (R157 of 43_huffman_codeword_mapper.md), and the vocabulary of the rules. -/

namespace Sys2Proof.Machine

open Config

variable {P : Params}

/-- The invariant of what the block holds between steps: the spaces are in canonical form, BUSY is 0 (R23, R207), STATUS[3:2] is
0 (R23), ERR is at most 8 (R215), DONE and ERR are never both set (R23), and ERRINFO is 0 with no fault latched (R24). -/
abbrev Inv (s : Block P) : Prop :=
  Memory.wf s = true ∧ s.busy = false ∧ statusReserved s.status = 0 ∧ s.err.toNat ≤ 8 ∧
    (s.done = true → s.err = 0) ∧ (s.err = 0 → s.errinfo = 0)

/-- A state in which the block accepts a command (R205): the invariant holds and no fault is latched. -/
abbrev Ready (s : Block P) : Prop := Inv s ∧ s.err = 0

/-- The space holds the sequence `xs` from index 0 (R13, R15). -/
abbrev Loaded {α : Type} (c : Cells α) (xs : List α) : Prop :=
  ∀ k, k < xs.length → Cells.read c k = xs[k]?

/-- Every element of the space has been written (R242). -/
abbrev Written {α : Type} (c : Cells α) (n : Nat) : Prop := ∀ k, k < n → (Cells.read c k).isSome = true

/-- Two spaces read the same below index `n`. -/
abbrev SameBelow {α : Type} (n : Nat) (c d : Cells α) : Prop := ∀ k, k < n → Cells.read c k = Cells.read d k

/-- Two spaces read the same at every index. -/
abbrev SameReads {α : Type} (c d : Cells α) : Prop := ∀ k, Cells.read c k = Cells.read d k

/-- How a command that ended without a fault leaves STATUS and ERRINFO (R208): STATUS = 0x02, ERRINFO = 0. -/
abbrev EndedDone (t : Block P) : Prop := t.status = 0x02 ∧ t.errinfo = 0

/-- How fault entry leaves STATUS and ERRINFO (R224): ERR holds the code, DONE = BUSY = 0, ERRINFO the detail. -/
abbrev Faulted (t : Block P) (f : FaultKind) (info : Nat) : Prop :=
  t.err = f.code ∧ t.done = false ∧ t.busy = false ∧ statusReserved t.status = 0 ∧
    t.errinfo = BitVec.ofNat _ info

/-- The bits that a sequence of symbols stands for under cap `M` (R110 (c), R122). -/
def expandAll (M : Nat) (syms : List (Sym P)) : List Bool := syms.flatMap fun r => expandRun M r.toNat

/-- The input bits that one symbol of RLE accounts for when MAXLEN is at most 2 (R108, R109). -/
def smallPiece (r : Sym P) : List Bool :=
  match r.toNat with
  | 0 => [true]
  | 1 => [false, true]
  | _ => [false, false]

/-- The codeword of a symbol in the codebook, if CB[x] is written and valid (R34, R155). -/
def Block.code (s : Block P) (x : Sym P) : Option (List Bool) :=
  match Cells.read s.cb x.toNat with
  | some e => if e.valid then some (codeword e) else none
  | none => none

/-- The codewords of a sequence of symbols laid end to end, if each has one (R169). -/
def Block.codeAll (s : Block P) : List (Sym P) → Option (List Bool)
  | [] => some []
  | x :: xs =>
    match s.code x, s.codeAll xs with
    | some w, some ws => some (w ++ ws)
    | _, _ => none

/-- R157 (a): no two valid elements have the same codeword. -/
def Codebook.Injective (s : Block P) : Prop :=
  ∀ x y w, s.code x = some w → s.code y = some w → x = y

/-- R157 (b): no codeword is a prefix of another symbol's codeword. -/
def Codebook.PrefixFree (s : Block P) : Prop :=
  ∀ x y v w, s.code x = some v → s.code y = some w → v <+: w → x = y

/-- R157 (c): no valid element has length 0. -/
def Codebook.NoEmpty (s : Block P) : Prop := ∀ x, s.code x ≠ some []

/-- What a codebook used by PACK and then UNPK must meet (R157). -/
def Codebook.WellFormed (s : Block P) : Prop :=
  Codebook.Injective s ∧ Codebook.PrefixFree s ∧ Codebook.NoEmpty s

/-- No non-empty prefix of `bits`, `bits` itself included, is a codeword (R178). -/
def NoCodewordStarts (s : Block P) (bits : List Bool) : Prop :=
  ∀ v x, v ≠ [] → v <+: bits → s.code x ≠ some v

/-- A symbol is a key of FREQ (R33). -/
def Block.isKey (s : Block P) (x : Sym P) : Prop :=
  ∃ wt, Cells.read s.freq x.toNat = some ⟨true, wt⟩

/-- The node reached from `ref` along the branch labels `w` (R152). -/
def followPath (tree : Cells (TreeElem P)) : NodeRef P → List Bool → Option (NodeRef P)
  | ref, [] => some ref
  | .leaf _, _ :: _ => none
  | .node k, b :: w =>
    match Cells.read tree k with
    | some e => followPath tree (if b then e.c1 else e.c0) w
    | none => none

/-- The symbols at the leaves below `ref`, left to right, to the depth of the fuel (R139). -/
def leavesBelow : Nat → Cells (TreeElem P) → NodeRef P → List (Sym P)
  | _, _, .leaf s => [s]
  | 0, _, .node _ => []
  | fuel + 1, tree, .node k =>
    match Cells.read tree k with
    | some e => leavesBelow fuel tree e.c0 ++ leavesBelow fuel tree e.c1
    | none => []

/-- The next state, if the outcome is one, under a map; the other outcomes as they are. -/
def mapNext (f : State → State) : Result → Result
  | .next t => .next (f t)
  | .fault r => .fault r
  | .refused r => .refused r

/-- The state with its internal state blanked out: what the host can ever learn of it (R40, R46). -/
def State.visible (s : State) : State := s.onBlock fun b => { b with work := Work.reset, htb := Htb.reset s.params }

/-- The moves that read. -/
def isRead : HostMove → Bool
  | .readReg _ | .readBitIn _ | .readSym _ | .readFreq _ | .readCb _ | .readPack _ | .readBitOut _ => true
  | _ => false

/-- The fault kinds each command can raise (R215, column "raised by"). -/
def mayRaise : Instr → FaultKind → Bool
  | .rle, .outOfData | .rle, .capacity => true
  | .rld, .lengthMismatch | .rld, .symbolRange | .rld, .capacity => true
  | .fcnt, .capacity => true
  | .build, .emptyTable => true
  | .pack, .unknownSymbol | .pack, .capacity => true
  | .unpk, .incompleteCodeword | .unpk, .capacity => true
  | _, _ => false

end Sys2Proof.Machine
end

