-- ==== Sys2Proof/Certificates/Slice0/Obligations.lean ====
section
/-! DEFINITION. The statements for the provers, each formalising rules of spec/ (OBLIGATIONS.json says which). In all
of them a value that the spec leaves unspecified is a free value of the model, and nothing is said of it (log 5). -/

open Sys2Proof Sys2Proof.Machine Sys2Proof.Config

/-! ## Encoding and dispatch -/

/-- R82: `match` and `mask` select each of the seven commands, and nothing else decodes to it. -/
def Obligations.MatchAndMaskSelectEachCommand : Prop :=
  ∀ w : CmdWord,
    (decode w = .ok .rle ↔ w &&& 0xFF = 0x01) ∧ (decode w = .ok .rld ↔ w &&& 0xFF = 0x02) ∧
    (decode w = .ok .fcnt ↔ w &&& 0xFF = 0x03) ∧ (decode w = .ok .build ↔ w &&& 0xFF = 0x04) ∧
    (decode w = .ok .pack ↔ w &&& 0xFF = 0x05) ∧ (decode w = .ok .unpk ↔ w &&& 0xFF = 0x06) ∧
    (decode w = .ok .clr ↔ w &&& 0xFF = 0x07)

/-- Decoding gives back every encoded command, and no second word decodes to it (R82, R85). -/
def Obligations.DecodeEncodeAgree : Prop :=
  ∀ i : Instr, i.wf = true ∧ decode (encode i) = .ok i ∧ ∀ w, decode w = .ok i → w = encode i

/-- R84, R222: the words 0x00 and 0x08 to 0xFF are illegal; written to CMD with no fault latched and no command running,
such a word latches IllegalCommand with the word in ERRINFO and changes nothing else. -/
def Obligations.IllegalWordLatchesIllegalCommand : Prop :=
  ∀ w : CmdWord, w = 0 ∨ 8 ≤ w.toNat →
    (∃ e, decode w = .error e) ∧
    ∀ (P : Params) (s : Block P), s.busy = false → s.err = 0 →
      writeCmd w ⟨P, s⟩ = .next ⟨P, { s with status := 0x70, errinfo := w.setWidth P.W_IDX }⟩

/-- A step whose next host move writes a word to CMD is the block's reaction to that word; where the word is a command's it is
exec of that command. The move is taken off the host's queue, and nothing else is around it (R205, R207; the queue is the
model's, log 2). -/
def Obligations.StepRunsTheDecodedCommand : Prop :=
  ∀ (P : Params) (s : Block P) (v : Nat) (rest : List HostMove), s.moves = .writeReg 0 v :: rest →
    step ⟨P, s⟩ = writeCmd (BitVec.ofNat 8 v) ⟨P, { s with moves := rest }⟩ ∧
    ∀ i : Instr, decode (BitVec.ofNat 8 v) = .ok i → i.wf = true → step ⟨P, s⟩ = exec i ⟨P, { s with moves := rest }⟩

/-- R206: while a fault is latched every command word but 0x07 is ignored, legal or not. -/
def Obligations.LatchedFaultBlocksAllButClr : Prop :=
  ∀ (P : Params) (s : Block P) (w : CmdWord), s.err ≠ 0 → w ≠ 0x07 → writeCmd w ⟨P, s⟩ = .next ⟨P, s⟩

/-- R211: a write to CMD while BUSY = 1 is ignored, whatever the word. -/
def Obligations.BusyIgnoresEveryCommandWord : Prop :=
  ∀ (P : Params) (s : Block P) (w : CmdWord), s.busy = true → writeCmd w ⟨P, s⟩ = .next ⟨P, s⟩

/-- R209: CLR, word 0x07, clears ERR, DONE and ERRINFO, with or without a fault latched, and changes nothing else; BUSY
stays 0. -/
def Obligations.ClrClearsTheFaultLatch : Prop :=
  decode 0x07 = .ok .clr ∧
  ∀ (P : Params) (s : Block P), s.busy = false → exec .clr ⟨P, s⟩ = .next ⟨P, { s with status := 0x00, errinfo := 0 }⟩

/-- R236: with no move of the host, the idle block keeps all state (the host's queue of moves is the model's, log 2). -/
def Obligations.IdleKeepsAllState : Prop := ∀ (P : Params) (s : Block P), s.moves = [] → step ⟨P, s⟩ = .next ⟨P, s⟩

/-- A host script of commands runs them one after another, whatever moves come after (R87, R88, R207; log 2). -/
def Obligations.AScriptRunsItsCommands : Prop :=
  ∀ (P : Params) (commands : List Instr) (s : Block P) (rest : List HostMove), s.moves = commands.map scriptCmd ++ rest →
    Host.Core.run Sys2Proof.core commands.length (⟨P, s⟩ : State) = execAll commands ⟨P, { s with moves := rest }⟩

/-! ## Reset -/

/-- The values after reset that R48 and R240 give, whatever the parameters: every register is 0, also as the host reads it.
(That `State.reset` is at the reference parameters is the model's choice, log 1.) -/
def Obligations.EveryRegisterResetsToZero : Prop :=
  State.reset.block = Block.reset State.reset.params ∧
  ∀ P : Params,
    (Block.reset P).status = 0x00 ∧ (Block.reset P).errinfo = 0 ∧ (Block.reset P).maxlen = 0 ∧
    (Block.reset P).filesize = 0 ∧ (Block.reset P).bitInLen = 0 ∧ (Block.reset P).symLen = 0 ∧
    (Block.reset P).packLen = 0 ∧ (Block.reset P).bitOutLen = 0 ∧ ∀ n : RegNum, (Block.reset P).readReg n = 0

/-- R240, R241: a reset in any state, even with BUSY = 1, ends in the state of R48; the spec leaves the contents of the spaces
open, and in the model no element then counts as written (log 3). -/
def Obligations.HostResetFromAnyState : Prop :=
  ∀ (P : Params) (s : Block P) (rest : List HostMove), s.moves = .reset :: rest →
    ∃ t, step ⟨P, s⟩ = .next ⟨P, t⟩ ∧ (∀ n : RegNum, t.readReg n = 0) ∧ t.busy = false ∧ t.err = 0 ∧ t.moves = rest ∧
      ∀ k, Cells.read t.bitIn k = none ∧ Cells.read t.sym k = none ∧ Cells.read t.freq k = none ∧
        Cells.read t.cb k = none ∧ Cells.read t.pack k = none ∧ Cells.read t.bitOut k = none

/-! ## Host access -/

/-- R21, R46: a host write of a register other than CMD keeps the low bits of the register's width in a read-write one
(3 to 7) and is ignored for a read-only or reserved one; no space changes. -/
def Obligations.HostWriteOfARegister : Prop :=
  ∀ (P : Params) (s : Block P) (n : RegNum) (v : Nat) (rest : List HostMove), s.moves = .writeReg n v :: rest → n ≠ 0 →
    s.busy = false →
    ∃ t, step ⟨P, s⟩ = .next ⟨P, t⟩ ∧ t.moves = rest ∧
      t.maxlen = (if n = 3 then BitVec.ofNat P.W_SYM v else s.maxlen) ∧
      t.filesize = (if n = 4 then BitVec.ofNat P.W_IDX v else s.filesize) ∧
      t.bitInLen = (if n = 5 then BitVec.ofNat P.W_IDX v else s.bitInLen) ∧
      t.symLen = (if n = 6 then BitVec.ofNat P.W_IDX v else s.symLen) ∧
      t.packLen = (if n = 7 then BitVec.ofNat P.W_IDX v else s.packLen) ∧
      t.status = s.status ∧ t.errinfo = s.errinfo ∧ t.bitOutLen = s.bitOutLen ∧
      SameReads t.bitIn s.bitIn ∧ SameReads t.sym s.sym ∧ SameReads t.freq s.freq ∧ SameReads t.cb s.cb ∧
      SameReads t.pack s.pack ∧ SameReads t.bitOut s.bitOut ∧ t.htb = s.htb ∧ t.work = s.work

/-- R21, R22, R23: what the host reads from each register between commands: CMD and the numbers 9 to 255 read 0. -/
def Obligations.HostReadOfARegister : Prop :=
  ∀ (P : Params) (s : Block P) (n : RegNum) (rest : List HostMove), s.moves = .readReg n :: rest → s.busy = false →
    step ⟨P, s⟩ = .next ⟨P, { s with
      moves := rest
      hostData := some (.reg
        (if n = 1 then s.status.toNat else if n = 2 then s.errinfo.toNat else if n = 3 then s.maxlen.toNat
         else if n = 4 then s.filesize.toNat else if n = 5 then s.bitInLen.toNat
         else if n = 6 then s.symLen.toNat else if n = 7 then s.packLen.toNat
         else if n = 8 then s.bitOutLen.toNat else 0)) }⟩

/-- R46, R61: a host write of one element of each space: below the capacity the element takes the low bits of the value and
every other element keeps its own; at or beyond the capacity the write is ignored. Nothing else of the block changes (the
counter of free values is the model's own, log 5). -/
def Obligations.HostWriteOfAnElement : Prop :=
  ∀ (P : Params) (s : Block P) (i : Nat) (rest : List HostMove), s.busy = false →
    (∀ v, s.moves = .writeBitIn i v :: rest → ∃ c n, step ⟨P, s⟩ = .next ⟨P, { s with moves := rest, bitIn := c, free := n }⟩ ∧
      ∀ k, Cells.read c k = if i < P.BIT_CAP ∧ k = i then some (v.testBit 0) else Cells.read s.bitIn k) ∧
    (∀ v, s.moves = .writeSym i v :: rest → ∃ c n, step ⟨P, s⟩ = .next ⟨P, { s with moves := rest, sym := c, free := n }⟩ ∧
      ∀ k, Cells.read c k = if i < P.SYM_CAP ∧ k = i then some (BitVec.ofNat P.W_SYM v) else Cells.read s.sym k) ∧
    (∀ p wt, s.moves = .writeFreq i p wt :: rest → ∃ c n,
      step ⟨P, s⟩ = .next ⟨P, { s with moves := rest, freq := c, free := n }⟩ ∧
      ∀ k, Cells.read c k =
        if i < P.N_SYM ∧ k = i then some ⟨p.testBit 0, BitVec.ofNat P.W_WT wt⟩ else Cells.read s.freq k) ∧
    (∀ v l b, s.moves = .writeCb i v l b :: rest →
      ∃ c n, step ⟨P, s⟩ = .next ⟨P, { s with moves := rest, cb := c, free := n }⟩ ∧
      ∀ k, Cells.read c k =
        if i < P.N_SYM ∧ k = i then some ⟨v.testBit 0, BitVec.ofNat P.W_LEN l, BitVec.ofNat P.L_MAX b⟩
        else Cells.read s.cb k) ∧
    (∀ v, s.moves = .writePack i v :: rest → ∃ c n, step ⟨P, s⟩ = .next ⟨P, { s with moves := rest, pack := c, free := n }⟩ ∧
      ∀ k, Cells.read c k = if i < P.PACK_CAP ∧ k = i then some (v.testBit 0) else Cells.read s.pack k) ∧
    (∀ v, s.moves = .writeBitOut i v :: rest → ∃ c n,
      step ⟨P, s⟩ = .next ⟨P, { s with moves := rest, bitOut := c, free := n }⟩ ∧
      ∀ k, Cells.read c k = if i < P.BIT_CAP ∧ k = i then some (v.testBit 0) else Cells.read s.bitOut k)

/-- R67: a host read changes nothing of the block, and the same read again returns the same. For reads at or beyond a capacity
(R61) and for reads other than of STATUS while BUSY = 1 (R66), where the spec leaves the value unspecified, that the two reads
agree is the model's choice (log 6, DESIGN CHOICE) and not R67's. -/
def Obligations.HostReadsHaveNoSideEffect : Prop :=
  ∀ (P : Params) (s : Block P) (m : HostMove) (rest : List HostMove), s.moves = m :: m :: rest → isRead m = true →
    ∃ d, step ⟨P, s⟩ = .next ⟨P, { s with moves := m :: rest, hostData := some d }⟩ ∧
      step ⟨P, { s with moves := m :: rest, hostData := some d }⟩ =
        .next ⟨P, { s with moves := rest, hostData := some d }⟩

/-- A written element below the capacity is what the host then reads (R61, R71). -/
def Obligations.HostReadsWhatIsWritten : Prop :=
  ∀ (P : Params) (s : Block P) (i : Nat) (rest : List HostMove), s.busy = false →
    (∀ b, Cells.read s.bitIn i = some b → i < P.BIT_CAP → s.moves = .readBitIn i :: rest →
      step ⟨P, s⟩ = .next ⟨P, { s with moves := rest, hostData := some (.bit b) }⟩) ∧
    (∀ x, Cells.read s.sym i = some x → i < P.SYM_CAP → s.moves = .readSym i :: rest →
      step ⟨P, s⟩ = .next ⟨P, { s with moves := rest, hostData := some (.sym x) }⟩) ∧
    (∀ e, Cells.read s.freq i = some e → i < P.N_SYM → s.moves = .readFreq i :: rest →
      step ⟨P, s⟩ = .next ⟨P, { s with moves := rest, hostData := some (.freq e) }⟩) ∧
    (∀ e, Cells.read s.cb i = some e → i < P.N_SYM → s.moves = .readCb i :: rest →
      step ⟨P, s⟩ = .next ⟨P, { s with moves := rest, hostData := some (.cb e) }⟩) ∧
    (∀ b, Cells.read s.pack i = some b → i < P.PACK_CAP → s.moves = .readPack i :: rest →
      step ⟨P, s⟩ = .next ⟨P, { s with moves := rest, hostData := some (.bit b) }⟩) ∧
    (∀ b, Cells.read s.bitOut i = some b → i < P.BIT_CAP → s.moves = .readBitOut i :: rest →
      step ⟨P, s⟩ = .next ⟨P, { s with moves := rest, hostData := some (.bit b) }⟩)

/-! ## Faults -/

/-- R221 (a), R47: a length register, or FILESIZE, above the capacity of its space: every command that reads it raises
Capacity with ERRINFO 0 before it reads any element. -/
def Obligations.LengthAboveCapacityRaisesCapacity : Prop :=
  ∀ (P : Params) (s : Block P), Ready s →
    (P.BIT_CAP < s.bitInLen.toNat → ∃ t, exec .rle ⟨P, s⟩ = .next ⟨P, t⟩ ∧ Faulted t .capacity 0) ∧
    (P.SYM_CAP < s.symLen.toNat →
      (∃ t, exec .rld ⟨P, s⟩ = .next ⟨P, t⟩ ∧ Faulted t .capacity 0) ∧
      (∃ t, exec .fcnt ⟨P, s⟩ = .next ⟨P, t⟩ ∧ Faulted t .capacity 0) ∧
      (∃ t, exec .pack ⟨P, s⟩ = .next ⟨P, t⟩ ∧ Faulted t .capacity 0)) ∧
    (P.BIT_CAP < s.filesize.toNat → ∃ t, exec .rld ⟨P, s⟩ = .next ⟨P, t⟩ ∧ Faulted t .capacity 0) ∧
    (P.PACK_CAP < s.packLen.toNat → ∃ t, exec .unpk ⟨P, s⟩ = .next ⟨P, t⟩ ∧ Faulted t .capacity 0)

/-- R208, R224, R215: a command other than CLR that runs ends either with DONE alone in STATUS, or with a fault that it can
raise and DONE = BUSY = 0; never both. -/
def Obligations.ACommandEndsDoneOrWithItsFault : Prop :=
  ∀ (P : Params) (i : Instr) (s t : Block P), Ready s → i ≠ .clr → exec i ⟨P, s⟩ = .next ⟨P, t⟩ →
    EndedDone t ∨ ∃ f info, mayRaise i f = true ∧ Faulted t f info

/-- R45, R226: whatever way a command ends, everything outside its "writes" column keeps its value; the internal TREE and
queue are BUILD's alone. The parameters stay. -/
def Obligations.CommandsChangeOnlyTheirOutputs : Prop :=
  ∀ (P : Params) (i : Instr) (s : Block P) (t' : State), exec i ⟨P, s⟩ = .next t' → ∃ t : Block P, t' = ⟨P, t⟩ ∧
    t.maxlen = s.maxlen ∧ t.filesize = s.filesize ∧ t.bitInLen = s.bitInLen ∧ SameReads t.bitIn s.bitIn ∧
    (i ≠ .rle → i ≠ .unpk → t.symLen = s.symLen ∧ SameReads t.sym s.sym) ∧
    (i ≠ .rld → t.bitOutLen = s.bitOutLen ∧ SameReads t.bitOut s.bitOut) ∧
    (i ≠ .fcnt → SameReads t.freq s.freq) ∧
    (i ≠ .build → SameReads t.cb s.cb ∧ t.htb = s.htb) ∧
    (i ≠ .pack → t.packLen = s.packLen ∧ SameReads t.pack s.pack) ∧
    (i = .build ∨ i = .clr → t.work = s.work) ∧ (i = .fcnt → t.work.wp = s.work.wp) ∧
    (i ≠ .rle → t.work.cnt = s.work.cnt) ∧ (i ≠ .unpk → t.work.cand = s.work.cand) ∧
    t.epoch = s.epoch ∧ t.moves = s.moves ∧ t.hostData = s.hostData

/-- The only stop of the model (R242, U2; log 3): a command stops at an element of its input that nothing has written since
reset, and only there. -/
def Obligations.OnlyAnUnwrittenInputStopsACommand : Prop :=
  ∀ (P : Params) (i : Instr) (s : Block P), Inv s →
    (∃ t, exec i ⟨P, s⟩ = .next ⟨P, t⟩) ∨
    ∃ sp k, exec i ⟨P, s⟩ = .fault (.unwrittenElement sp k) ∧ s.err = 0 ∧
      ((i = .rle ∧ sp = .bitIn ∧ k < s.bitInLen.toNat ∧ Cells.read s.bitIn k = none) ∨
       ((i = .rld ∨ i = .fcnt ∨ i = .pack) ∧ sp = .sym ∧ k < s.symLen.toNat ∧ Cells.read s.sym k = none) ∨
       (i = .build ∧ sp = .freq ∧ k < P.N_SYM ∧ Cells.read s.freq k = none) ∨
       ((i = .pack ∨ i = .unpk) ∧ sp = .cb ∧ k < P.N_SYM ∧ Cells.read s.cb k = none) ∨
       (i = .unpk ∧ sp = .pack ∧ k < s.packLen.toNat ∧ Cells.read s.pack k = none))

/-! ## RLE -/

/-- R101, R110 (b) to (d): with MAXLEN at least 3, RLE ends without a fault, and its symbols, each at most MAXLEN, expand to
the input less fewer than MAXLEN trailing zeros. -/
def Obligations.RleSymbolsAccountForTheInput : Prop :=
  ∀ (P : Params) (s : Block P) (bits : List Bool), Ready s → bits.length = s.bitInLen.toNat → bits.length ≤ P.BIT_CAP →
    Loaded s.bitIn bits → 3 ≤ s.maxlen.toNat →
    ∃ t syms z, exec .rle ⟨P, s⟩ = .next ⟨P, t⟩ ∧ EndedDone t ∧ t.symLen.toNat = syms.length ∧ Loaded t.sym syms ∧
      bits = expandAll s.maxlen.toNat syms ++ List.replicate z false ∧ z < s.maxlen.toNat ∧
      (∀ r ∈ syms, r.toNat ≤ s.maxlen.toNat) ∧ syms.length ≤ bits.length

/-- R103 to R107: conversely, an input made of whole runs and fewer than MAXLEN trailing zeros gives exactly those runs as
symbols, also when the trailing zeros end in a lookahead with no bit left (MAXLEN - 1 of them). -/
def Obligations.RleRecoversTheRuns : Prop :=
  ∀ (P : Params) (s : Block P) (syms : List (Sym P)) (z : Nat), Ready s → 3 ≤ s.maxlen.toNat →
    (∀ r ∈ syms, r.toNat ≤ s.maxlen.toNat) → z < s.maxlen.toNat →
    (expandAll s.maxlen.toNat syms ++ List.replicate z false).length = s.bitInLen.toNat →
    s.bitInLen.toNat ≤ P.BIT_CAP →
    Loaded s.bitIn (expandAll s.maxlen.toNat syms ++ List.replicate z false) →
    ∃ t, exec .rle ⟨P, s⟩ = .next ⟨P, t⟩ ∧ EndedDone t ∧ t.symLen.toNat = syms.length ∧ Loaded t.sym syms

/-- R108, R109: with MAXLEN at most 2, "1" gives 0, "01" gives 1, "00" gives 2, and a last lone "0" raises OutOfData with
ERRINFO = BIT_IN_LEN. -/
def Obligations.RleWithASmallCap : Prop :=
  ∀ (P : Params) (s : Block P) (syms : List (Sym P)), Ready s → s.maxlen.toNat ≤ 2 → (∀ r ∈ syms, r.toNat ≤ 2) →
    s.bitInLen.toNat ≤ P.BIT_CAP →
    ((syms.flatMap smallPiece).length = s.bitInLen.toNat → Loaded s.bitIn (syms.flatMap smallPiece) →
      ∃ t, exec .rle ⟨P, s⟩ = .next ⟨P, t⟩ ∧ EndedDone t ∧ t.symLen.toNat = syms.length ∧ Loaded t.sym syms) ∧
    ((syms.flatMap smallPiece ++ [false]).length = s.bitInLen.toNat →
      Loaded s.bitIn (syms.flatMap smallPiece ++ [false]) →
      ∃ t, exec .rle ⟨P, s⟩ = .next ⟨P, t⟩ ∧ Faulted t .outOfData s.bitInLen.toNat)

/-! ## RLD -/

/-- R121, R122, R125: RLD writes the expansion of the symbols, padded with zeros to FILESIZE, and BIT_OUT_LEN = FILESIZE. -/
def Obligations.RldExpandsAndPads : Prop :=
  ∀ (P : Params) (s : Block P) (syms : List (Sym P)), Ready s → syms.length = s.symLen.toNat → syms.length ≤ P.SYM_CAP →
    Loaded s.sym syms → s.filesize.toNat ≤ P.BIT_CAP → (∀ r ∈ syms, r.toNat ≤ s.maxlen.toNat) →
    (expandAll s.maxlen.toNat syms).length ≤ s.filesize.toNat →
    ∃ t, exec .rld ⟨P, s⟩ = .next ⟨P, t⟩ ∧ EndedDone t ∧ t.bitOutLen = s.filesize ∧
      Loaded t.bitOut (expandAll s.maxlen.toNat syms ++
        List.replicate (s.filesize.toNat - (expandAll s.maxlen.toNat syms).length) false)

/-- R124: LengthMismatch is raised at the least index at which the expansion is longer than FILESIZE, if the symbols up to
there are in range; with all symbols in range, exactly when the whole expansion is longer; an expansion of exactly FILESIZE
bits is no fault and gets no padding. -/
def Obligations.RldLengthMismatchAtTheLeastIndex : Prop :=
  ∀ (P : Params) (s : Block P) (syms : List (Sym P)), Ready s → syms.length = s.symLen.toNat → syms.length ≤ P.SYM_CAP →
    Loaded s.sym syms → s.filesize.toNat ≤ P.BIT_CAP →
    (∀ k, k < syms.length → (∀ r ∈ syms.take (k + 1), r.toNat ≤ s.maxlen.toNat) →
      s.filesize.toNat < (expandAll s.maxlen.toNat (syms.take (k + 1))).length →
      (∀ j, j < k → (expandAll s.maxlen.toNat (syms.take (j + 1))).length ≤ s.filesize.toNat) →
      ∃ t, exec .rld ⟨P, s⟩ = .next ⟨P, t⟩ ∧ Faulted t .lengthMismatch k) ∧
    ((∀ r ∈ syms, r.toNat ≤ s.maxlen.toNat) →
      ((∃ t k, exec .rld ⟨P, s⟩ = .next ⟨P, t⟩ ∧ Faulted t .lengthMismatch k) ↔
        s.filesize.toNat < (expandAll s.maxlen.toNat syms).length) ∧
      ((expandAll s.maxlen.toNat syms).length = s.filesize.toNat →
        ∃ t, exec .rld ⟨P, s⟩ = .next ⟨P, t⟩ ∧ EndedDone t ∧ t.bitOutLen = s.filesize ∧
          Loaded t.bitOut (expandAll s.maxlen.toNat syms)))

/-- R123, R126: the first symbol above MAXLEN raises SymbolRange with its index, if the symbols before it fit in FILESIZE; the
symbols after it are not looked at. -/
def Obligations.RldSymbolRangeAtTheFirstIndex : Prop :=
  ∀ (P : Params) (s : Block P) (before : List (Sym P)) (r : Sym P), Ready s → before.length < s.symLen.toNat →
    s.symLen.toNat ≤ P.SYM_CAP → Loaded s.sym (before ++ [r]) → s.filesize.toNat ≤ P.BIT_CAP →
    (∀ x ∈ before, x.toNat ≤ s.maxlen.toNat) → s.maxlen.toNat < r.toNat →
    (expandAll s.maxlen.toNat before).length ≤ s.filesize.toNat →
    ∃ t, exec .rld ⟨P, s⟩ = .next ⟨P, t⟩ ∧ Faulted t .symbolRange before.length

/-- R128: RLD inverts RLE. For MAXLEN at least 3, RLE ends without a fault, and RLD with the same symbols and MAXLEN and with
FILESIZE the length of the input gives the input back, in whatever other state; for MAXLEN = 2 the same holds whenever RLE
does not raise OutOfData. -/
def Obligations.RldInvertsRle : Prop :=
  ∀ (P : Params) (s t : Block P) (bits : List Bool), Ready s → bits.length = s.bitInLen.toNat → bits.length ≤ P.BIT_CAP →
    Loaded s.bitIn bits → 2 ≤ s.maxlen.toNat → exec .rle ⟨P, s⟩ = .next ⟨P, t⟩ →
    (3 ≤ s.maxlen.toNat → EndedDone t) ∧
    (t.err ≠ FaultKind.outOfData.code →
      ∀ v : Block P, Ready v → v.symLen = t.symLen → SameBelow t.symLen.toNat v.sym t.sym → v.maxlen = s.maxlen →
        v.filesize.toNat = bits.length →
        ∃ u, exec .rld ⟨P, v⟩ = .next ⟨P, u⟩ ∧ EndedDone u ∧ u.bitOutLen.toNat = bits.length ∧ Loaded u.bitOut bits)

/-! ## FCNT and BUILD -/

/-- R131: FCNT, word 0x03, writes all of FREQ: a symbol that occurs is a key with the number of its occurrences, any other
element is (0, 0). Its only fault is Capacity, for SYM_LEN above the capacity. -/
def Obligations.FcntCountsOccurrences : Prop :=
  decode 0x03 = .ok .fcnt ∧
  ∀ (P : Params) (s : Block P), Ready s →
    (∀ syms : List (Sym P), syms.length = s.symLen.toNat → syms.length ≤ P.SYM_CAP → Loaded s.sym syms →
      ∃ t, exec .fcnt ⟨P, s⟩ = .next ⟨P, t⟩ ∧ EndedDone t ∧
        ∀ x : Sym P, ∃ wt, Cells.read t.freq x.toNat = some ⟨decide (x ∈ syms), wt⟩ ∧
          wt.toNat = syms.count x) ∧
    (P.SYM_CAP < s.symLen.toNat → ∃ t, exec .fcnt ⟨P, s⟩ = .next ⟨P, t⟩ ∧ Faulted t .capacity 0)

/-- R140: BUILD raises EmptyTable exactly when FREQ has no key, whatever the weights. -/
def Obligations.BuildRaisesEmptyTableExactlyWithoutKeys : Prop :=
  ∀ (P : Params) (s : Block P), Ready s → Written s.freq P.N_SYM →
    ((∀ x, ¬ s.isKey x) → ∃ t, exec .build ⟨P, s⟩ = .next ⟨P, t⟩ ∧ Faulted t .emptyTable 0) ∧
    ((∃ x, s.isKey x) → ∃ t, exec .build ⟨P, s⟩ = .next ⟨P, t⟩ ∧ EndedDone t)

/-- R154 (a), (c): BUILD writes every element of CB; exactly the keys have a codeword, of length 1 to L_MAX, and the other
elements are (0, 0, 0). -/
def Obligations.BuildGivesACodewordToEveryKey : Prop :=
  ∀ (P : Params) (s : Block P), Ready s → Written s.freq P.N_SYM → (∃ x, s.isKey x) →
    ∃ t, exec .build ⟨P, s⟩ = .next ⟨P, t⟩ ∧ EndedDone t ∧ Written t.cb P.N_SYM ∧
      ∀ x : Sym P, (s.isKey x → ∃ w, t.code x = some w ∧ 1 ≤ w.length ∧ w.length ≤ P.L_MAX) ∧
        (¬ s.isKey x → Cells.read t.cb x.toNat = some ⟨false, 0, 0⟩)

/-- R153: the only key of a one-key table gets the codeword "0", stored as (valid 1, len 1, bits 0). -/
def Obligations.BuildOfOneKeyGivesZero : Prop :=
  ∀ (P : Params) (s : Block P) (x : Sym P), Ready s → Written s.freq P.N_SYM → (∀ y, s.isKey y ↔ y = x) →
    ∃ t, exec .build ⟨P, s⟩ = .next ⟨P, t⟩ ∧ EndedDone t ∧ Cells.read t.cb x.toNat = some ⟨true, 1, 0⟩ ∧
      t.code x = some [false]

/-- R154 (b): the codebook BUILD writes is injective, prefix-free and without an empty codeword. -/
def Obligations.BuildWritesAWellFormedCodebook : Prop :=
  ∀ (P : Params) (s t : Block P), Ready s → Written s.freq P.N_SYM → exec .build ⟨P, s⟩ = .next ⟨P, t⟩ → t.err = 0 →
    Codebook.WellFormed t

/-- R154 (d): with two or more keys the code is complete: the sum of 2^(-len) over the keys is 1 (here times 2^L_MAX). -/
def Obligations.BuildWritesACompleteCode : Prop :=
  ∀ (P : Params) (s t : Block P) (x y : Sym P), Ready s → Written s.freq P.N_SYM → s.isKey x → s.isKey y → x ≠ y →
    exec .build ⟨P, s⟩ = .next ⟨P, t⟩ →
    ((List.range P.N_SYM).map fun k =>
      match t.code (BitVec.ofNat P.W_SYM k) with
      | some w => 2 ^ (P.L_MAX - w.length)
      | none => 0).sum = 2 ^ P.L_MAX

/-- R143: two BUILD commands with equal FREQ contents leave equal CB contents, whatever else the two states hold. -/
def Obligations.BuildIsAFunctionOfFreq : Prop :=
  ∀ (P : Params) (s s' t t' : Block P), Ready s → Ready s' → Written s.freq P.N_SYM → SameReads s.freq s'.freq →
    exec .build ⟨P, s⟩ = .next ⟨P, t⟩ → exec .build ⟨P, s'⟩ = .next ⟨P, t'⟩ → t.err = 0 →
    t'.err = 0 ∧ SameReads t.cb t'.cb

/-- R134, R135, R139, R151: with FREQ written and some key, what BUILD leaves in CB is phase 2 of the tree that phase 1 makes from
the keys; and phase 1 of N keys is its start, N - 1 merges, and ROOT the reference of the one entry left. The statements about the
start, the merges and phase 2 reach the command through this one. -/
def Obligations.BuildRunsItsTwoPhases : Prop :=
  ∀ (P : Params) (s : Block P) (es : List (FreqElem P)), Ready s → es.length = P.N_SYM → Loaded s.freq es →
    keysFrom 0 es ≠ [] →
    (∃ t, exec .build ⟨P, s⟩ = .next ⟨P, t⟩ ∧ EndedDone t ∧ SameReads t.cb (phase2 (phase1 (keysFrom 0 es) s.htb))) ∧
    ∃ e : QEntry P,
      (mergeLoop ((keysFrom 0 es).length - 1) (phase1Start (keysFrom 0 es) s.htb)).queue = [e] ∧
      phase1 (keysFrom 0 es) s.htb =
        { mergeLoop ((keysFrom 0 es).length - 1) (phase1Start (keysFrom 0 es) s.htb) with root := e.ref }

/-- R135, R137: the keys of FREQ are taken in ascending order of symbol, each with its weight, and phase 1 starts with one entry
for each: the j-th key has its weight, `seq` j and the reference Leaf(key); NEXT_SEQ is the number of keys and TREE_N is 0. -/
def Obligations.PhaseOneStartsWithTheKeysInOrder : Prop :=
  ∀ (P : Params) (es : List (FreqElem P)) (h : Htb P), es.length ≤ P.N_SYM →
    (keysFrom 0 es).Pairwise (fun a b => a.1.toNat < b.1.toNat) ∧
    (∀ (x : Sym P) (wt : Nat), (x, wt) ∈ keysFrom 0 es ↔
      ∃ e, es[x.toNat]? = some e ∧ e.present = true ∧ e.weight.toNat = wt) ∧
    (phase1Start (keysFrom 0 es) h).queue.length = (keysFrom 0 es).length ∧
    (∀ (j : Nat) (x : Sym P) (wt : Nat), (keysFrom 0 es)[j]? = some (x, wt) →
      ⟨wt, j, .leaf x⟩ ∈ (phase1Start (keysFrom 0 es) h).queue) ∧
    (phase1Start (keysFrom 0 es) h).nextSeq = (keysFrom 0 es).length ∧
    (phase1Start (keysFrom 0 es) h).treeN = 0

/-- R135, R138, R142: one merge, of any queue. The first two entries leave it; the first becomes the "0"-child and the second the
"1"-child of TREE[TREE_N], and no other node changes; an entry with the exact sum of their weights, `seq` NEXT_SEQ and the reference
Node(TREE_N) enters; TREE_N and NEXT_SEQ rise by 1. The loop of phase 1 repeats it. That in phase 1 the first two are the least two
is `QueueIsStrictlyOrdered`. -/
def Obligations.AMergeJoinsTheFirstTwoEntries : Prop :=
  ∀ (P : Params) (h : Htb P) (e1 e2 : QEntry P) (q : List (QEntry P)), h.queue = e1 :: e2 :: q →
    (∀ k, Cells.read (mergeStep h).tree k = if k = h.treeN then some ⟨e1.ref, e2.ref⟩ else Cells.read h.tree k) ∧
    List.Perm (mergeStep h).queue (⟨e1.weight + e2.weight, h.nextSeq, .node h.treeN⟩ :: q) ∧
    (mergeStep h).treeN = h.treeN + 1 ∧ (mergeStep h).nextSeq = h.nextSeq + 1 ∧ (mergeStep h).root = h.root ∧
    mergeLoop 0 h = h ∧ ∀ k, mergeLoop (k + 1) h = mergeStep (mergeLoop k h)

/-- R135, R139, R142: at every point of phase 1 the leaves below the entries of the queue are the keys, each once, and the
weight of an entry is the exact sum of the FREQ weights of the leaves below it. -/
def Obligations.EntryWeightsAreTheSumsOfTheirLeaves : Prop :=
  ∀ (P : Params) (es : List (FreqElem P)) (h : Htb P) (k : Nat), es.length ≤ P.N_SYM →
    List.Perm
      ((mergeLoop k (phase1Start (keysFrom 0 es) h)).queue.flatMap fun e =>
        leavesBelow P.N_SYM (mergeLoop k (phase1Start (keysFrom 0 es) h)).tree e.ref)
      ((keysFrom 0 es).map Prod.fst) ∧
    ∀ e ∈ (mergeLoop k (phase1Start (keysFrom 0 es) h)).queue,
      e.weight = ((leavesBelow P.N_SYM (mergeLoop k (phase1Start (keysFrom 0 es) h)).tree e.ref).map fun x =>
        match es[x.toNat]? with
        | some f => f.weight.toNat
        | none => 0).sum

/-- R136, R137: at every point of phase 1 the queue is strictly ordered by weight and sequence number, so its first two entries
are its least two, and no two entries have the same number. -/
def Obligations.QueueIsStrictlyOrdered : Prop :=
  ∀ (P : Params) (keys : List (Sym P × Nat)) (h : Htb P) (k : Nat),
    (mergeLoop k (phase1Start keys h)).queue.Pairwise (fun a b => entryBefore a b = true) ∧
    ((mergeLoop k (phase1Start keys h)).queue.map QEntry.seq).Nodup ∧
    ∀ e ∈ (mergeLoop k (phase1Start keys h)).queue, e.seq < (mergeLoop k (phase1Start keys h)).nextSeq

/-- R139: phase 1 with N keys ends with one entry, TREE_N = N - 1, and ROOT = Node(N - 2), or Leaf(keys[0]) with one key; the
tree has exactly N leaves, one per key, each key once. -/
def Obligations.PhaseOneEndsWithOneTree : Prop :=
  ∀ (P : Params) (keys : List (Sym P × Nat)) (h : Htb P), keys ≠ [] →
    (phase1 keys h).queue.length = 1 ∧ (phase1 keys h).treeN = keys.length - 1 ∧
    (2 ≤ keys.length → (phase1 keys h).root = .node (keys.length - 2)) ∧
    (∀ x wt, keys = [(x, wt)] → (phase1 keys h).root = .leaf x) ∧
    List.Perm (leavesBelow keys.length (phase1 keys h).tree (phase1 keys h).root) (keys.map Prod.fst)

/-- R142: no weight in the queue exceeds what W_ACC bits hold, since it is a sum of the keys' weights, each below 2^W_WT. -/
def Obligations.QueueWeightsFitTheirWidth : Prop :=
  ∀ (P : Params) (es : List (FreqElem P)) (h : Htb P) (k : Nat), es.length ≤ P.N_SYM →
    ∀ e ∈ (mergeLoop k (phase1Start (keysFrom 0 es) h)).queue, e.weight < 2 ^ P.W_ACC

/-- R152: with two or more keys, the codeword of a key is the string of branch labels on the path from ROOT to its leaf, and
its length is the depth of the leaf. -/
def Obligations.CodewordIsThePathFromTheRoot : Prop :=
  ∀ (P : Params) (es : List (FreqElem P)) (h : Htb P) (x : Sym P) (wt : Nat), es.length = P.N_SYM → 2 ≤ (keysFrom 0 es).length →
    (x, wt) ∈ keysFrom 0 es →
    ∃ (e : CbElem P) (w : List Bool), Cells.read (phase2 (phase1 (keysFrom 0 es) h)) x.toNat = some e ∧ e.valid = true ∧
      codeword e = w ∧ e.len.toNat = w.length ∧
      followPath (phase1 (keysFrom 0 es) h).tree (phase1 (keysFrom 0 es) h).root w = some (.leaf x)

/-! ## PACK and UNPK -/

/-- R169: PACK lays the codewords of the symbols end to end and PACK_LEN is the sum of their lengths, whenever it ends without
a fault; and it does so end when every symbol has a codeword and they fit (R166). -/
def Obligations.PackConcatenatesTheCodewords : Prop :=
  ∀ (P : Params) (s : Block P) (syms : List (Sym P)), Ready s → syms.length = s.symLen.toNat → Loaded s.sym syms →
    (∀ bits, syms.length ≤ P.SYM_CAP → s.codeAll syms = some bits → bits.length ≤ P.PACK_CAP →
      ∃ t, exec .pack ⟨P, s⟩ = .next ⟨P, t⟩ ∧ EndedDone t) ∧
    ∀ t, exec .pack ⟨P, s⟩ = .next ⟨P, t⟩ → t.err = 0 →
      ∃ bits, s.codeAll syms = some bits ∧ Loaded t.pack bits ∧ t.packLen.toNat = bits.length ∧
        t.packLen.toNat = (syms.map fun x => ((s.code x).getD []).length).sum

/-- R167, R168: the first symbol without a valid codeword raises UnknownSymbol with its index, if the codewords before it fit;
this comes before any space test for it, and later symbols are not looked at. -/
def Obligations.PackUnknownSymbolAtTheFirstIndex : Prop :=
  ∀ (P : Params) (s : Block P) (before : List (Sym P)) (x : Sym P) (bits : List Bool), Ready s →
    before.length < s.symLen.toNat → s.symLen.toNat ≤ P.SYM_CAP → Loaded s.sym (before ++ [x]) →
    s.codeAll before = some bits → bits.length ≤ P.PACK_CAP →
    (∃ e, Cells.read s.cb x.toNat = some e ∧ e.valid = false) →
    ∃ t, exec .pack ⟨P, s⟩ = .next ⟨P, t⟩ ∧ Faulted t .unknownSymbol before.length

/-- R166, R168, R221 (b): the first symbol whose codeword no longer fits raises Capacity. -/
def Obligations.PackOutputAboveCapacity : Prop :=
  ∀ (P : Params) (s : Block P) (before : List (Sym P)) (x : Sym P) (bits w : List Bool), Ready s →
    before.length < s.symLen.toNat → s.symLen.toNat ≤ P.SYM_CAP → Loaded s.sym (before ++ [x]) →
    s.codeAll before = some bits → bits.length ≤ P.PACK_CAP → s.code x = some w →
    P.PACK_CAP < bits.length + w.length →
    ∃ t, exec .pack ⟨P, s⟩ = .next ⟨P, t⟩ ∧ Faulted t .capacity 0

/-- R176 to R178: with a well-formed codebook, UNPK cuts a concatenation of codewords into its symbols, and where bits are left
over that start with no codeword it raises IncompleteCodeword with the index where they start. -/
def Obligations.UnpkCutsTheBitstring : Prop :=
  ∀ (P : Params) (s : Block P) (syms : List (Sym P)) (bits tail : List Bool), Ready s → Written s.cb P.N_SYM →
    Codebook.WellFormed s → s.codeAll syms = some bits → NoCodewordStarts s tail →
    (bits ++ tail).length = s.packLen.toNat → s.packLen.toNat ≤ P.PACK_CAP → Loaded s.pack (bits ++ tail) →
    (tail = [] →
      ∃ t, exec .unpk ⟨P, s⟩ = .next ⟨P, t⟩ ∧ EndedDone t ∧ t.symLen.toNat = syms.length ∧ Loaded t.sym syms) ∧
    (tail ≠ [] → ∃ t, exec .unpk ⟨P, s⟩ = .next ⟨P, t⟩ ∧ Faulted t .incompleteCodeword bits.length)

/-- R157, "with (b) violated but (a) and (c) holding": with an injective codebook that need not be prefix-free, UNPK emits the
symbol of the shortest codeword as soon as it matches. -/
def Obligations.UnpkEmitsTheShortestMatch : Prop :=
  ∀ (P : Params) (s : Block P) (syms : List (Sym P)) (bits : List Bool), Ready s → Written s.cb P.N_SYM →
    Codebook.Injective s → Codebook.NoEmpty s → s.codeAll syms = some bits →
    (∀ x ∈ syms, ∀ w v, s.code x = some w → v <+: w → v ≠ [] → v ≠ w → ∀ y, s.code y ≠ some v) →
    bits.length = s.packLen.toNat → bits.length ≤ P.PACK_CAP → Loaded s.pack bits →
    ∃ t, exec .unpk ⟨P, s⟩ = .next ⟨P, t⟩ ∧ EndedDone t ∧ t.symLen.toNat = syms.length ∧ Loaded t.sym syms

/-- R156, R157 (a), U5: `match` answers none exactly when no valid element has the codeword; otherwise it answers a symbol
whose valid element has exactly that codeword, whatever the free pick among several (log 7). -/
def Obligations.MatchAnswersAMatchingSymbol : Prop :=
  ∀ (P : Params) (es : List (CbElem P)) (t j : Nat) (buf : List Bool), es.length = P.N_SYM →
    ∃ r, matchCode (es.map some) t j buf = .ok r ∧
      (r = none ↔ ∀ e ∈ es, ¬ (e.valid = true ∧ codeword e = buf)) ∧
      ∀ x, r = some x → ∃ e, es[x.toNat]? = some e ∧ e.valid = true ∧ codeword e = buf

/-- R180: UNPK inverts PACK under a codebook that meets R157: on the bitstring and the codebook of a PACK that ended without a
fault, in whatever other state, it gives the symbols back. -/
def Obligations.UnpkInvertsPack : Prop :=
  ∀ (P : Params) (s t : Block P) (syms : List (Sym P)), Ready s → Written s.cb P.N_SYM → Codebook.WellFormed s →
    syms.length = s.symLen.toNat → Loaded s.sym syms → exec .pack ⟨P, s⟩ = .next ⟨P, t⟩ → t.err = 0 →
    ∀ v : Block P, Ready v → v.packLen = t.packLen → SameBelow t.packLen.toNat v.pack t.pack → SameReads v.cb s.cb →
      ∃ u, exec .unpk ⟨P, v⟩ = .next ⟨P, u⟩ ∧ EndedDone u ∧ u.symLen = s.symLen ∧ Loaded u.sym syms

/-! ## Whole-machine rules -/

/-- R20, R9: the parameters are fixed when the block is built: no step changes them, whatever the host's move. (That they stand
in State is the model's, log 1.) -/
def Obligations.ParametersNeverChange : Prop := ∀ s t : State, step s = .next t → t.params = s.params

/-- R68: no command reads an element at or beyond its length register: other contents there change nothing but themselves. -/
def Obligations.NoCommandReadsBeyondALength : Prop :=
  ∀ (P : Params) (s s' : Block P), Inv s → Inv s' →
    (s' = { s with bitIn := s'.bitIn } → (∀ k, k < s.bitInLen.toNat → Cells.read s'.bitIn k = Cells.read s.bitIn k) →
      mapNext (fun t => t.onBlock ({ · with bitIn := [] })) (exec .rle ⟨P, s'⟩) =
        mapNext (fun t => t.onBlock ({ · with bitIn := [] })) (exec .rle ⟨P, s⟩)) ∧
    (s' = { s with sym := s'.sym } → (∀ k, k < s.symLen.toNat → Cells.read s'.sym k = Cells.read s.sym k) →
      ∀ i, i = .rld ∨ i = .fcnt ∨ i = .pack →
        mapNext (fun t => t.onBlock ({ · with sym := [] })) (exec i ⟨P, s'⟩) =
          mapNext (fun t => t.onBlock ({ · with sym := [] })) (exec i ⟨P, s⟩)) ∧
    (s' = { s with pack := s'.pack } → (∀ k, k < s.packLen.toNat → Cells.read s'.pack k = Cells.read s.pack k) →
      mapNext (fun t => t.onBlock ({ · with pack := [] })) (exec .unpk ⟨P, s'⟩) =
        mapNext (fun t => t.onBlock ({ · with pack := [] })) (exec .unpk ⟨P, s⟩))

/-- R40, R39: no command reads the internal state an earlier one left: with any TREE, queue and working registers, a command
ends the same way, up to the internal state. -/
def Obligations.InternalStateIsNeverReadAcrossCommands : Prop :=
  ∀ (P : Params) (i : Instr) (s : Block P) (w : Work) (h : Htb P),
    mapNext State.visible (exec i ⟨P, { s with work := w, htb := h }⟩) = mapNext State.visible (exec i ⟨P, s⟩)

/-- The invariant holds after reset, whatever the parameters. -/
def Obligations.ResetSatisfiesTheInvariant : Prop := ∀ P : Params, Inv (Block.reset P)

/-- Every step, whatever the host's move, keeps the invariant: canonical memory, BUSY = 0 between steps, STATUS[3:2] = 0, ERR
at most 8, never DONE with ERR, ERRINFO = 0 with no fault (R23, R24, R207, R215). -/
def Obligations.StepKeepsTheInvariant : Prop :=
  ∀ s t : State, Inv s.block → step s = .next t → Inv t.block

/-- R190, R167: after FCNT and BUILD on the same symbols, PACK never raises UnknownSymbol. -/
def Obligations.CountedCodebookKnowsEverySymbol : Prop :=
  ∀ (P : Params) (s : Block P) (syms : List (Sym P)), Ready s → syms.length = s.symLen.toNat →
    syms.length ≤ P.SYM_CAP → syms ≠ [] → Loaded s.sym syms →
    ∃ t, execAll [.fcnt, .build, .pack] ⟨P, s⟩ = .next ⟨P, t⟩ ∧ (EndedDone t ∨ Faulted t .capacity 0)

/-- R195: ENCODE of an input that yields no symbol (it is empty, or fewer than MAXLEN zeros and no one with MAXLEN at least 3)
ends in EmptyTable, with no key in FREQ. ENCODE_CB with any codebook ends without a fault with PACK_LEN = 0, and DECODE of
that, with FILESIZE within the capacity, gives FILESIZE zeros. -/
def Obligations.EncodeOfNoSymbol : Prop :=
  ∀ (P : Params) (s : Block P) (n : Nat), Ready s → n = 0 ∨ 3 ≤ s.maxlen.toNat ∧ n < s.maxlen.toNat → n = s.bitInLen.toNat →
    Loaded s.bitIn (List.replicate n false) →
    (∃ t, execAll encodeCommands ⟨P, s⟩ = .next ⟨P, t⟩ ∧ Faulted t .emptyTable 0 ∧ ∀ x, ¬ t.isKey x) ∧
    ∃ t, execAll encodeCbCommands ⟨P, s⟩ = .next ⟨P, t⟩ ∧ EndedDone t ∧ t.packLen = 0 ∧
      ∀ v : Block P, Ready v → v.packLen = t.packLen → v.filesize.toNat ≤ P.BIT_CAP →
        ∃ u, execAll decodeCommands ⟨P, v⟩ = .next ⟨P, u⟩ ∧ EndedDone u ∧ u.bitOutLen = v.filesize ∧
          Loaded u.bitOut (List.replicate v.filesize.toNat false)

/-- R197: the codec round trip. If ENCODE, or ENCODE_CB with a codebook that meets R157, ends without a fault on an input B with
MAXLEN at least 3, then DECODE with the resulting bitstring and codebook, the same MAXLEN and FILESIZE the length of B, in
whatever other state, ends without a fault with BIT_OUT = B. -/
def Obligations.CodecRoundTrip : Prop :=
  ∀ (P : Params) (s t v : Block P) (bits : List Bool) (encoding : List Instr), Ready s → bits.length = s.bitInLen.toNat →
    bits.length ≤ P.BIT_CAP → Loaded s.bitIn bits → 3 ≤ s.maxlen.toNat →
    (encoding = encodeCommands ∨ encoding = encodeCbCommands ∧ Written s.cb P.N_SYM ∧ Codebook.WellFormed s) →
    execAll encoding ⟨P, s⟩ = .next ⟨P, t⟩ → t.err = 0 →
    Ready v → v.packLen = t.packLen → SameBelow t.packLen.toNat v.pack t.pack → SameReads v.cb t.cb →
    v.maxlen = s.maxlen → v.filesize.toNat = bits.length →
    ∃ u, execAll decodeCommands ⟨P, v⟩ = .next ⟨P, u⟩ ∧ EndedDone u ∧ u.bitOutLen.toNat = bits.length ∧ Loaded u.bitOut bits
end

