-- ==== Sys2Proof/Laws/Cells.lean ====
section
/-! SUPPORT. The laws of the element spaces: read after write, what a stored sequence reads as, what a window
reads, and that every memory operation keeps the canonical form (log 3). -/

namespace Sys2Proof.Machine

variable {P : Params} {α β : Type}

theorem read_nil (i : Nat) : Cells.read ([] : Cells α) i = none := rfl

theorem read_cons (k : Nat) (x : α) (r : Cells α) (i : Nat) :
    Cells.read ((k, x) :: r) i = if k = i then some x else Cells.read r i := rfl

/-- Read after write (R61): the written element has the new value and every other element its old one. -/
theorem read_write (c : Cells α) (i j : Nat) (v : α) :
    Cells.read (Cells.write c i v) j = if i = j then some v else Cells.read c j := by
  induction c with
  | nil => simp [Cells.write, Cells.read]
  | cons e r ih =>
    obtain ⟨k, x⟩ := e
    simp only [Cells.write]
    split
    · simp [Cells.read]
    · split
      · subst i; simp only [Cells.read]; split <;> simp_all
      · simp only [Cells.read, ih]; grind

theorem read_write_same (c : Cells α) (i : Nat) (v : α) :
    Cells.read (Cells.write c i v) i = some v := by simp [read_write]

theorem read_write_other (c : Cells α) {i j : Nat} (v : α) (h : i ≠ j) :
    Cells.read (Cells.write c i v) j = Cells.read c j := by simp [read_write, h]

/-- A list with strictly rising indices from `lo` reads as nothing below `lo`. -/
theorem read_lt_of_wfFrom {cap lo : Nat} {c : Cells α} (h : Cells.wfFrom cap lo c = true) {i : Nat}
    (hi : i < lo) : Cells.read c i = none := by
  induction c generalizing lo with
  | nil => rfl
  | cons e r ih =>
    obtain ⟨k, x⟩ := e
    simp only [Cells.wfFrom, Bool.and_eq_true, decide_eq_true_eq] at h
    rw [read_cons, if_neg (by omega)]
    exact ih h.2 (by omega)

/-- A canonical space has no element at or beyond its capacity. -/
theorem lt_cap_of_read {cap lo : Nat} {c : Cells α} (h : Cells.wfFrom cap lo c = true) {i : Nat} {v : α}
    (hv : Cells.read c i = some v) : i < cap := by
  induction c generalizing lo with
  | nil => simp [Cells.read] at hv
  | cons e r ih =>
    obtain ⟨k, x⟩ := e
    simp only [Cells.wfFrom, Bool.and_eq_true, decide_eq_true_eq] at h
    rw [read_cons] at hv
    split at hv
    · omega
    · exact ih h.2 hv

theorem wfFrom_mono {cap lo lo' : Nat} {c : Cells α} (h : Cells.wfFrom cap lo c = true)
    (hlo : lo' ≤ lo) : Cells.wfFrom cap lo' c = true := by
  cases c with
  | nil => rfl
  | cons e r =>
    obtain ⟨k, x⟩ := e
    simp only [Cells.wfFrom, Bool.and_eq_true, decide_eq_true_eq] at h ⊢
    exact ⟨⟨by omega, h.1.2⟩, h.2⟩

theorem wfFrom_write {cap lo : Nat} {c : Cells α} {i : Nat} (v : α)
    (h : Cells.wfFrom cap lo c = true) (hlo : lo ≤ i) (hi : i < cap) :
    Cells.wfFrom cap lo (Cells.write c i v) = true := by
  induction c generalizing lo with
  | nil => simp [Cells.write, Cells.wfFrom, hlo, hi]
  | cons e r ih =>
    obtain ⟨k, x⟩ := e
    simp only [Cells.wfFrom, Bool.and_eq_true, decide_eq_true_eq] at h
    simp only [Cells.write]
    split
    · simp only [Cells.wfFrom, Bool.and_eq_true, decide_eq_true_eq]
      exact ⟨⟨hlo, hi⟩, ⟨by omega, h.1.2⟩, h.2⟩
    · split
      · subst i; simp only [Cells.wfFrom, Bool.and_eq_true, decide_eq_true_eq]; exact ⟨⟨hlo, hi⟩, h.2⟩
      · simp only [Cells.wfFrom, Bool.and_eq_true, decide_eq_true_eq]
        exact ⟨h.1, ih h.2 (by omega)⟩

/-- A write below the capacity keeps the canonical form. -/
theorem wf_write {cap : Nat} {c : Cells α} {i : Nat} (v : α) (h : Cells.wf cap c = true) (hi : i < cap) :
    Cells.wf cap (Cells.write c i v) = true := wfFrom_write v h (Nat.zero_le i) hi

theorem wfFrom_ofSeq (xs : List α) (f : Nat → α) {cap i n : Nat} (h : i + n ≤ cap) :
    Cells.wfFrom cap i (Cells.ofSeq xs f i n) = true := by
  induction n generalizing i xs with
  | zero => simp [Cells.ofSeq, Cells.wfFrom]
  | succ n ih =>
    cases xs <;> simp only [Cells.ofSeq, Cells.wfFrom, Bool.and_eq_true, decide_eq_true_eq] <;>
      exact ⟨⟨le_rfl, by omega⟩, ih _ (by omega)⟩

/-- A stored sequence is in canonical form. -/
theorem wf_ofSeq (xs : List α) (f : Nat → α) (cap : Nat) :
    Cells.wf cap (Cells.ofSeq xs f 0 cap) = true := wfFrom_ofSeq xs f (by omega)

theorem read_ofSeq_from (xs : List α) (f : Nat → α) (i n j : Nat) :
    Cells.read (Cells.ofSeq xs f i n) (i + j) =
      if j < n then some (xs[j]?.getD (f (i + j))) else none := by
  induction n generalizing i xs j with
  | zero => simp [Cells.ofSeq, Cells.read]
  | succ n ih =>
    cases xs with
    | nil =>
      cases j with
      | zero => simp [Cells.ofSeq, Cells.read]
      | succ j =>
        have := ih [] (i + 1) j
        rw [show i + 1 + j = i + (j + 1) by omega] at this
        simp [Cells.ofSeq, Cells.read, this]
    | cons x xs =>
      cases j with
      | zero => simp [Cells.ofSeq, Cells.read]
      | succ j =>
        have := ih xs (i + 1) j
        rw [show i + 1 + j = i + (j + 1) by omega] at this
        simp [Cells.ofSeq, Cells.read, this]

/-- What `SPACE <- xs` leaves (R15): the elements of `xs`, then the free ones, up to the capacity. -/
theorem read_ofSeq (xs : List α) (f : Nat → α) (n j : Nat) :
    Cells.read (Cells.ofSeq xs f 0 n) j = if j < n then some (xs[j]?.getD (f j)) else none := by
  simpa using read_ofSeq_from xs f 0 n j

theorem length_window (c : Cells α) (i n : Nat) : (Cells.window c i n).length = n := by
  induction n generalizing c i with
  | zero => rfl
  | succ n ih =>
    simp only [Cells.window]
    split
    · simp [ih]
    · split <;> simp [ih]

theorem read_dropWhile {cap lo : Nat} {c : Cells α} (i : Nat) (h : Cells.wfFrom cap lo c = true) {j : Nat}
    (hj : i ≤ j) : Cells.read (c.dropWhile (fun e => decide (e.1 < i))) j = Cells.read c j := by
  induction c generalizing lo with
  | nil => rfl
  | cons e r ih =>
    obtain ⟨k, x⟩ := e
    simp only [Cells.wfFrom, Bool.and_eq_true, decide_eq_true_eq] at h
    by_cases hk : k < i
    · rw [List.dropWhile_cons_of_pos (by simpa using hk), ih h.2, read_cons, if_neg (by omega)]
    · rw [List.dropWhile_cons_of_neg (by simpa using hk)]

theorem wfFrom_dropWhile {cap lo : Nat} {c : Cells α} (i : Nat) (h : Cells.wfFrom cap lo c = true) :
    Cells.wfFrom cap i (c.dropWhile (fun e => decide (e.1 < i))) = true := by
  induction c generalizing lo with
  | nil => rfl
  | cons e r ih =>
    obtain ⟨k, x⟩ := e
    simp only [Cells.wfFrom, Bool.and_eq_true, decide_eq_true_eq] at h
    by_cases hk : k < i
    · rw [List.dropWhile_cons_of_pos (by simpa using hk)]; exact ih h.2
    · rw [List.dropWhile_cons_of_neg (by simpa using hk)]
      simp only [Cells.wfFrom, Bool.and_eq_true, decide_eq_true_eq]
      exact ⟨⟨by omega, h.1.2⟩, h.2⟩

theorem window_eq_map_from {cap lo : Nat} {c : Cells α} (h : Cells.wfFrom cap lo c = true) (i n : Nat) :
    Cells.window c i n = (List.range' i n).map (Cells.read c) := by
  induction n generalizing c i lo with
  | zero => rfl
  | succ n ih =>
    have hd := wfFrom_dropWhile i h
    have hr : ∀ j, i ≤ j → Cells.read (c.dropWhile (fun e => decide (e.1 < i))) j = Cells.read c j :=
      fun j hj => read_dropWhile i h hj
    simp only [Cells.window, List.range'_succ, List.map_cons]
    split
    · rename_i heq
      rw [heq] at hr
      rw [ih (lo := 0) (by rfl), ← hr i le_rfl]
      refine congrArg _ (List.map_congr_left fun j hj => ?_)
      exact hr j (by have := List.mem_range'_1.1 hj; omega)
    · rename_i k v r heq
      rw [heq] at hr hd
      have hd' := hd
      simp only [Cells.wfFrom, Bool.and_eq_true, decide_eq_true_eq] at hd'
      split
      · subst k
        rw [ih hd'.2, ← hr i le_rfl, read_cons, if_pos rfl]
        refine congrArg _ (List.map_congr_left fun j hj => ?_)
        have hj' := List.mem_range'_1.1 hj
        rw [← hr j (by omega), read_cons, if_neg (by omega)]
      · rename_i hne
        rw [ih hd, ← hr i le_rfl, read_cons, if_neg hne, read_lt_of_wfFrom hd'.2 (by omega)]
        refine congrArg _ (List.map_congr_left fun j hj => ?_)
        exact hr j (by have := List.mem_range'_1.1 hj; omega)

/-- In a canonical space, a window is the element reads one after another (R63). -/
theorem window_eq_map {cap : Nat} {c : Cells α} (h : Cells.wf cap c = true) (i n : Nat) :
    Cells.window c i n = (List.range' i n).map (Cells.read c) := window_eq_map_from h i n

/-- The window of a space that holds `xs` from index 0 is `xs`. -/
theorem window_of_loaded {cap : Nat} {c : Cells α} (h : Cells.wf cap c = true) {xs : List α}
    (hx : ∀ k, k < xs.length → Cells.read c k = xs[k]?) :
    Cells.window c 0 xs.length = xs.map some := by
  rw [window_eq_map h]
  apply List.ext_getElem
  · simp
  · intro k h1 h2
    simp only [List.length_map, List.length_range'] at h1
    simp [hx k h1, List.getElem?_eq_getElem h1]

theorem readAll_map_some (i : Nat) (xs : List α) : readAll i (xs.map some) = .ok xs := by
  induction xs generalizing i with
  | nil => rfl
  | cons x xs ih => simp [readAll, ih]

/-- `readAll` succeeds exactly on a list of present elements, and answers them. -/
theorem readAll_eq_ok {i : Nat} {os : List (Option α)} {xs : List α} :
    readAll i os = .ok xs ↔ os = xs.map some := by
  refine ⟨fun h => ?_, fun h => h ▸ readAll_map_some i xs⟩
  induction os generalizing i xs with
  | nil => simp only [readAll, Except.ok.injEq] at h; subst h; rfl
  | cons o os ih =>
    cases o with
    | none => simp [readAll] at h
    | some a =>
      simp only [readAll] at h
      split at h
      · rename_i l heq
        simp only [Except.ok.injEq] at h
        subst h
        rw [ih heq]; rfl
      · simp at h

/-- `readAll` stops at the first absent element. -/
theorem readAll_eq_error {i k : Nat} {os : List (Option α)} (h : readAll i os = .error k) :
    ∃ xs : List α, k = i + xs.length ∧ os.take (xs.length + 1) = xs.map some ++ [none] := by
  induction os generalizing i with
  | nil => simp [readAll] at h
  | cons o os ih =>
    cases o with
    | none =>
      simp only [readAll, Except.error.injEq] at h
      exact ⟨[], by simp [h], by simp⟩
    | some a =>
      simp only [readAll] at h
      split at h
      · simp at h
      · rename_i k' heq
        simp only [Except.error.injEq] at h
        subst h
        obtain ⟨xs, h1, h2⟩ := ih heq
        exact ⟨a :: xs, by simp [h1]; omega, by simp [h2]⟩

/-- The memory invariant, space by space. -/
theorem memory_wf_iff (s : Block P) :
    Memory.wf s = true ↔
      Cells.wf P.BIT_CAP s.bitIn = true ∧ Cells.wf P.SYM_CAP s.sym = true ∧
      Cells.wf P.N_SYM s.freq = true ∧ Cells.wf P.N_SYM s.cb = true ∧
      Cells.wf P.PACK_CAP s.pack = true ∧ Cells.wf P.BIT_CAP s.bitOut = true ∧
      Cells.wf (P.N_SYM - 1) s.htb.tree = true := by
  simp only [Memory.wf, Bool.and_eq_true, and_assoc]

theorem wf_nil (cap : Nat) : Cells.wf cap ([] : Cells α) = true := rfl

end Sys2Proof.Machine
end

