-- ==== Sys2Proof/Laws/Flags.lean ====
section
/-! SUPPORT. The fields of STATUS (R23) after each of the status updates. -/

namespace Sys2Proof.Machine

@[simp] theorem statusBusy_statusWord (b d : Bool) (e : BitVec 4) :
    statusBusy (statusWord b d e) = b := by revert b d e; decide

@[simp] theorem statusDone_statusWord (b d : Bool) (e : BitVec 4) :
    statusDone (statusWord b d e) = d := by revert b d e; decide

@[simp] theorem statusReserved_statusWord (b d : Bool) (e : BitVec 4) :
    statusReserved (statusWord b d e) = 0 := by revert b d e; decide

@[simp] theorem statusErr_statusWord (b d : Bool) (e : BitVec 4) :
    statusErr (statusWord b d e) = e := by revert b d e; decide

/-- A STATUS word is its fields (R23), where the reserved ones are 0. -/
theorem statusWord_eta {w : StatusWord} (h : statusReserved w = 0) :
    w = statusWord (statusBusy w) (statusDone w) (statusErr w) := by
  revert w; decide +kernel

theorem code_ne_zero (f : FaultKind) : f.code ≠ 0 := by cases f <;> decide

theorem code_le (f : FaultKind) : f.code.toNat ≤ 8 := by cases f <;> decide

/-- The codes tell the fault kinds apart (R215). -/
theorem code_injective {f g : FaultKind} (h : f.code = g.code) : f = g := by
  revert h; cases f <;> cases g <;> decide

end Sys2Proof.Machine
end

