-- ==== Sys2Proof/Laws/Params.lean ====
section
/-! SUPPORT. What the constraints of R9 give: no value of the rules is too wide for the register that takes it. -/

namespace Sys2Proof

namespace Params

variable (P : Params)

/-- A symbol takes at least the values 0 to 3, so what RLE emits with a small MAXLEN fits (R108, R109). -/
theorem four_le_N_SYM : 4 ≤ P.N_SYM :=
  (show 2 ^ 2 ≤ 2 ^ P.W_SYM from Nat.pow_le_pow_right (by decide) P.two_le_W_SYM)

theorem lt_N_SYM_of_le_L_MAX {n : Nat} (h : n ≤ P.L_MAX) : n < P.N_SYM := by
  have := P.four_le_N_SYM
  simp only [L_MAX, N_SYM] at *
  omega

/-- Every index and length of BIT_IN and BIT_OUT fits in W_IDX bits. -/
theorem BIT_CAP_lt_W_IDX : P.BIT_CAP < 2 ^ P.W_IDX := lt_of_le_of_lt (le_max_left _ _) P.caps_lt_W_IDX

/-- Every index and length of SYM fits in W_IDX bits. -/
theorem SYM_CAP_lt_W_IDX : P.SYM_CAP < 2 ^ P.W_IDX :=
  lt_of_le_of_lt ((le_max_left _ _).trans (le_max_right _ _)) P.caps_lt_W_IDX

/-- Every index and length of PACK fits in W_IDX bits. -/
theorem PACK_CAP_lt_W_IDX : P.PACK_CAP < 2 ^ P.W_IDX :=
  lt_of_le_of_lt ((le_max_right _ _).trans (le_max_right _ _)) P.caps_lt_W_IDX

/-- A count of SYM's symbols fits in a weight (U17). -/
theorem SYM_CAP_lt_W_WT : P.SYM_CAP < 2 ^ P.W_WT := by
  have := P.SYM_CAP_le_W_WT
  have : 0 < 2 ^ P.W_WT := Nat.two_pow_pos _
  omega

/-- A command word fits in ERRINFO. -/
theorem word_le_W_IDX : 2 ^ 8 ≤ 2 ^ P.W_IDX := Nat.pow_le_pow_right (by decide) P.eight_le_W_IDX

end Params

end Sys2Proof
end

