-- ==== Sys2Proof/Laws/State.lean ====
section
/-! SUPPORT. The fields of the state after each named update: one lemma per field per update, true by rfl. -/

namespace Sys2Proof.Machine

open Config

variable {P : Params}

section -- the machine and its block
variable (s : State) (b : Block P) (f : Block s.params → Block s.params) (g : Block P → Block P)
@[simp] theorem State.onBlock_params : (s.onBlock f).params = s.params := rfl
@[simp] theorem State.onBlock_block : (s.onBlock f).block = f s.block := rfl
@[simp] theorem State.onBlock_mk : State.onBlock ⟨P, b⟩ g = ⟨P, g b⟩ := rfl
end

section -- accepting a command (R205)
variable (s : Block P)
@[simp] theorem Block.accept_status : s.accept.status = statusWord true false (statusErr s.status) := rfl
@[simp] theorem Block.accept_errinfo : s.accept.errinfo = s.errinfo := rfl
@[simp] theorem Block.accept_maxlen : s.accept.maxlen = s.maxlen := rfl
@[simp] theorem Block.accept_filesize : s.accept.filesize = s.filesize := rfl
@[simp] theorem Block.accept_bitInLen : s.accept.bitInLen = s.bitInLen := rfl
@[simp] theorem Block.accept_symLen : s.accept.symLen = s.symLen := rfl
@[simp] theorem Block.accept_packLen : s.accept.packLen = s.packLen := rfl
@[simp] theorem Block.accept_bitOutLen : s.accept.bitOutLen = s.bitOutLen := rfl
@[simp] theorem Block.accept_bitIn : s.accept.bitIn = s.bitIn := rfl
@[simp] theorem Block.accept_sym : s.accept.sym = s.sym := rfl
@[simp] theorem Block.accept_freq : s.accept.freq = s.freq := rfl
@[simp] theorem Block.accept_cb : s.accept.cb = s.cb := rfl
@[simp] theorem Block.accept_pack : s.accept.pack = s.pack := rfl
@[simp] theorem Block.accept_bitOut : s.accept.bitOut = s.bitOut := rfl
@[simp] theorem Block.accept_htb : s.accept.htb = s.htb := rfl
@[simp] theorem Block.accept_work : s.accept.work = s.work := rfl
@[simp] theorem Block.accept_free : s.accept.free = s.free := rfl
@[simp] theorem Block.accept_epoch : s.accept.epoch = s.epoch := rfl
@[simp] theorem Block.accept_moves : s.accept.moves = s.moves := rfl
@[simp] theorem Block.accept_hostData : s.accept.hostData = s.hostData := rfl
end

section -- the end of a command without a fault (R208)
variable (s : Block P)
@[simp] theorem Block.complete_status : s.complete.status = statusWord false true (statusErr s.status) := rfl
@[simp] theorem Block.complete_errinfo : s.complete.errinfo = s.errinfo := rfl
@[simp] theorem Block.complete_maxlen : s.complete.maxlen = s.maxlen := rfl
@[simp] theorem Block.complete_filesize : s.complete.filesize = s.filesize := rfl
@[simp] theorem Block.complete_bitInLen : s.complete.bitInLen = s.bitInLen := rfl
@[simp] theorem Block.complete_symLen : s.complete.symLen = s.symLen := rfl
@[simp] theorem Block.complete_packLen : s.complete.packLen = s.packLen := rfl
@[simp] theorem Block.complete_bitOutLen : s.complete.bitOutLen = s.bitOutLen := rfl
@[simp] theorem Block.complete_bitIn : s.complete.bitIn = s.bitIn := rfl
@[simp] theorem Block.complete_sym : s.complete.sym = s.sym := rfl
@[simp] theorem Block.complete_freq : s.complete.freq = s.freq := rfl
@[simp] theorem Block.complete_cb : s.complete.cb = s.cb := rfl
@[simp] theorem Block.complete_pack : s.complete.pack = s.pack := rfl
@[simp] theorem Block.complete_bitOut : s.complete.bitOut = s.bitOut := rfl
@[simp] theorem Block.complete_htb : s.complete.htb = s.htb := rfl
@[simp] theorem Block.complete_work : s.complete.work = s.work := rfl
@[simp] theorem Block.complete_free : s.complete.free = s.free := rfl
@[simp] theorem Block.complete_epoch : s.complete.epoch = s.epoch := rfl
@[simp] theorem Block.complete_moves : s.complete.moves = s.moves := rfl
@[simp] theorem Block.complete_hostData : s.complete.hostData = s.hostData := rfl
end

section -- the registers of fault entry (R224)
variable (f : FaultKind) (n : Nat) (s : Block P)
@[simp] theorem Block.latch_status : (s.latch f n).status = statusWord false false f.code := rfl
@[simp] theorem Block.latch_errinfo : (s.latch f n).errinfo = BitVec.ofNat _ n := rfl
@[simp] theorem Block.latch_maxlen : (s.latch f n).maxlen = s.maxlen := rfl
@[simp] theorem Block.latch_filesize : (s.latch f n).filesize = s.filesize := rfl
@[simp] theorem Block.latch_bitInLen : (s.latch f n).bitInLen = s.bitInLen := rfl
@[simp] theorem Block.latch_symLen : (s.latch f n).symLen = s.symLen := rfl
@[simp] theorem Block.latch_packLen : (s.latch f n).packLen = s.packLen := rfl
@[simp] theorem Block.latch_bitOutLen : (s.latch f n).bitOutLen = s.bitOutLen := rfl
@[simp] theorem Block.latch_bitIn : (s.latch f n).bitIn = s.bitIn := rfl
@[simp] theorem Block.latch_sym : (s.latch f n).sym = s.sym := rfl
@[simp] theorem Block.latch_freq : (s.latch f n).freq = s.freq := rfl
@[simp] theorem Block.latch_cb : (s.latch f n).cb = s.cb := rfl
@[simp] theorem Block.latch_pack : (s.latch f n).pack = s.pack := rfl
@[simp] theorem Block.latch_bitOut : (s.latch f n).bitOut = s.bitOut := rfl
@[simp] theorem Block.latch_htb : (s.latch f n).htb = s.htb := rfl
@[simp] theorem Block.latch_work : (s.latch f n).work = s.work := rfl
@[simp] theorem Block.latch_free : (s.latch f n).free = s.free := rfl
@[simp] theorem Block.latch_epoch : (s.latch f n).epoch = s.epoch := rfl
@[simp] theorem Block.latch_moves : (s.latch f n).moves = s.moves := rfl
@[simp] theorem Block.latch_hostData : (s.latch f n).hostData = s.hostData := rfl
end

section -- CLR (R209)
variable (s : Block P)
@[simp] theorem Block.clearFault_status : s.clearFault.status = statusWord s.busy false 0 := rfl
@[simp] theorem Block.clearFault_errinfo : s.clearFault.errinfo = 0 := rfl
@[simp] theorem Block.clearFault_maxlen : s.clearFault.maxlen = s.maxlen := rfl
@[simp] theorem Block.clearFault_filesize : s.clearFault.filesize = s.filesize := rfl
@[simp] theorem Block.clearFault_bitInLen : s.clearFault.bitInLen = s.bitInLen := rfl
@[simp] theorem Block.clearFault_symLen : s.clearFault.symLen = s.symLen := rfl
@[simp] theorem Block.clearFault_packLen : s.clearFault.packLen = s.packLen := rfl
@[simp] theorem Block.clearFault_bitOutLen : s.clearFault.bitOutLen = s.bitOutLen := rfl
@[simp] theorem Block.clearFault_bitIn : s.clearFault.bitIn = s.bitIn := rfl
@[simp] theorem Block.clearFault_sym : s.clearFault.sym = s.sym := rfl
@[simp] theorem Block.clearFault_freq : s.clearFault.freq = s.freq := rfl
@[simp] theorem Block.clearFault_cb : s.clearFault.cb = s.cb := rfl
@[simp] theorem Block.clearFault_pack : s.clearFault.pack = s.pack := rfl
@[simp] theorem Block.clearFault_bitOut : s.clearFault.bitOut = s.bitOut := rfl
@[simp] theorem Block.clearFault_htb : s.clearFault.htb = s.htb := rfl
@[simp] theorem Block.clearFault_work : s.clearFault.work = s.work := rfl
@[simp] theorem Block.clearFault_free : s.clearFault.free = s.free := rfl
@[simp] theorem Block.clearFault_epoch : s.clearFault.epoch = s.epoch := rfl
@[simp] theorem Block.clearFault_moves : s.clearFault.moves = s.moves := rfl
@[simp] theorem Block.clearFault_hostData : s.clearFault.hostData = s.hostData := rfl
end

section -- writing SYM and SYM_LEN
variable (xs : List (Sym P)) (n : Idx P) (s : Block P)
@[simp] theorem Block.setSym_status : (s.setSym xs n).status = s.status := rfl
@[simp] theorem Block.setSym_errinfo : (s.setSym xs n).errinfo = s.errinfo := rfl
@[simp] theorem Block.setSym_maxlen : (s.setSym xs n).maxlen = s.maxlen := rfl
@[simp] theorem Block.setSym_filesize : (s.setSym xs n).filesize = s.filesize := rfl
@[simp] theorem Block.setSym_bitInLen : (s.setSym xs n).bitInLen = s.bitInLen := rfl
@[simp] theorem Block.setSym_symLen : (s.setSym xs n).symLen = n := rfl
@[simp] theorem Block.setSym_packLen : (s.setSym xs n).packLen = s.packLen := rfl
@[simp] theorem Block.setSym_bitOutLen : (s.setSym xs n).bitOutLen = s.bitOutLen := rfl
@[simp] theorem Block.setSym_bitIn : (s.setSym xs n).bitIn = s.bitIn := rfl
@[simp] theorem Block.setSym_sym : (s.setSym xs n).sym = Cells.ofSeq xs (freeSym s.free) 0 P.SYM_CAP := rfl
@[simp] theorem Block.setSym_freq : (s.setSym xs n).freq = s.freq := rfl
@[simp] theorem Block.setSym_cb : (s.setSym xs n).cb = s.cb := rfl
@[simp] theorem Block.setSym_pack : (s.setSym xs n).pack = s.pack := rfl
@[simp] theorem Block.setSym_bitOut : (s.setSym xs n).bitOut = s.bitOut := rfl
@[simp] theorem Block.setSym_htb : (s.setSym xs n).htb = s.htb := rfl
@[simp] theorem Block.setSym_work : (s.setSym xs n).work = s.work := rfl
@[simp] theorem Block.setSym_free : (s.setSym xs n).free = s.free := rfl
@[simp] theorem Block.setSym_epoch : (s.setSym xs n).epoch = s.epoch := rfl
@[simp] theorem Block.setSym_moves : (s.setSym xs n).moves = s.moves := rfl
@[simp] theorem Block.setSym_hostData : (s.setSym xs n).hostData = s.hostData := rfl
end

section -- writing BIT_OUT and BIT_OUT_LEN
variable (xs : List Bool) (n : Idx P) (s : Block P)
@[simp] theorem Block.setBitOut_status : (s.setBitOut xs n).status = s.status := rfl
@[simp] theorem Block.setBitOut_errinfo : (s.setBitOut xs n).errinfo = s.errinfo := rfl
@[simp] theorem Block.setBitOut_maxlen : (s.setBitOut xs n).maxlen = s.maxlen := rfl
@[simp] theorem Block.setBitOut_filesize : (s.setBitOut xs n).filesize = s.filesize := rfl
@[simp] theorem Block.setBitOut_bitInLen : (s.setBitOut xs n).bitInLen = s.bitInLen := rfl
@[simp] theorem Block.setBitOut_symLen : (s.setBitOut xs n).symLen = s.symLen := rfl
@[simp] theorem Block.setBitOut_packLen : (s.setBitOut xs n).packLen = s.packLen := rfl
@[simp] theorem Block.setBitOut_bitOutLen : (s.setBitOut xs n).bitOutLen = n := rfl
@[simp] theorem Block.setBitOut_bitIn : (s.setBitOut xs n).bitIn = s.bitIn := rfl
@[simp] theorem Block.setBitOut_sym : (s.setBitOut xs n).sym = s.sym := rfl
@[simp] theorem Block.setBitOut_freq : (s.setBitOut xs n).freq = s.freq := rfl
@[simp] theorem Block.setBitOut_cb : (s.setBitOut xs n).cb = s.cb := rfl
@[simp] theorem Block.setBitOut_pack : (s.setBitOut xs n).pack = s.pack := rfl
@[simp] theorem Block.setBitOut_bitOut :
    (s.setBitOut xs n).bitOut = Cells.ofSeq xs (freeBit .bitOut s.free) 0 P.BIT_CAP := rfl
@[simp] theorem Block.setBitOut_htb : (s.setBitOut xs n).htb = s.htb := rfl
@[simp] theorem Block.setBitOut_work : (s.setBitOut xs n).work = s.work := rfl
@[simp] theorem Block.setBitOut_free : (s.setBitOut xs n).free = s.free := rfl
@[simp] theorem Block.setBitOut_epoch : (s.setBitOut xs n).epoch = s.epoch := rfl
@[simp] theorem Block.setBitOut_moves : (s.setBitOut xs n).moves = s.moves := rfl
@[simp] theorem Block.setBitOut_hostData : (s.setBitOut xs n).hostData = s.hostData := rfl
end

section -- writing PACK and PACK_LEN
variable (xs : List Bool) (n : Idx P) (s : Block P)
@[simp] theorem Block.setPack_status : (s.setPack xs n).status = s.status := rfl
@[simp] theorem Block.setPack_errinfo : (s.setPack xs n).errinfo = s.errinfo := rfl
@[simp] theorem Block.setPack_maxlen : (s.setPack xs n).maxlen = s.maxlen := rfl
@[simp] theorem Block.setPack_filesize : (s.setPack xs n).filesize = s.filesize := rfl
@[simp] theorem Block.setPack_bitInLen : (s.setPack xs n).bitInLen = s.bitInLen := rfl
@[simp] theorem Block.setPack_symLen : (s.setPack xs n).symLen = s.symLen := rfl
@[simp] theorem Block.setPack_packLen : (s.setPack xs n).packLen = n := rfl
@[simp] theorem Block.setPack_bitOutLen : (s.setPack xs n).bitOutLen = s.bitOutLen := rfl
@[simp] theorem Block.setPack_bitIn : (s.setPack xs n).bitIn = s.bitIn := rfl
@[simp] theorem Block.setPack_sym : (s.setPack xs n).sym = s.sym := rfl
@[simp] theorem Block.setPack_freq : (s.setPack xs n).freq = s.freq := rfl
@[simp] theorem Block.setPack_cb : (s.setPack xs n).cb = s.cb := rfl
@[simp] theorem Block.setPack_pack :
    (s.setPack xs n).pack = Cells.ofSeq xs (freeBit .pack s.free) 0 P.PACK_CAP := rfl
@[simp] theorem Block.setPack_bitOut : (s.setPack xs n).bitOut = s.bitOut := rfl
@[simp] theorem Block.setPack_htb : (s.setPack xs n).htb = s.htb := rfl
@[simp] theorem Block.setPack_work : (s.setPack xs n).work = s.work := rfl
@[simp] theorem Block.setPack_free : (s.setPack xs n).free = s.free := rfl
@[simp] theorem Block.setPack_epoch : (s.setPack xs n).epoch = s.epoch := rfl
@[simp] theorem Block.setPack_moves : (s.setPack xs n).moves = s.moves := rfl
@[simp] theorem Block.setPack_hostData : (s.setPack xs n).hostData = s.hostData := rfl
end

section -- writing FREQ
variable (c : Cells (FreqElem P)) (s : Block P)
@[simp] theorem Block.setFreq_status : (s.setFreq c).status = s.status := rfl
@[simp] theorem Block.setFreq_errinfo : (s.setFreq c).errinfo = s.errinfo := rfl
@[simp] theorem Block.setFreq_maxlen : (s.setFreq c).maxlen = s.maxlen := rfl
@[simp] theorem Block.setFreq_filesize : (s.setFreq c).filesize = s.filesize := rfl
@[simp] theorem Block.setFreq_bitInLen : (s.setFreq c).bitInLen = s.bitInLen := rfl
@[simp] theorem Block.setFreq_symLen : (s.setFreq c).symLen = s.symLen := rfl
@[simp] theorem Block.setFreq_packLen : (s.setFreq c).packLen = s.packLen := rfl
@[simp] theorem Block.setFreq_bitOutLen : (s.setFreq c).bitOutLen = s.bitOutLen := rfl
@[simp] theorem Block.setFreq_bitIn : (s.setFreq c).bitIn = s.bitIn := rfl
@[simp] theorem Block.setFreq_sym : (s.setFreq c).sym = s.sym := rfl
@[simp] theorem Block.setFreq_freq : (s.setFreq c).freq = c := rfl
@[simp] theorem Block.setFreq_cb : (s.setFreq c).cb = s.cb := rfl
@[simp] theorem Block.setFreq_pack : (s.setFreq c).pack = s.pack := rfl
@[simp] theorem Block.setFreq_bitOut : (s.setFreq c).bitOut = s.bitOut := rfl
@[simp] theorem Block.setFreq_htb : (s.setFreq c).htb = s.htb := rfl
@[simp] theorem Block.setFreq_work : (s.setFreq c).work = s.work := rfl
@[simp] theorem Block.setFreq_free : (s.setFreq c).free = s.free := rfl
@[simp] theorem Block.setFreq_epoch : (s.setFreq c).epoch = s.epoch := rfl
@[simp] theorem Block.setFreq_moves : (s.setFreq c).moves = s.moves := rfl
@[simp] theorem Block.setFreq_hostData : (s.setFreq c).hostData = s.hostData := rfl
end

section -- writing CB
variable (c : Cells (CbElem P)) (s : Block P)
@[simp] theorem Block.setCb_status : (s.setCb c).status = s.status := rfl
@[simp] theorem Block.setCb_errinfo : (s.setCb c).errinfo = s.errinfo := rfl
@[simp] theorem Block.setCb_maxlen : (s.setCb c).maxlen = s.maxlen := rfl
@[simp] theorem Block.setCb_filesize : (s.setCb c).filesize = s.filesize := rfl
@[simp] theorem Block.setCb_bitInLen : (s.setCb c).bitInLen = s.bitInLen := rfl
@[simp] theorem Block.setCb_symLen : (s.setCb c).symLen = s.symLen := rfl
@[simp] theorem Block.setCb_packLen : (s.setCb c).packLen = s.packLen := rfl
@[simp] theorem Block.setCb_bitOutLen : (s.setCb c).bitOutLen = s.bitOutLen := rfl
@[simp] theorem Block.setCb_bitIn : (s.setCb c).bitIn = s.bitIn := rfl
@[simp] theorem Block.setCb_sym : (s.setCb c).sym = s.sym := rfl
@[simp] theorem Block.setCb_freq : (s.setCb c).freq = s.freq := rfl
@[simp] theorem Block.setCb_cb : (s.setCb c).cb = c := rfl
@[simp] theorem Block.setCb_pack : (s.setCb c).pack = s.pack := rfl
@[simp] theorem Block.setCb_bitOut : (s.setCb c).bitOut = s.bitOut := rfl
@[simp] theorem Block.setCb_htb : (s.setCb c).htb = s.htb := rfl
@[simp] theorem Block.setCb_work : (s.setCb c).work = s.work := rfl
@[simp] theorem Block.setCb_free : (s.setCb c).free = s.free := rfl
@[simp] theorem Block.setCb_epoch : (s.setCb c).epoch = s.epoch := rfl
@[simp] theorem Block.setCb_moves : (s.setCb c).moves = s.moves := rfl
@[simp] theorem Block.setCb_hostData : (s.setCb c).hostData = s.hostData := rfl
end

section -- the end of a command for the internal state (R39)
variable (i : Instr) (s : Block P)
@[simp] theorem Block.release_status : (s.release i).status = s.status := rfl
@[simp] theorem Block.release_errinfo : (s.release i).errinfo = s.errinfo := rfl
@[simp] theorem Block.release_maxlen : (s.release i).maxlen = s.maxlen := rfl
@[simp] theorem Block.release_filesize : (s.release i).filesize = s.filesize := rfl
@[simp] theorem Block.release_bitInLen : (s.release i).bitInLen = s.bitInLen := rfl
@[simp] theorem Block.release_symLen : (s.release i).symLen = s.symLen := rfl
@[simp] theorem Block.release_packLen : (s.release i).packLen = s.packLen := rfl
@[simp] theorem Block.release_bitOutLen : (s.release i).bitOutLen = s.bitOutLen := rfl
@[simp] theorem Block.release_bitIn : (s.release i).bitIn = s.bitIn := rfl
@[simp] theorem Block.release_sym : (s.release i).sym = s.sym := rfl
@[simp] theorem Block.release_freq : (s.release i).freq = s.freq := rfl
@[simp] theorem Block.release_cb : (s.release i).cb = s.cb := rfl
@[simp] theorem Block.release_pack : (s.release i).pack = s.pack := rfl
@[simp] theorem Block.release_bitOut : (s.release i).bitOut = s.bitOut := rfl
@[simp] theorem Block.release_htb : (s.release i).htb = if usesHtb i then freeHtb s.free else s.htb := rfl
@[simp] theorem Block.release_work : (s.release i).work = Work.release P i s.free s.work := rfl
@[simp] theorem Block.release_free : (s.release i).free = s.free + 1 := rfl
@[simp] theorem Block.release_epoch : (s.release i).epoch = s.epoch := rfl
@[simp] theorem Block.release_moves : (s.release i).moves = s.moves := rfl
@[simp] theorem Block.release_hostData : (s.release i).hostData = s.hostData := rfl
end

section -- what a host read returns
variable (d : HostData P) (s : Block P)
@[simp] theorem Block.give_status : (s.give d).status = s.status := rfl
@[simp] theorem Block.give_errinfo : (s.give d).errinfo = s.errinfo := rfl
@[simp] theorem Block.give_maxlen : (s.give d).maxlen = s.maxlen := rfl
@[simp] theorem Block.give_filesize : (s.give d).filesize = s.filesize := rfl
@[simp] theorem Block.give_bitInLen : (s.give d).bitInLen = s.bitInLen := rfl
@[simp] theorem Block.give_symLen : (s.give d).symLen = s.symLen := rfl
@[simp] theorem Block.give_packLen : (s.give d).packLen = s.packLen := rfl
@[simp] theorem Block.give_bitOutLen : (s.give d).bitOutLen = s.bitOutLen := rfl
@[simp] theorem Block.give_bitIn : (s.give d).bitIn = s.bitIn := rfl
@[simp] theorem Block.give_sym : (s.give d).sym = s.sym := rfl
@[simp] theorem Block.give_freq : (s.give d).freq = s.freq := rfl
@[simp] theorem Block.give_cb : (s.give d).cb = s.cb := rfl
@[simp] theorem Block.give_pack : (s.give d).pack = s.pack := rfl
@[simp] theorem Block.give_bitOut : (s.give d).bitOut = s.bitOut := rfl
@[simp] theorem Block.give_htb : (s.give d).htb = s.htb := rfl
@[simp] theorem Block.give_work : (s.give d).work = s.work := rfl
@[simp] theorem Block.give_free : (s.give d).free = s.free := rfl
@[simp] theorem Block.give_epoch : (s.give d).epoch = s.epoch := rfl
@[simp] theorem Block.give_moves : (s.give d).moves = s.moves := rfl
@[simp] theorem Block.give_hostData : (s.give d).hostData = some d := rfl
end

section -- the outputs a faulting command loses (R226): every field outside R45's column is kept
variable (i : Instr) (s : Block P)
@[simp] theorem Block.forgetOutputs_status : (s.forgetOutputs i).status = s.status := by cases i <;> rfl
@[simp] theorem Block.forgetOutputs_errinfo : (s.forgetOutputs i).errinfo = s.errinfo := by cases i <;> rfl
@[simp] theorem Block.forgetOutputs_maxlen : (s.forgetOutputs i).maxlen = s.maxlen := by cases i <;> rfl
@[simp] theorem Block.forgetOutputs_filesize : (s.forgetOutputs i).filesize = s.filesize := by cases i <;> rfl
@[simp] theorem Block.forgetOutputs_bitInLen : (s.forgetOutputs i).bitInLen = s.bitInLen := by cases i <;> rfl
@[simp] theorem Block.forgetOutputs_bitIn : (s.forgetOutputs i).bitIn = s.bitIn := by cases i <;> rfl
@[simp] theorem Block.forgetOutputs_htb : (s.forgetOutputs i).htb = s.htb := by cases i <;> rfl
@[simp] theorem Block.forgetOutputs_work : (s.forgetOutputs i).work = s.work := by cases i <;> rfl
@[simp] theorem Block.forgetOutputs_free : (s.forgetOutputs i).free = s.free := by cases i <;> rfl
@[simp] theorem Block.forgetOutputs_epoch : (s.forgetOutputs i).epoch = s.epoch := by cases i <;> rfl
@[simp] theorem Block.forgetOutputs_moves : (s.forgetOutputs i).moves = s.moves := by cases i <;> rfl
@[simp] theorem Block.forgetOutputs_hostData : (s.forgetOutputs i).hostData = s.hostData := by cases i <;> rfl
end

end Sys2Proof.Machine
end

