-- ==== Sys2Proof/Laws/Ops.lean ====
section
/-! SUPPORT. What the shared operations can do, said once: dispatch, the end of a command, fault entry. -/

namespace Sys2Proof.Machine

open Config

variable {P : Params}

/-- A ready block accepts the command (R205). -/
theorem commandGate_ready {s : Block P} {body : Block P → BlockResult P} (hb : s.busy = false) (he : s.err = 0) :
    commandGate s body = body s.accept := by simp [commandGate, hb, he]

/-- A command is ignored while BUSY or while a fault is latched (R206, R211), else its body runs. -/
theorem commandGate_cases (s : Block P) (body : Block P → BlockResult P) :
    (commandGate s body = .next s ∧ (s.busy = true ∨ s.err ≠ 0)) ∨
      (commandGate s body = body s.accept ∧ s.busy = false ∧ s.err = 0) := by
  by_cases hb : s.busy = true
  · exact .inl ⟨by simp [commandGate, hb], .inl hb⟩
  · by_cases he : s.err = 0
    · exact .inr ⟨commandGate_ready (by simpa using hb) he, by simpa using hb, he⟩
    · exact .inl ⟨by simp only [commandGate, if_neg hb, if_pos he], .inr he⟩

/-- How a command ends: with its outputs committed, or by fault entry (R208, R224), or at an unwritten element. -/
theorem endCommand_cases {β : Type} {i : Instr} {s t : Block P} {commit : β → Block P → Block P} {r : Scan β}
    (h : endCommand i s commit r = .next t) :
    (∃ w out, r = .done w out ∧ t = ((commit out s).complete).release i) ∨
      (∃ f info, r = .raised f info ∧ t = s.raise i f info) := by
  cases r with
  | done w out => left; exact ⟨w, out, rfl, by simpa [endCommand] using h.symm⟩
  | raised f info => right; exact ⟨f, info, rfl, by simpa [endCommand] using h.symm⟩
  | unwritten sp k => simp [endCommand] at h

@[simp] theorem endCommand_done {β : Type} (i : Instr) (s : Block P) (commit : β → Block P → Block P) (w : Work)
    (out : β) : endCommand i s commit (.done w out) = .next ((commit out s).complete.release i) := rfl

@[simp] theorem endCommand_raised {β : Type} (i : Instr) (s : Block P) (commit : β → Block P → Block P)
    (f : FaultKind) (n : Nat) : endCommand i s commit (.raised f n) = .next (s.raise i f n) := rfl

@[simp] theorem endCommand_unwritten {β : Type} (i : Instr) (s : Block P) (commit : β → Block P → Block P)
    (sp : SpaceName) (k : Nat) :
    endCommand i s commit (.unwritten sp k) = .fault (.unwrittenElement sp k) := rfl

@[simp] theorem raise_status (i : Instr) (f : FaultKind) (n : Nat) (s : Block P) :
    (s.raise i f n).status = statusWord false false f.code := by simp [Block.raise]

@[simp] theorem raise_errinfo (i : Instr) (f : FaultKind) (n : Nat) (s : Block P) :
    (s.raise i f n).errinfo = BitVec.ofNat _ n := by simp [Block.raise]

/-- Fault entry leaves the fault in STATUS and ERRINFO (R224). -/
theorem faulted_raise (i : Instr) (f : FaultKind) (n : Nat) (s : Block P) : Faulted (s.raise i f n) f n := by
  simp [Faulted, Block.err, Block.done, Block.busy]

/-- An accepted command that ends without a fault leaves DONE alone in STATUS (R208). -/
theorem endedDone_of_ready {s t : Block P} (h : Ready s)
    (hs : t.status = statusWord false true (statusErr s.status)) (hi : t.errinfo = s.errinfo) : EndedDone t := by
  obtain ⟨⟨-, -, -, -, -, hz⟩, he⟩ := h
  have : statusErr s.status = 0 := he
  rw [this] at hs
  exact ⟨by rw [hs]; decide, by rw [hi, hz he]⟩

theorem endedDone_err {t : Block P} (h : EndedDone t) : t.err = 0 := by
  simp only [Block.err, h.1]; decide

theorem endedDone_busy {t : Block P} (h : EndedDone t) : t.busy = false := by
  simp only [Block.busy, h.1]; decide

@[simp] theorem liftBlock_next (t : Block P) : liftBlock (.next t) = .next ⟨P, t⟩ := rfl
@[simp] theorem liftBlock_fault (r : Fault) : liftBlock (.fault r : BlockResult P) = .fault r := rfl
@[simp] theorem liftBlock_refused (r : Refusal) : liftBlock (.refused r : BlockResult P) = .refused r := rfl

/-- A next state of the machine is one of its block, with the parameters kept. -/
theorem liftBlock_eq_next {r : BlockResult P} {t : State} :
    liftBlock r = .next t ↔ ∃ b, r = .next b ∧ t = ⟨P, b⟩ := by
  cases r <;> simp [liftBlock, eq_comm]

@[simp] theorem liftBlock_eq_next_mk {r : BlockResult P} {b : Block P} :
    liftBlock r = .next ⟨P, b⟩ ↔ r = .next b := by
  cases r <;> simp [liftBlock]

/-- The reaction of the block alone to a command: `exec` with the parameters left out. -/
def blockExec (i : Instr) (s : Block P) : BlockResult P :=
  match i with
  | .rle => commandGate s rleBody
  | .rld => commandGate s rldBody
  | .fcnt => commandGate s fcntBody
  | .build => commandGate s buildBody
  | .pack => commandGate s packBody
  | .unpk => commandGate s unpkBody
  | .clr => if s.busy then .next s else .next s.clearFault

/-- `exec` acts on the block and keeps the parameters. -/
theorem exec_block (i : Instr) (s : Block P) : exec i ⟨P, s⟩ = liftBlock (blockExec i s) := by
  cases i
  case clr => cases hb : s.busy <;> simp [exec, execClr, blockExec, State.onBlock, hb]
  all_goals rfl

section
variable (s : Block P)
@[simp] theorem exec_rle : exec .rle ⟨P, s⟩ = liftBlock (commandGate s rleBody) := rfl
@[simp] theorem exec_rld : exec .rld ⟨P, s⟩ = liftBlock (commandGate s rldBody) := rfl
@[simp] theorem exec_fcnt : exec .fcnt ⟨P, s⟩ = liftBlock (commandGate s fcntBody) := rfl
@[simp] theorem exec_build : exec .build ⟨P, s⟩ = liftBlock (commandGate s buildBody) := rfl
@[simp] theorem exec_pack : exec .pack ⟨P, s⟩ = liftBlock (commandGate s packBody) := rfl
@[simp] theorem exec_unpk : exec .unpk ⟨P, s⟩ = liftBlock (commandGate s unpkBody) := rfl
@[simp] theorem exec_clr :
    exec .clr ⟨P, s⟩ = if s.busy then .next ⟨P, s⟩ else .next ⟨P, s.clearFault⟩ := rfl
end

/-- The prefix of a stored sequence is the sequence (R15). -/
theorem loaded_ofSeq {α : Type} (xs : List α) (f : Nat → α) {cap : Nat} (h : xs.length ≤ cap) :
    Loaded (Cells.ofSeq xs f 0 cap) xs := by
  intro k hk
  rw [read_ofSeq, if_pos (by omega), List.getElem?_eq_getElem hk]
  simp

/-- A space that holds `xs` gives the window `xs`. -/
theorem window_loaded {α : Type} {cap n : Nat} {c : Cells α} (h : Cells.wf cap c = true) {xs : List α}
    (hn : xs.length = n) (hx : Loaded c xs) : Cells.window c 0 n = xs.map some := by
  subst hn; exact window_of_loaded h hx

/-- A space whose beginning is `xs` gives a window that begins with `xs`. -/
theorem window_loaded_prefix {α : Type} {cap n : Nat} {c : Cells α} (h : Cells.wf cap c = true) {xs : List α}
    (hn : xs.length ≤ n) (hx : Loaded c xs) : ∃ rest, Cells.window c 0 n = xs.map some ++ rest := by
  obtain ⟨m, rfl⟩ := Nat.exists_eq_add_of_le hn
  refine ⟨(List.range' xs.length m).map (Cells.read c), ?_⟩
  have h0 := window_of_loaded h hx
  rw [window_eq_map h] at h0 ⊢
  rw [← h0, ← List.map_append]
  congr 1
  simpa using (List.range'_append_1 (s := 0) (m := xs.length) (n := m)).symm

end Sys2Proof.Machine
end

