-- ==== Sys2Proof/Laws/Runs.lean ====
section
/-! SUPPORT. The scans of RLE and RLD, said once each: what they do with a stretch of input that stands for whole runs
(R103 to R108 of 40_run_length_encoder.md, R122 to R125 of 41_run_length_decoder.md). -/

namespace Sys2Proof.Machine

open Config

variable {P : Params}

variable {α : Type}

/-! ## Emitting -/

@[simp] theorem emitAll_nil (r : Scan (List α)) : Scan.emitAll [] r = r := by cases r <;> rfl

theorem emitAll_append (xs ys : List α) (r : Scan (List α)) :
    Scan.emitAll xs (Scan.emitAll ys r) = Scan.emitAll (xs ++ ys) r := by
  cases r <;> simp [Scan.emitAll]

theorem emit_eq_emitAll (x : α) (r : Scan (List α)) : Scan.emit x r = Scan.emitAll [x] r := by cases r <;> rfl

@[simp] theorem emitAll_done (xs ys : List α) (w : Work) :
    Scan.emitAll xs (.done w ys) = .done w (xs ++ ys) := rfl

@[simp] theorem emitAll_raised (xs : List α) (f : FaultKind) (n : Nat) :
    Scan.emitAll xs (.raised f n) = .raised f n := rfl

@[simp] theorem emitAll_unwritten (xs : List α) (sp : SpaceName) (k : Nat) :
    Scan.emitAll xs (.unwritten sp k) = .unwritten sp k := rfl

/-! ## Expansions -/

@[simp] theorem expandAll_nil (M : Nat) : expandAll M ([] : List (Sym P)) = [] := rfl

@[simp] theorem expandAll_cons (M : Nat) (r : Sym P) (rs : List (Sym P)) :
    expandAll M (r :: rs) = expandRun M r.toNat ++ expandAll M rs := rfl

theorem expandAll_append (M : Nat) (rs rs' : List (Sym P)) :
    expandAll M (rs ++ rs') = expandAll M rs ++ expandAll M rs' := by simp [expandAll]

theorem length_expandRun_pos {M : Nat} (hM : 1 ≤ M) (r : Nat) : 1 ≤ (expandRun M r).length := by
  unfold expandRun; split <;> simp [hM]

theorem length_le_expandAll {M : Nat} (hM : 1 ≤ M) (rs : List (Sym P)) : rs.length ≤ (expandAll M rs).length := by
  induction rs with
  | nil => simp
  | cons r rs ih =>
    have := length_expandRun_pos hM r.toNat
    simp only [expandAll_cons, List.length_append, List.length_cons]; omega

/-- A symbol's value survives its register: nothing is cut from a number below `2^W_SYM`. -/
theorem toNat_symOf {r : Nat} (h : r < P.N_SYM) : (BitVec.ofNat P.W_SYM r).toNat = r := by
  simp only [BitVec.toNat_ofNat]; exact Nat.mod_eq_of_lt h

/-- Every bit sequence is a sequence of whole runs under cap `M` and fewer than `M` trailing zeros (R110 (c)). -/
theorem exists_runs {M : Nat} (hM : 1 ≤ M) (hM' : M < P.N_SYM) (bits : List Bool) :
    ∃ (syms : List (Sym P)) (z : Nat), bits = expandAll M syms ++ List.replicate z false ∧ z < M ∧
      ∀ r ∈ syms, r.toNat ≤ M := by
  -- read from the left with `c` zeros in hand
  suffices H : ∀ (bits : List Bool) (c : Nat), c < M →
      ∃ (syms : List (Sym P)) (z : Nat),
        List.replicate c false ++ bits = expandAll M syms ++ List.replicate z false ∧ z < M ∧
          ∀ r ∈ syms, r.toNat ≤ M by
    simpa using H bits 0 (by omega)
  intro bits
  induction bits with
  | nil => intro c hc; exact ⟨[], c, by simp, hc, by simp⟩
  | cons b bits ih =>
    intro c hc
    cases b with
    | true =>
      obtain ⟨syms, z, h, hz, hr⟩ := ih 0 (by omega)
      refine ⟨BitVec.ofNat P.W_SYM c :: syms, z, ?_, hz, ?_⟩
      · simp only [expandAll_cons, toNat_symOf (show c < P.N_SYM by omega), List.append_assoc, ← h]
        simp [expandRun, hc]
      · intro r hr'
        rcases List.mem_cons.1 hr' with rfl | hr'
        · rw [toNat_symOf (by omega)]; omega
        · exact hr r hr'
    | false =>
      by_cases hc' : c + 1 < M
      · obtain ⟨syms, z, h, hz, hr⟩ := ih (c + 1) hc'
        refine ⟨syms, z, ?_, hz, hr⟩
        rw [← h]; simp [List.replicate_succ', List.append_assoc]
      · obtain ⟨syms, z, h, hz, hr⟩ := ih 0 (by omega)
        refine ⟨BitVec.ofNat P.W_SYM M :: syms, z, ?_, hz, ?_⟩
        · simp only [expandAll_cons, toNat_symOf hM', List.append_assoc, ← h]
          have : M = c + 1 := by omega
          subst this
          simp [expandRun, List.replicate_succ', List.append_assoc]
        · intro r hr'
          rcases List.mem_cons.1 hr' with rfl | hr'
          · rw [toNat_symOf hM']
          · exact hr r hr'

theorem smallPiece_zero {r : Sym P} (h : r.toNat = 0) : smallPiece r = [true] := by simp [smallPiece, h]
theorem smallPiece_one {r : Sym P} (h : r.toNat = 1) : smallPiece r = [false, true] := by simp [smallPiece, h]
theorem smallPiece_two {r : Sym P} (h : r.toNat = 2) : smallPiece r = [false, false] := by simp [smallPiece, h]

/-- The symbols 0, 1 and 2 are what they say, since W_SYM is at least 2 (R9). -/
theorem toNat_small {k : Nat} (h : k ≤ 2) : (BitVec.ofNat P.W_SYM k).toNat = k :=
  toNat_symOf (lt_of_lt_of_le (show k < 4 by omega) P.four_le_N_SYM)

/-- With a small cap, every bit sequence is pieces "1", "01", "00" and at most one lone zero (R108, R109). -/
theorem exists_pieces (bits : List Bool) :
    ∃ syms : List (Sym P), (bits = syms.flatMap smallPiece ∨ bits = syms.flatMap smallPiece ++ [false]) ∧
      ∀ r ∈ syms, r.toNat ≤ 2 := by
  have piece0 := smallPiece_zero (toNat_small (P := P) (k := 0) (by decide))
  have piece1 := smallPiece_one (toNat_small (P := P) (k := 1) (by decide))
  have piece2 := smallPiece_two (toNat_small (P := P) (k := 2) (by decide))
  induction bits using List.twoStepInduction with
  | nil => exact ⟨[], by simp, by simp⟩
  | singleton b =>
    cases b
    · exact ⟨[], by simp, by simp⟩
    · exact ⟨[BitVec.ofNat P.W_SYM 0], by simp [piece0], by simp⟩
  | cons_cons b b' bits ih ih' =>
    cases b with
    | true =>
      obtain ⟨syms, h, hr⟩ := ih' b'
      exact ⟨BitVec.ofNat P.W_SYM 0 :: syms, by rcases h with h | h <;> simp [piece0, h],
        by simpa only [List.forall_mem_cons] using ⟨(toNat_small (by decide)).le.trans (by decide), hr⟩⟩
    | false =>
      obtain ⟨syms, h, hr⟩ := ih
      cases b'
      · exact ⟨BitVec.ofNat P.W_SYM 2 :: syms, by rcases h with h | h <;> simp [piece2, h],
          by simpa only [List.forall_mem_cons] using ⟨(toNat_small (by decide)).le, hr⟩⟩
      · exact ⟨BitVec.ofNat P.W_SYM 1 :: syms, by rcases h with h | h <;> simp [piece1, h],
          by simpa only [List.forall_mem_cons] using ⟨(toNat_small (by decide)).le.trans (by decide), hr⟩⟩

/-! ## RLE -/

/-- R103. -/
theorem rleScan_one (M n : Nat) (w : Work) (rest : List (Option Bool)) :
    rleScan (P := P) M n w (some true :: rest) =
      emitRun w w.cnt (rleScan M n { w with rp := w.rp + 1, wp := w.wp + 1, cnt := 0 } rest) := by
  rw [rleScan]

/-- R104. -/
theorem rleScan_below {M : Nat} (n : Nat) {w : Work} (rest : List (Option Bool)) (h : w.cnt + 2 < M) :
    rleScan (P := P) M n w (some false :: rest) =
      rleScan M n { w with rp := w.rp + 1, cnt := w.cnt + 1 } rest := by
  rw [rleScan.eq_def]; simp only [if_pos h]

/-- R105. -/
theorem rleScan_lookahead {M : Nat} (n : Nat) {w : Work} (d : Bool) (rest : List (Option Bool))
    (h : ¬ w.cnt + 2 < M) :
    rleScan (P := P) M n w (some false :: some d :: rest) =
      emitRun w (if d then w.cnt + 1 else w.cnt + 2)
        (rleScan M n { w with rp := w.rp + 2, wp := w.wp + 1, cnt := 0 } rest) := by
  rw [rleScan.eq_def]; simp only [if_neg h]

/-- R107 and R108. -/
theorem rleScan_last {M : Nat} (n : Nat) {w : Work} (h : ¬ w.cnt + 2 < M) :
    rleScan (P := P) M n w [some false] =
      if M ≤ 2 then .raised .outOfData n else .done { w with rp := w.rp + 1 } [] := by
  rw [rleScan.eq_def]; simp only [if_neg h]

/-- Zeros below the threshold are only counted (R104). -/
theorem rleScan_zeros {M n : Nat} (j : Nat) (w : Work) (rest : List (Option Bool)) (h : w.cnt + j + 2 ≤ M) :
    rleScan (P := P) M n w (List.replicate j (some false) ++ rest) =
      rleScan M n { w with rp := w.rp + j, cnt := w.cnt + j } rest := by
  induction j generalizing w with
  | zero => rfl
  | succ j ih =>
    rw [List.replicate_succ, List.cons_append, rleScan_below n _ (by omega), ih _ (by simp; omega)]
    congr 2 <;> simp <;> omega

/-- One whole run is one symbol, whichever branch of R103 to R105 emits it. -/
theorem rleScan_run {M n : Nat} (hM : 2 ≤ M) (r : Nat) (hr : r ≤ M) (w : Work) (hc : w.cnt = 0)
    (rest : List (Option Bool)) :
    rleScan (P := P) M n w ((expandRun M r).map some ++ rest) =
      emitRun w r (rleScan M n
        { w with rp := w.rp + (expandRun M r).length, wp := w.wp + 1, cnt := 0 } rest) := by
  by_cases h1 : r + 2 ≤ M
  · have hx : expandRun M r = List.replicate r false ++ [true] := by simp [expandRun]; omega
    rw [hx]
    simp only [List.map_append, List.map_replicate, List.append_assoc, List.map_cons, List.map_nil]
    rw [rleScan_zeros r w _ (by omega)]
    rw [List.cons_append, List.nil_append, rleScan_one]
    simp [hc, emitRun, Nat.add_assoc]
  · obtain ⟨m, rfl⟩ := Nat.exists_eq_add_of_le' hM
    have hx : expandRun (m + 2) r = List.replicate m false ++ [false, decide (r = m + 1)] := by
      rcases (show r = m + 1 ∨ r = m + 2 by omega) with rfl | rfl
      · simp [expandRun, List.replicate_succ', List.append_assoc]
      · simp [expandRun, List.replicate_succ', List.append_assoc]
    rw [hx]
    simp only [List.map_append, List.map_replicate, List.append_assoc, List.map_cons, List.map_nil]
    rw [rleScan_zeros m w _ (by omega)]
    rw [List.cons_append, List.cons_append, List.nil_append, rleScan_lookahead n _ _ (by simp [hc])]
    have hv : (if decide (r = m + 1) = true then w.cnt + m + 1 else w.cnt + m + 2) = r := by
      by_cases h : r = m + 1 <;> simp [h, hc]; omega
    simp only [hv]
    simp [emitRun, Nat.add_assoc]

/-- Whole runs give their symbols, one each, while SYM has room (R101). -/
theorem rleScan_runs {M n : Nat} (hM : 2 ≤ M) (syms : List (Sym P)) (hr : ∀ r ∈ syms, r.toNat ≤ M) (w : Work)
    (hc : w.cnt = 0) (hw : w.wp + syms.length ≤ P.SYM_CAP) (rest : List (Option Bool)) :
    rleScan M n w ((expandAll M syms).map some ++ rest) =
      .emitAll syms (rleScan M n
        { w with rp := w.rp + (expandAll M syms).length, wp := w.wp + syms.length, cnt := 0 } rest) := by
  induction syms generalizing w with
  | nil => cases w; simp_all
  | cons r rs ih =>
    simp only [List.length_cons] at hw
    simp only [expandAll_cons, List.map_append, List.append_assoc]
    rw [rleScan_run hM r.toNat (hr r (by simp)) w hc, emitRun, if_neg (by omega),
      ih (fun x hx => hr x (by simp [hx])) _ rfl (by simp; omega), emit_eq_emitAll, emitAll_append]
    simp [Nat.add_assoc, Nat.add_comm 1]

/-- Trailing zeros, fewer than the cap, are dropped when MAXLEN is at least 3 (R106, R107). -/
theorem rleScan_tail {M n : Nat} (hM : 3 ≤ M) (z : Nat) (hz : z < M) (w : Work) (hc : w.cnt = 0) :
    ∃ w', rleScan (P := P) M n w (List.replicate z (some false)) = .done w' [] := by
  by_cases h : z + 2 ≤ M
  · refine ⟨{ w with rp := w.rp + z, cnt := w.cnt + z }, ?_⟩
    rw [← List.append_nil (List.replicate z (some false)), rleScan_zeros z w [] (by omega), rleScan]
  · obtain ⟨m, rfl⟩ := Nat.exists_eq_add_of_le' (show 2 ≤ M by omega)
    obtain rfl : z = m + 1 := by omega
    refine ⟨{ w with rp := w.rp + m + 1, cnt := w.cnt + m }, ?_⟩
    rw [List.replicate_succ', rleScan_zeros m w _ (by omega), rleScan_last n (by simp [hc]), if_neg (by omega)]

/-- The scan of RLE on an input given as runs and trailing zeros (R100). -/
theorem rleScan_runs_tail {M n : Nat} (hM : 3 ≤ M) (syms : List (Sym P)) (hr : ∀ r ∈ syms, r.toNat ≤ M) (z : Nat)
    (hz : z < M) (w : Work) (hc : w.cnt = 0) (hw : w.wp + syms.length ≤ P.SYM_CAP) :
    ∃ w', rleScan M n w ((expandAll M syms ++ List.replicate z false).map some) = .done w' syms := by
  obtain ⟨w', h⟩ := rleScan_tail hM z hz
    { w with rp := w.rp + (expandAll M syms).length, wp := w.wp + syms.length, cnt := 0 } (n := n) rfl
  refine ⟨w', ?_⟩
  rw [List.map_append, rleScan_runs (by omega) syms hr w hc hw, List.map_replicate, h]
  simp

/-- With a small cap each piece is one symbol (R108, R109). -/
theorem rleScan_pieces {M n : Nat} (hM : M ≤ 2) (syms : List (Sym P)) (hr : ∀ r ∈ syms, r.toNat ≤ 2) (w : Work)
    (hc : w.cnt = 0) (hw : w.wp + syms.length ≤ P.SYM_CAP) (rest : List (Option Bool)) :
    rleScan M n w ((syms.flatMap smallPiece).map some ++ rest) =
      .emitAll syms (rleScan M n
        { w with rp := w.rp + (syms.flatMap smallPiece).length, wp := w.wp + syms.length, cnt := 0 } rest) := by
  induction syms generalizing w with
  | nil => cases w; simp_all
  | cons r rs ih =>
    simp only [List.length_cons] at hw
    have hcap : ¬ P.SYM_CAP < w.wp + 1 := by omega
    have ih' := ih (fun x hx => hr x (by simp [hx])) { w with
      rp := w.rp + (smallPiece r).length, wp := w.wp + 1, cnt := 0 } rfl (by simp; omega)
    have head : rleScan M n w ((smallPiece r).map some ++ ((rs.flatMap smallPiece).map some ++ rest)) =
        .emit r (rleScan M n { w with rp := w.rp + (smallPiece r).length, wp := w.wp + 1, cnt := 0 }
          ((rs.flatMap smallPiece).map some ++ rest)) := by
      have h2 := hr r (by simp)
      have hr0 : BitVec.ofNat P.W_SYM r.toNat = r := by simp
      rcases (show r.toNat = 0 ∨ r.toNat = 1 ∨ r.toNat = 2 by omega) with h | h | h
      · rw [smallPiece_zero h, List.map_cons, List.cons_append, rleScan_one, emitRun, if_neg hcap]
        rw [h] at hr0
        simp [hc, hr0]
      · rw [smallPiece_one h, List.map_cons, List.map_cons, List.cons_append, List.cons_append,
          rleScan_lookahead n _ _ (by omega), emitRun, if_neg hcap]
        rw [h] at hr0
        simp [hc, hr0]
      · rw [smallPiece_two h, List.map_cons, List.map_cons, List.cons_append, List.cons_append,
          rleScan_lookahead n _ _ (by omega), emitRun, if_neg hcap]
        rw [h] at hr0
        simp [hc, hr0]
    rw [List.flatMap_cons, List.map_append, List.append_assoc, head, ih', emit_eq_emitAll, emitAll_append]
    simp [Nat.add_assoc, Nat.add_comm 1]

/-! ## RLD -/

/-- Symbols in range that fit are expanded one after another (R122). -/
theorem rldScan_runs {M F : Nat} (syms : List (Sym P)) (hr : ∀ r ∈ syms, r.toNat ≤ M) (w : Work)
    (hw : w.wp + (expandAll M syms).length ≤ F) (rest : List (Option (Sym P))) :
    rldScan M F w (syms.map some ++ rest) =
      .emitAll (expandAll M syms) (rldScan M F
        { w with rp := w.rp + syms.length, wp := w.wp + (expandAll M syms).length } rest) := by
  induction syms generalizing w with
  | nil => simp
  | cons r rs ih =>
    simp only [expandAll_cons, List.length_append] at hw
    simp only [List.map_cons, List.cons_append, rldScan]
    rw [if_neg (by have := hr r (by simp); omega), if_neg (by omega),
      ih (fun x hx => hr x (by simp [hx])) _ (by simp; omega), emitAll_append]
    simp [Nat.add_assoc, Nat.add_comm 1]

/-- The scan of RLD on symbols in range that fit: their expansion and the padding (R125). -/
theorem rldScan_all {M F : Nat} (syms : List (Sym P)) (hr : ∀ r ∈ syms, r.toNat ≤ M) (w : Work) (hw0 : w.wp = 0)
    (hw : (expandAll M syms).length ≤ F) :
    ∃ w', rldScan M F w (syms.map some) =
      .done w' (expandAll M syms ++ List.replicate (F - (expandAll M syms).length) false) := by
  refine ⟨{ w with rp := w.rp + syms.length, wp := w.wp + (expandAll M syms).length }, ?_⟩
  rw [← List.append_nil (syms.map some), rldScan_runs syms hr w (by omega)]
  simp only [rldScan, emitAll_done, hw0, Nat.zero_add]

end Sys2Proof.Machine
end

