-- ==== Sys2Proof/Laws/Codes.lean ====
section
/-! SUPPORT. The lookups of the codeword mapper (R155, R156 of 43_huffman_codeword_mapper.md) and the scans of PACK and
UNPK, said once each (R166 of 44_huffman_bit_packer.md, R176 of 45_huffman_bit_unpacker.md). -/

namespace Sys2Proof.Machine

open Config

variable {P : Params}

/-! ## Codewords -/

theorem length_lowBits {w : Nat} (b : BitVec w) (n : Nat) : (lowBits b n).length = n := by
  induction n with
  | zero => rfl
  | succ n ih => simp [lowBits, ih]

@[simp] theorem length_codeword (e : CbElem P) : (codeword e).length = e.len.toNat := length_lowBits _ _

theorem wordValue_lt (w : List Bool) : wordValue w < 2 ^ w.length := by
  induction w with
  | nil => simp [wordValue]
  | cons b w ih =>
    have : b.toNat ≤ 1 := by cases b <;> simp
    simp only [wordValue, List.length_cons, Nat.pow_succ]
    nlinarith [Nat.mul_le_mul_right (2 ^ w.length) this]

/-- The bits of a codeword's number, the last bit of the codeword at position 0 (R34, R151). -/
theorem testBit_wordValue (u : List Bool) (b : Bool) (w : List Bool) :
    (wordValue (u ++ b :: w)).testBit w.length = b := by
  induction u with
  | nil =>
    simp only [List.nil_append, wordValue, Nat.mul_comm b.toNat]
    rw [Nat.testBit_two_pow_mul_add _ (wordValue_lt w), if_neg (lt_irrefl _), Nat.sub_self]
    cases b <;> rfl
  | cons c u ih =>
    simp only [List.cons_append, wordValue, Nat.mul_comm c.toNat]
    rw [Nat.testBit_two_pow_mul_add _ (wordValue_lt _), if_pos (by simp; omega), ih]

theorem lowBits_wordValue (w u : List Bool) (n : Nat) (hn : w.length ≤ n) :
    lowBits (BitVec.ofNat n (wordValue (u ++ w))) w.length = w := by
  induction w generalizing u with
  | nil => rfl
  | cons b w ih =>
    simp only [List.length_cons] at hn
    have htail := ih (u ++ [b]) (by omega)
    rw [List.append_assoc, List.singleton_append] at htail
    simp only [List.length_cons, lowBits, htail]
    rw [BitVec.getLsbD_ofNat, decide_eq_true (by omega : w.length < n), Bool.true_and, testBit_wordValue]

/-- `cw(entry(w)) = w` for a codeword of at most `L_MAX` bits (R34, R151). -/
theorem codeword_codeEntry {w : List Bool} (h : w.length ≤ P.L_MAX) : codeword (codeEntry w : CbElem P) = w := by
  have hl : (BitVec.ofNat P.W_LEN w.length).toNat = w.length := by
    simp only [BitVec.toNat_ofNat]; exact Nat.mod_eq_of_lt (P.lt_N_SYM_of_le_L_MAX h)
  simp only [codeword, codeEntry, hl]
  exact lowBits_wordValue w [] P.L_MAX h

/-! ## The codebook of a state -/

/-- CB[x] holds the codeword `w`. -/
theorem code_eq_some {s : Block P} {x : Sym P} {w : List Bool} :
    s.code x = some w ↔ ∃ e, Cells.read s.cb x.toNat = some e ∧ e.valid = true ∧ codeword e = w := by
  unfold Block.code
  cases Cells.read s.cb x.toNat with
  | none => simp
  | some e => by_cases h : e.valid = true <;> simp [h]

theorem lookupCode_of_code {s : Block P} {x : Sym P} {w : List Bool} (h : s.code x = some w) :
    lookupCode s.cb x = .ok (some w) := by
  obtain ⟨e, he, hv, rfl⟩ := code_eq_some.1 h
  simp [lookupCode, he, hv]

theorem lookupCode_of_invalid {cb : Cells (CbElem P)} {x : Sym P} {e : CbElem P} (h : Cells.read cb x.toNat = some e)
    (hv : e.valid = false) : lookupCode cb x = .ok none := by simp [lookupCode, h, hv]

theorem codeAll_cons {s : Block P} {x : Sym P} {xs : List (Sym P)} {bits : List Bool} :
    s.codeAll (x :: xs) = some bits ↔
      ∃ w ws, s.code x = some w ∧ s.codeAll xs = some ws ∧ bits = w ++ ws := by
  simp only [Block.codeAll]
  cases s.code x <;> cases s.codeAll xs <;> simp [eq_comm]

theorem codeAll_append {s : Block P} {xs ys : List (Sym P)} {a b : List Bool} (hx : s.codeAll xs = some a)
    (hy : s.codeAll ys = some b) : s.codeAll (xs ++ ys) = some (a ++ b) := by
  induction xs generalizing a with
  | nil => simp [Block.codeAll] at hx; subst hx; simpa using hy
  | cons x xs ih =>
    obtain ⟨w, ws, h1, h2, rfl⟩ := codeAll_cons.1 hx
    exact codeAll_cons.2 ⟨w, ws ++ b, h1, ih h2, by simp⟩

theorem sum_code_lengths {s : Block P} {xs : List (Sym P)} {bits : List Bool} (h : s.codeAll xs = some bits) :
    (xs.map fun x => ((s.code x).getD []).length).sum = bits.length := by
  induction xs generalizing bits with
  | nil => simp [Block.codeAll] at h; subst h; rfl
  | cons x xs ih =>
    obtain ⟨w, ws, h1, h2, rfl⟩ := codeAll_cons.1 h
    simp [ih h2, h1]

/-- Two states with the same CB have the same codewords. -/
theorem code_congr {s t : Block P} (h : t.cb = s.cb) : t.code = s.code := by
  funext x; simp [Block.code, h]

theorem codeAll_congr {s t : Block P} (h : t.cb = s.cb) (xs : List (Sym P)) : t.codeAll xs = s.codeAll xs := by
  induction xs with
  | nil => rfl
  | cons x xs ih => simp only [Block.codeAll, ih, code_congr h]

/-! ## PACK -/

/-- Symbols with codewords that fit are packed one after another (R166). -/
theorem packScan_codes {s : Block P} (xs : List (Sym P)) {bits : List Bool} (hx : s.codeAll xs = some bits) (w : Work)
    (hw : w.wp + bits.length ≤ P.PACK_CAP) (rest : List (Option (Sym P))) :
    packScan s.cb w (xs.map some ++ rest) =
      .emitAll bits (packScan s.cb
        { w with rp := w.rp + xs.length, wp := w.wp + bits.length } rest) := by
  induction xs generalizing w bits with
  | nil => simp [Block.codeAll] at hx; subst hx; simp
  | cons x xs ih =>
    obtain ⟨cw, ws, h1, h2, rfl⟩ := codeAll_cons.1 hx
    simp only [List.length_append] at hw
    simp only [List.map_cons, List.cons_append, packScan, lookupCode_of_code h1]
    rw [if_neg (by omega), ih h2 _ (by simp; omega), emitAll_append]
    simp [Nat.add_assoc, Nat.add_comm 1]

/-! ## match -/

theorem hasWord_iff (e : CbElem P) (buf : List Bool) :
    hasWord e buf = true ↔ e.valid = true ∧ codeword e = buf := by
  simp only [hasWord, Bool.and_eq_true, beq_iff_eq]
  constructor
  · rintro ⟨h1, -, h3⟩; exact ⟨h1, h3⟩
  · rintro ⟨h1, rfl⟩; exact ⟨h1, by simp, rfl⟩

theorem mem_candidates {buf : List Bool} {i : Nat} {es : List (CbElem P)} {x : Sym P} :
    x ∈ candidates buf i es ↔ ∃ k e, es[k]? = some e ∧ hasWord e buf = true ∧ x = BitVec.ofNat _ (i + k) := by
  induction es generalizing i with
  | nil => simp [candidates]
  | cons e es ih =>
    have step : x ∈ candidates buf i (e :: es) ↔
        (hasWord e buf = true ∧ x = BitVec.ofNat _ i) ∨ x ∈ candidates buf (i + 1) es := by
      by_cases h : hasWord e buf = true <;> simp [candidates, h]
    rw [step, ih]
    constructor
    · rintro (⟨h, rfl⟩ | ⟨k, e', h1, h2, rfl⟩)
      · exact ⟨0, e, rfl, h, rfl⟩
      · exact ⟨k + 1, e', by simpa using h1, h2, by rw [Nat.add_assoc, Nat.add_comm 1]⟩
    · rintro ⟨k, e', h1, h2, rfl⟩
      cases k with
      | zero => simp at h1; subst h1; exact .inl ⟨h2, rfl⟩
      | succ k => exact .inr ⟨k, e', by simpa using h1, h2, by rw [Nat.add_assoc, Nat.add_comm 1]⟩

/-- `match` answers none only when nothing matches, and otherwise one of the matching symbols (R157 (a), U5). -/
theorem pickSym_cases (t j : Nat) (l : List (Sym P)) :
    (l = [] ∧ pickSym t j l = none) ∨ ∃ x ∈ l, pickSym t j l = some x := by
  match l with
  | [] => exact .inl ⟨rfl, rfl⟩
  | [x] => exact .inr ⟨x, by simp, rfl⟩
  | x :: y :: r =>
    right
    have h : freeNat .pick t j % (x :: y :: r).length < (x :: y :: r).length :=
      Nat.mod_lt _ (by simp)
    exact ⟨_, List.getElem_mem h, by simp only [pickSym]; exact List.getElem?_eq_getElem h⟩

/-- The elements of CB as UNPK reads them, when all are written (R242). -/
theorem opCodebook_written {s : Block P} (hwf : Cells.wf P.N_SYM s.cb = true) (hw : Written s.cb P.N_SYM) :
    ∃ es : List (CbElem P), s.opCodebook = es.map some ∧ es.length = P.N_SYM ∧
      ∀ k, k < P.N_SYM → Cells.read s.cb k = es[k]? := by
  refine ⟨(List.range P.N_SYM).map fun k => (Cells.read s.cb k).getD default, ?_, by simp, ?_⟩
  · rw [Block.opCodebook, window_eq_map hwf, ← List.range_eq_range', List.map_map]
    refine List.map_congr_left fun k hk => ?_
    have := hw k (List.mem_range.1 hk)
    obtain ⟨e, he⟩ := Option.isSome_iff_exists.1 this
    simp [he]
  · intro k hk
    obtain ⟨e, he⟩ := Option.isSome_iff_exists.1 (hw k hk)
    simp [hk, he]

variable {s : Block P} {es : List (CbElem P)}

theorem mem_candidates_code (hl : es.length = P.N_SYM) (he : ∀ k, k < P.N_SYM → Cells.read s.cb k = es[k]?)
    {buf : List Bool} {x : Sym P} : x ∈ candidates buf 0 es ↔ s.code x = some buf := by
  rw [mem_candidates, code_eq_some]
  constructor
  · rintro ⟨k, e, h1, h2, rfl⟩
    have hk : k < P.N_SYM := hl ▸ (List.getElem?_eq_some_iff.1 h1).1
    refine ⟨e, ?_, (hasWord_iff e buf).1 h2⟩
    rw [Nat.zero_add, toNat_symOf hk, he k hk, h1]
  · rintro ⟨e, h1, h2⟩
    refine ⟨x.toNat, e, ?_, (hasWord_iff e buf).2 h2, by simp⟩
    rw [← he _ x.isLt, h1]

/-- `match(buf)` when no codeword is `buf` (R156). -/
theorem matchCode_none (hl : es.length = P.N_SYM) (he : ∀ k, k < P.N_SYM → Cells.read s.cb k = es[k]?) {buf : List Bool}
    (h : ∀ x, s.code x ≠ some buf) (t j : Nat) : matchCode (es.map some) t j buf = .ok none := by
  have : candidates buf 0 es = [] :=
    List.eq_nil_iff_forall_not_mem.2 fun x hx => h x ((mem_candidates_code hl he).1 hx)
  simp [matchCode, readAll_map_some, this, pickSym]

/-- `match(buf)` when exactly one symbol has the codeword `buf` (R156). -/
theorem matchCode_some (hl : es.length = P.N_SYM) (he : ∀ k, k < P.N_SYM → Cells.read s.cb k = es[k]?) {buf : List Bool}
    {x : Sym P} (hx : s.code x = some buf) (huniq : ∀ y, s.code y = some buf → y = x) (t j : Nat) :
    matchCode (es.map some) t j buf = .ok (some x) := by
  simp only [matchCode, readAll_map_some]
  rcases pickSym_cases t j (candidates buf 0 es) with ⟨h, -⟩ | ⟨y, hy, h⟩
  · have := (mem_candidates_code hl he).2 hx; rw [h] at this; simp at this
  · rw [h, huniq y ((mem_candidates_code hl he).1 hy)]

/-! ## UNPK -/

/-- The rest `v` of a codeword `u ++ v` of which `u` is in the candidate buffer is consumed and its symbol emitted, when no
shorter non-empty prefix is a codeword (R176, R177). -/
theorem unpkScan_code (hl : es.length = P.N_SYM) (he : ∀ k, k < P.N_SYM → Cells.read s.cb k = es[k]?) {x : Sym P}
    {cw : List Bool} (hx : s.code x = some cw) (huniq : ∀ y, s.code y = some cw → y = x)
    (hshort : ∀ v, v <+: cw → v ≠ [] → v ≠ cw → ∀ y, s.code y ≠ some v) (t p : Nat) (v : List Bool) (w : Work)
    (hv : v ≠ []) (hcw : w.cand ++ v = cw) (hwp : w.wp + 1 ≤ P.SYM_CAP) (rest : List (Option Bool)) :
    unpkScan (es.map some) t p w (v.map some ++ rest) =
      .emit x (unpkScan (es.map some) t p
        { w with rp := w.rp + v.length, wp := w.wp + 1, cand := [] } rest) := by
  induction v generalizing w with
  | nil => exact absurd rfl hv
  | cons b v ih =>
    rw [List.map_cons, List.cons_append, unpkScan]
    by_cases hnil : v = []
    · subst hnil
      rw [hcw, matchCode_some hl he hx huniq]
      simp only [if_neg (show ¬ P.SYM_CAP < w.wp + 1 by omega)]
      simp
    · have hne : w.cand ++ [b] ≠ cw := by
        intro h
        rw [← hcw] at h
        have := congrArg List.length h
        have hpos : 0 < v.length := List.length_pos_iff.2 hnil
        simp only [List.length_append, List.length_cons, List.length_nil] at this
        omega
      rw [matchCode_none hl he (hshort (w.cand ++ [b]) ⟨v, by simp [← hcw]⟩ (by simp) hne)]
      simp only
      rw [ih { w with rp := w.rp + 1, cand := w.cand ++ [b] } hnil (by simp [← hcw]) hwp]
      simp [Nat.add_assoc, Nat.add_comm 1]

/-- Codewords one after another give their symbols (R177). -/
theorem unpkScan_codes (hl : es.length = P.N_SYM) (he : ∀ k, k < P.N_SYM → Cells.read s.cb k = es[k]?)
    (hinj : Codebook.Injective s) (hne : Codebook.NoEmpty s) (t p : Nat) (xs : List (Sym P))
    (hshort : ∀ x ∈ xs, ∀ w v, s.code x = some w → v <+: w → v ≠ [] → v ≠ w → ∀ y, s.code y ≠ some v)
    {bits : List Bool} (hx : s.codeAll xs = some bits) (w : Work) (hc : w.cand = [])
    (hwp : w.wp + xs.length ≤ P.SYM_CAP) (rest : List (Option Bool)) :
    unpkScan (es.map some) t p w (bits.map some ++ rest) =
      .emitAll xs (unpkScan (es.map some) t p
        { w with rp := w.rp + bits.length, wp := w.wp + xs.length, cand := [] } rest) := by
  induction xs generalizing w bits with
  | nil => simp [Block.codeAll] at hx; subst hx; cases w; simp_all
  | cons x xs ih =>
    obtain ⟨cw, ws, h1, h2, rfl⟩ := codeAll_cons.1 hx
    simp only [List.length_cons] at hwp
    have hcw : cw ≠ [] := fun h => hne x (h ▸ h1)
    rw [List.map_append, List.append_assoc,
      unpkScan_code hl he h1 (fun y hy => hinj y x cw hy h1) (hshort x (by simp) cw · h1) t p cw w hcw
        (by simp [hc]) (by omega),
      ih (fun y hy => hshort y (by simp [hy])) h2 _ rfl (by simp; omega), emit_eq_emitAll, emitAll_append]
    simp [Nat.add_assoc, Nat.add_comm 1]

/-- Bits that start with no codeword stay in the candidate buffer (R178). -/
theorem unpkScan_tail (hl : es.length = P.N_SYM) (he : ∀ k, k < P.N_SYM → Cells.read s.cb k = es[k]?) (t p : Nat)
    (v : List Bool) (w : Work) (hno : NoCodewordStarts s (w.cand ++ v)) (hne : w.cand ++ v ≠ []) :
    unpkScan (es.map some) t p w (v.map some) =
      .raised .incompleteCodeword (p - (w.cand.length + v.length)) := by
  induction v generalizing w with
  | nil => simp_all [unpkScan]
  | cons b v ih =>
    rw [List.map_cons, unpkScan, matchCode_none hl he
      (fun x => hno (w.cand ++ [b]) x (by simp) ⟨v, by simp⟩)]
    simp only
    rw [ih { w with rp := w.rp + 1, cand := w.cand ++ [b] } (by simpa using hno) (by simp)]
    congr 1
    simp; omega

end Sys2Proof.Machine
end

