-- ==== Sys2Proof/Laws/Huffman.lean ====
section
/-! SUPPORT. The tree that phase 1 of BUILD leaves, as a mathematical tree, and the codewords that phase 2 assigns from it
(R135 to R139 of 42_huffman_tree_builder.md, R151 to R154 of 43_huffman_codeword_mapper.md). -/

namespace Sys2Proof.Machine

open Config

variable {P : Params}

/-- A full binary tree with a symbol at each leaf. -/
inductive CodeTree (P : Params) where
  | leaf (s : Sym P)
  | node (l r : CodeTree P)

/-- The symbols at the leaves, left to right. -/
def CodeTree.symbols : CodeTree P → List (Sym P)
  | .leaf s => [s]
  | .node l r => l.symbols ++ r.symbols

/-- The depth of the deepest leaf. -/
def CodeTree.depth : CodeTree P → Nat
  | .leaf _ => 0
  | .node l r => max l.depth r.depth + 1

/-- Each symbol with the branch labels from the root, after the labels `w` (R152). -/
def CodeTree.codes : CodeTree P → List Bool → List (Sym P × List Bool)
  | .leaf s, w => [(s, w)]
  | .node l r, w => l.codes (w ++ [false]) ++ r.codes (w ++ [true])

/-- The reference `ref` stands for the tree `t` in TREE, with every node below index `n` and every child below its node
(R138). -/
inductive Built (tree : Cells (TreeElem P)) : Nat → NodeRef P → CodeTree P → Prop where
  | leaf (n : Nat) (s : Sym P) : Built tree n (.leaf s) (.leaf s)
  | node (n k : Nat) (e : TreeElem P) (l r : CodeTree P) : k < n → Cells.read tree k = some e →
      Built tree k e.c0 l → Built tree k e.c1 r → Built tree n (.node k) (.node l r)

theorem Built.mono {tree : Cells (TreeElem P)} {n m : Nat} {ref : NodeRef P} {t : CodeTree P} (h : Built tree n ref t)
    (hm : n ≤ m) : Built tree m ref t := by
  cases h with
  | leaf => exact .leaf _ _
  | node _ k e l r hk hr hl hr' => exact .node m k e l r (by omega) hr hl hr'

/-- Nodes at or beyond `n` do not matter. -/
theorem Built.congr {tree tree' : Cells (TreeElem P)} {n : Nat} {ref : NodeRef P} {t : CodeTree P} (h : Built tree n ref t)
    (he : ∀ k, k < n → Cells.read tree' k = Cells.read tree k) : Built tree' n ref t := by
  induction h with
  | leaf n s => exact .leaf n s
  | node n k e l r hk hr _ _ ihl ihr =>
    exact .node n k e l r hk ((he k hk).trans hr) (ihl fun j hj => he j (by omega))
      (ihr fun j hj => he j (by omega))

/-! ## The queue -/

/-- Where an insertion lands. -/
theorem insertEntry_split (e : QEntry P) (q : List (QEntry P)) :
    ∃ a b, q = a ++ b ∧ insertEntry e q = a ++ e :: b := by
  induction q with
  | nil => exact ⟨[], [], rfl, rfl⟩
  | cons x q ih =>
    simp only [insertEntry]
    split
    · exact ⟨[], x :: q, rfl, rfl⟩
    · obtain ⟨a, b, h1, h2⟩ := ih
      exact ⟨x :: a, b, by rw [h1]; rfl, by rw [h2]; rfl⟩

theorem insertEntry_perm (e : QEntry P) (q : List (QEntry P)) : List.Perm (insertEntry e q) (e :: q) := by
  obtain ⟨a, b, rfl, h⟩ := insertEntry_split e q
  rw [h]; exact List.perm_middle

@[simp] theorem length_insertEntry (e : QEntry P) (q : List (QEntry P)) : (insertEntry e q).length = q.length + 1 := by
  simpa using (insertEntry_perm e q).length_eq

theorem foldr_insertEntry_perm (l : List (QEntry P)) : List.Perm (l.foldr insertEntry []) l := by
  induction l with
  | nil => exact List.Perm.refl _
  | cons e l ih => exact (insertEntry_perm e _).trans (ih.cons e)

@[simp] theorem length_leafEntries (j : Nat) (keys : List (Sym P × Nat)) : (leafEntries j keys).length = keys.length := by
  induction keys generalizing j with
  | nil => rfl
  | cons k r ih => obtain ⟨s, w⟩ := k; simp [leafEntries, ih]

/-! ## Phase 1 -/

/-- What holds between merges (R135): every entry of the queue stands for a tree, and together the trees have the keys as
their symbols, each key once. -/
def MergeInv (keys : List (Sym P)) (h : Htb P) : Prop :=
  ∃ ts : List (CodeTree P), List.Forall₂ (fun e t => Built h.tree h.treeN e.ref t) h.queue ts ∧
    List.Perm (ts.flatMap CodeTree.symbols) keys

theorem forall₂_insertEntry {R : QEntry P → CodeTree P → Prop} {e : QEntry P} {t : CodeTree P} (he : R e t)
    {q : List (QEntry P)} {ts : List (CodeTree P)} (h : List.Forall₂ R q ts) :
    ∃ ts', List.Forall₂ R (insertEntry e q) ts' ∧ List.Perm ts' (t :: ts) := by
  induction h with
  | nil => exact ⟨[t], .cons he .nil, List.Perm.refl _⟩
  | @cons x u q ts hx hq ih =>
    simp only [insertEntry]
    split
    · exact ⟨t :: u :: ts, .cons he (.cons hx hq), List.Perm.refl _⟩
    · obtain ⟨ts', h1, h2⟩ := ih
      exact ⟨u :: ts', .cons hx h1, (h2.cons u).trans (List.Perm.swap t u ts)⟩

theorem mergeInv_start (keys : List (Sym P × Nat)) (h : Htb P) :
    MergeInv (keys.map Prod.fst) (phase1Start keys h) := by
  suffices H : ∀ (j : Nat), ∃ ts : List (CodeTree P),
      List.Forall₂ (fun e t => Built h.tree 0 e.ref t) ((leafEntries j keys).foldr insertEntry []) ts ∧
        List.Perm (ts.flatMap CodeTree.symbols) (keys.map Prod.fst) from H 0
  induction keys with
  | nil => intro j; exact ⟨[], .nil, List.Perm.refl _⟩
  | cons k r ih =>
    intro j
    obtain ⟨s, w⟩ := k
    obtain ⟨ts, h1, h2⟩ := ih (j + 1)
    obtain ⟨ts', h3, h4⟩ := forall₂_insertEntry (e := ⟨w, j, .leaf s⟩) (t := .leaf s)
      (R := fun e t => Built h.tree 0 e.ref t) (Built.leaf 0 s) h1
    refine ⟨ts', h3, (h4.flatMap_right _).trans ?_⟩
    simpa [CodeTree.symbols] using h2

theorem mergeInv_step {keys : List (Sym P)} {h : Htb P} (hi : MergeInv keys h) : MergeInv keys (mergeStep h) := by
  obtain ⟨ts, h1, h2⟩ := hi
  unfold mergeStep
  split
  · rename_i e1 e2 q heq
    rw [heq] at h1
    obtain ⟨t1, ts1, b1, h1', rfl⟩ := List.forall₂_cons_left_iff.1 h1
    obtain ⟨t2, ts2, b2, h1'', rfl⟩ := List.forall₂_cons_left_iff.1 h1'
    have keep : ∀ ref t, Built h.tree h.treeN ref t →
        Built (Cells.write h.tree h.treeN ⟨e1.ref, e2.ref⟩) h.treeN ref t := fun ref t hb =>
      hb.congr fun k hk => read_write_other _ _ (by omega)
    have hnew : Built (Cells.write h.tree h.treeN ⟨e1.ref, e2.ref⟩) (h.treeN + 1) (.node h.treeN) (.node t1 t2) :=
      .node _ _ ⟨e1.ref, e2.ref⟩ _ _ (by omega) (read_write_same _ _ _) (keep _ _ b1) (keep _ _ b2)
    have hq : List.Forall₂
        (fun e t => Built (Cells.write h.tree h.treeN ⟨e1.ref, e2.ref⟩) (h.treeN + 1) e.ref t) q ts2 :=
      h1''.imp fun e t hb => (keep _ _ hb).mono (by omega)
    obtain ⟨ts', h3, h4⟩ := forall₂_insertEntry
      (e := ⟨e1.weight + e2.weight, h.nextSeq, .node h.treeN⟩) (t := .node t1 t2)
      (R := fun e t => Built (Cells.write h.tree h.treeN ⟨e1.ref, e2.ref⟩) (h.treeN + 1) e.ref t) hnew hq
    refine ⟨ts', h3, (h4.flatMap_right _).trans ?_⟩
    simpa [CodeTree.symbols, List.append_assoc] using h2
  · exact ⟨ts, h1, h2⟩

theorem mergeInv_loop {keys : List (Sym P)} {h : Htb P} (k : Nat) (hi : MergeInv keys h) :
    MergeInv keys (mergeLoop k h) := by
  induction k generalizing h with
  | zero => exact hi
  | succ k ih => exact ih (mergeInv_step hi)

/-- The loop of phase 1 repeats one merge (R135). -/
theorem mergeLoop_succ (k : Nat) (h : Htb P) : mergeLoop (k + 1) h = mergeStep (mergeLoop k h) := by
  induction k generalizing h with
  | zero => rfl
  | succ k ih => exact ih (mergeStep h)

/-- The entry of the `k`-th leaf (R135, R137). -/
theorem mem_leafEntries {keys : List (Sym P × Nat)} {j k : Nat} {x : Sym P} {wt : Nat} (h : keys[k]? = some (x, wt)) :
    (⟨wt, j + k, .leaf x⟩ : QEntry P) ∈ leafEntries j keys := by
  induction keys generalizing j k with
  | nil => simp at h
  | cons key r ih =>
    obtain ⟨s, w⟩ := key
    cases k with
    | zero => simp at h; obtain ⟨rfl, rfl⟩ := h; simp [leafEntries]
    | succ k =>
      have tail := ih (j := j + 1) (k := k) (by simpa using h)
      rw [leafEntries, List.mem_cons]
      exact .inr (by rwa [Nat.add_right_comm, Nat.add_assoc] at tail)

/-- The leaves below a reference are the symbols of the tree it stands for, with fuel enough for its depth (R139). -/
theorem leavesBelow_of_built {tree : Cells (TreeElem P)} {n : Nat} {ref : NodeRef P} {t : CodeTree P}
    (hb : Built tree n ref t) (fuel : Nat) (hf : t.depth ≤ fuel) : leavesBelow fuel tree ref = t.symbols := by
  induction hb generalizing fuel with
  | leaf n s => cases fuel <;> rfl
  | node n k e l r hk hr _ _ ihl ihr =>
    simp only [CodeTree.depth] at hf
    cases fuel with
    | zero => omega
    | succ fuel => simp only [leavesBelow, hr, CodeTree.symbols, ihl fuel (by omega), ihr fuel (by omega)]

/-- A merge takes two entries and adds one (R139). -/
theorem length_mergeLoop (k : Nat) (h : Htb P) (hk : k + 1 ≤ h.queue.length) :
    (mergeLoop k h).queue.length = h.queue.length - k ∧ (mergeLoop k h).treeN = h.treeN + k := by
  induction k generalizing h with
  | zero => exact ⟨by simp [mergeLoop], rfl⟩
  | succ k ih =>
    match hq : h.queue, hk with
    | e1 :: e2 :: q, hk =>
      have hlen : (mergeStep h).queue.length = q.length + 1 := by simp [mergeStep, hq]
      have htn : (mergeStep h).treeN = h.treeN + 1 := by simp [mergeStep, hq]
      simp only [List.length_cons] at hk ⊢
      obtain ⟨h1, h2⟩ := ih (mergeStep h) (by omega)
      exact ⟨by rw [mergeLoop, h1, hlen]; omega, by rw [mergeLoop, h2, htn]; omega⟩
    | [_], hk => simp at hk
    | [], hk => simp at hk

@[simp] theorem length_phase1Start (keys : List (Sym P × Nat)) (h : Htb P) :
    (phase1Start keys h).queue.length = keys.length := by
  simpa [phase1Start] using (foldr_insertEntry_perm (leafEntries 0 keys)).length_eq

/-- Phase 1 leaves one tree, whose symbols are the keys, each once, with ROOT as its root (R139). -/
theorem phase1_built (keys : List (Sym P × Nat)) (h : Htb P) (hk : keys ≠ []) :
    ∃ t, Built (phase1 keys h).tree (phase1 keys h).treeN (phase1 keys h).root t ∧
      List.Perm t.symbols (keys.map Prod.fst) ∧ (phase1 keys h).treeN = keys.length - 1 := by
  have hpos : 0 < keys.length := List.length_pos_iff.2 hk
  obtain ⟨hl, hn⟩ := length_mergeLoop (keys.length - 1) (phase1Start keys h) (by simp; omega)
  obtain ⟨ts, h1, h2⟩ := mergeInv_loop (keys.length - 1) (mergeInv_start keys h)
  rw [length_phase1Start] at hl
  obtain ⟨e, he⟩ := List.length_eq_one_iff.1
    (show (mergeLoop (keys.length - 1) (phase1Start keys h)).queue.length = 1 by omega)
  rw [he] at h1
  obtain ⟨t, ts1, hb, hnil, rfl⟩ := List.forall₂_cons_left_iff.1 h1
  rw [List.forall₂_nil_left_iff] at hnil
  subst hnil
  refine ⟨t, ?_, by simpa using h2, ?_⟩
  · simpa [phase1, setRoot, he] using hb
  · simp only [phase1, setRoot, he]
    rw [hn]
    simp [phase1Start]

/-! ## The codes of a tree -/

theorem CodeTree.symbols_ne_nil (t : CodeTree P) : t.symbols ≠ [] := by
  induction t with
  | leaf s => simp [CodeTree.symbols]
  | node l r ihl ihr => simp [CodeTree.symbols, ihl]

theorem CodeTree.depth_lt (t : CodeTree P) : t.depth + 1 ≤ t.symbols.length := by
  induction t with
  | leaf s => simp [CodeTree.symbols, CodeTree.depth]
  | node l r ihl ihr =>
    simp only [CodeTree.symbols, CodeTree.depth, List.length_append]
    omega

theorem CodeTree.map_fst_codes (t : CodeTree P) (w : List Bool) : (t.codes w).map Prod.fst = t.symbols := by
  induction t generalizing w with
  | leaf s => rfl
  | node l r ihl ihr => simp [CodeTree.codes, CodeTree.symbols, ihl, ihr]

theorem CodeTree.codes_prefix (t : CodeTree P) {w : List Bool} {x : Sym P} {c : List Bool} (h : (x, c) ∈ t.codes w) :
    ∃ p, c = w ++ p ∧ p.length ≤ t.depth ∧ (p = [] → ∃ s, t = .leaf s) := by
  induction t generalizing w with
  | leaf s =>
    simp only [CodeTree.codes, List.mem_singleton, Prod.mk.injEq] at h
    exact ⟨[], by simp [h.2], by simp, fun _ => ⟨s, rfl⟩⟩
  | node l r ihl ihr =>
    simp only [CodeTree.codes, List.mem_append] at h
    rcases h with h | h
    · obtain ⟨p, rfl, hp, -⟩ := ihl h
      exact ⟨false :: p, by simp, by simp [CodeTree.depth]; omega, by simp⟩
    · obtain ⟨p, rfl, hp, -⟩ := ihr h
      exact ⟨true :: p, by simp, by simp [CodeTree.depth]; omega, by simp⟩

/-- No code of a tree is a prefix of another's, its own symbol's apart (R154 (b)). -/
theorem CodeTree.codes_prefixFree (t : CodeTree P) {w : List Bool} {x y : Sym P} {c d : List Bool}
    (hx : (x, c) ∈ t.codes w) (hy : (y, d) ∈ t.codes w) (h : c <+: d) : x = y ∧ c = d := by
  induction t generalizing w with
  | leaf s =>
    simp only [CodeTree.codes, List.mem_singleton, Prod.mk.injEq] at hx hy
    exact ⟨hx.1.trans hy.1.symm, hx.2.trans hy.2.symm⟩
  | node l r ihl ihr =>
    simp only [CodeTree.codes, List.mem_append] at hx hy
    have cross : ∀ (a b : Bool) (p q : List Bool), a ≠ b → ¬ (w ++ [a] ++ p <+: w ++ [b] ++ q) := by
      intro a b p q hab hpre
      rw [List.append_assoc, List.append_assoc, List.prefix_append_right_inj] at hpre
      exact hab (by simpa using (List.cons_prefix_cons.1 hpre).1)
    rcases hx with hx | hx <;> rcases hy with hy | hy
    · exact ihl hx hy
    · obtain ⟨p, rfl, -⟩ := l.codes_prefix hx
      obtain ⟨q, rfl, -⟩ := r.codes_prefix hy
      exact absurd h (cross _ _ p q (by simp))
    · obtain ⟨p, rfl, -⟩ := r.codes_prefix hx
      obtain ⟨q, rfl, -⟩ := l.codes_prefix hy
      exact absurd h (cross _ _ p q (by simp))
    · exact ihr hx hy

/-- Following a code from the root reaches the leaf of its symbol (R152). -/
theorem followPath_code {tree : Cells (TreeElem P)} {n : Nat} {ref : NodeRef P} {t : CodeTree P} (hb : Built tree n ref t)
    {w p : List Bool} {x : Sym P} (h : (x, w ++ p) ∈ t.codes w) : followPath tree ref p = some (.leaf x) := by
  induction hb generalizing w p with
  | leaf n s =>
    simp only [CodeTree.codes, List.mem_singleton, Prod.mk.injEq] at h
    have hp : p = [] := by have := congrArg List.length h.2; simpa using this
    simp [hp, followPath, h.1]
  | node n k e l r hk hr _ _ ihl ihr =>
    simp only [CodeTree.codes, List.mem_append] at h
    have key : ∀ (b : Bool) (t' : CodeTree P), (x, w ++ p) ∈ t'.codes (w ++ [b]) → ∃ q, p = b :: q := by
      intro b t' hm
      obtain ⟨q, hq, -⟩ := t'.codes_prefix hm
      exact ⟨q, by simpa [List.append_assoc] using hq⟩
    rcases h with h | h
    · obtain ⟨q, rfl⟩ := key _ _ h
      simp only [followPath, hr]
      exact ihl (w := w ++ [false]) (by simpa using h)
    · obtain ⟨q, rfl⟩ := key _ _ h
      simp only [followPath, hr]
      exact ihr (w := w ++ [true]) (by simpa using h)

/-! ## Phase 2 -/

/-- `assign` writes exactly the codes of the tree (R151). -/
theorem read_assign {tree : Cells (TreeElem P)} {n : Nat} {ref : NodeRef P} {t : CodeTree P} (hb : Built tree n ref t)
    (hnd : t.symbols.Nodup) (fuel : Nat) (hf : t.depth < fuel) (w : List Bool) (cb : Cells (CbElem P)) :
    (∀ x c, (x, c) ∈ t.codes w → Cells.read (assign fuel tree ref w cb) x.toNat = some (codeEntry c)) ∧
      ∀ x : Sym P, x ∉ t.symbols → Cells.read (assign fuel tree ref w cb) x.toNat = Cells.read cb x.toNat := by
  induction hb generalizing fuel w cb with
  | leaf n s =>
    obtain ⟨fuel, rfl⟩ := Nat.exists_eq_add_of_le' (show 1 ≤ fuel by omega)
    constructor
    · intro x c hx
      simp only [CodeTree.codes, List.mem_singleton, Prod.mk.injEq] at hx
      obtain ⟨rfl, rfl⟩ := hx
      exact read_write_same _ _ _
    · intro x hx
      simp only [CodeTree.symbols, List.mem_singleton] at hx
      exact read_write_other _ _ fun h => hx (BitVec.toNat_inj.1 h).symm
  | node n k e l r hk hr _ _ ihl ihr =>
    obtain ⟨fuel, rfl⟩ := Nat.exists_eq_add_of_le' (show 1 ≤ fuel by omega)
    simp only [CodeTree.symbols, List.nodup_append] at hnd
    simp only [CodeTree.depth] at hf
    obtain ⟨hl, hr', hdis⟩ := hnd
    obtain ⟨l1, l2⟩ := ihl hl fuel (by omega) (w ++ [false]) cb
    obtain ⟨r1, r2⟩ := ihr hr' fuel (by omega) (w ++ [true]) (assign fuel tree e.c0 (w ++ [false]) cb)
    simp only [assign, hr, CodeTree.codes, CodeTree.symbols, List.mem_append]
    constructor
    · rintro x c (hx | hx)
      · have hxl : x ∈ l.symbols := by
          rw [← l.map_fst_codes (w ++ [false])]; exact List.mem_map_of_mem hx
        rw [r2 x fun hxr => hdis x hxl x hxr rfl, l1 x c hx]
      · exact r1 x c hx
    · intro x hx
      rw [r2 x fun h => hx (.inr h), l2 x fun h => hx (.inl h)]

/-- `assign` reads only the nodes of its tree. -/
theorem assign_congr {tree tree' : Cells (TreeElem P)} {n : Nat} {ref : NodeRef P} {t : CodeTree P} (hb : Built tree n ref t)
    (he : ∀ k, k < n → Cells.read tree' k = Cells.read tree k) (fuel : Nat) (w : List Bool) (cb : Cells (CbElem P)) :
    assign fuel tree' ref w cb = assign fuel tree ref w cb := by
  induction hb generalizing fuel w cb with
  | leaf n s => cases fuel <;> rfl
  | node n k e l r hk hr _ _ ihl ihr =>
    cases fuel with
    | zero => rfl
    | succ fuel =>
      simp only [assign, he k hk, hr]
      rw [ihl (fun j hj => he j (by omega)), ihr fun j hj => he j (by omega)]

/-- `assign` keeps the canonical form of CB. -/
theorem wf_assign (fuel : Nat) (tree : Cells (TreeElem P)) (ref : NodeRef P) (w : List Bool) {cb : Cells (CbElem P)}
    (h : Cells.wf P.N_SYM cb = true) : Cells.wf P.N_SYM (assign fuel tree ref w cb) = true := by
  induction fuel generalizing ref w cb with
  | zero => exact h
  | succ fuel ih =>
    cases ref with
    | leaf s => exact wf_write _ h s.isLt
    | node k =>
      simp only [assign]
      split
      · exact h
      · exact ih _ _ (ih _ _ h)

theorem wf_cbZero : Cells.wf P.N_SYM (cbZero P) = true := wf_ofSeq _ _ _

theorem read_cbZero {k : Nat} (hk : k < P.N_SYM) : Cells.read (cbZero P) k = some ⟨false, 0, 0⟩ := by
  rw [cbZero, read_ofSeq, if_pos hk]; rfl

/-- Phase 2 keeps the canonical form of CB. -/
theorem wf_phase2 (h : Htb P) : Cells.wf P.N_SYM (phase2 h) = true := by
  unfold phase2
  split
  · rename_i s _; exact wf_write _ wf_cbZero s.isLt
  · exact wf_assign _ _ _ _ wf_cbZero

/-- The codes of the codebook BUILD writes (R151, R153): "0" for the only key, else the paths of the tree. -/
def CodeTree.book : CodeTree P → List (Sym P × List Bool)
  | .leaf s => [(s, [false])]
  | .node l r => (CodeTree.node l r).codes []

/-- What phase 2 leaves in CB: the codes of the tree, and (0, 0, 0) elsewhere (R151). -/
theorem read_phase2 {h : Htb P} {t : CodeTree P} (hb : Built h.tree h.treeN h.root t) (hnd : t.symbols.Nodup)
    (hd : t.depth < P.N_SYM) :
    (∀ x c, (x, c) ∈ t.book → Cells.read (phase2 h) x.toNat = some (codeEntry c)) ∧
      ∀ x : Sym P, x ∉ t.symbols → Cells.read (phase2 h) x.toNat = some ⟨false, 0, 0⟩ := by
  cases hroot : h.root with
  | leaf s =>
    rw [hroot] at hb
    cases hb
    simp only [phase2, hroot, CodeTree.book, CodeTree.symbols, List.mem_singleton, Prod.mk.injEq]
    constructor
    · rintro x c ⟨rfl, rfl⟩; exact read_write_same _ _ _
    · intro x hx
      rw [read_write_other _ _ fun h => hx (BitVec.toNat_inj.1 h).symm, read_cbZero x.isLt]
  | node k =>
    rw [hroot] at hb
    cases t with
    | leaf s => cases hb
    | node l r =>
      obtain ⟨h1, h2⟩ := read_assign hb hnd P.N_SYM hd [] (cbZero P)
      simp only [phase2, hroot, CodeTree.book]
      exact ⟨h1, fun x hx => by rw [h2 x hx, read_cbZero x.isLt]⟩

/-- The book has one entry per symbol. -/
theorem CodeTree.map_fst_book (t : CodeTree P) : t.book.map Prod.fst = t.symbols := by
  cases t with
  | leaf s => rfl
  | node l r => exact CodeTree.map_fst_codes _ _

/-- The lengths of the codewords (R154 (c)). -/
theorem CodeTree.length_book (t : CodeTree P) {x : Sym P} {c : List Bool} (h : (x, c) ∈ t.book) :
    1 ≤ c.length ∧ c.length ≤ max 1 t.depth := by
  cases t with
  | leaf s =>
    simp only [CodeTree.book, List.mem_singleton, Prod.mk.injEq] at h
    simp [h.2]
  | node l r =>
    obtain ⟨p, hc, hp, hne⟩ := CodeTree.codes_prefix _ h
    have : p ≠ [] := fun h0 => by obtain ⟨s, hs⟩ := hne h0; cases hs
    have := List.length_pos_iff.2 this
    rw [hc, List.nil_append]
    omega

theorem CodeTree.book_prefixFree (t : CodeTree P) {x y : Sym P} {c d : List Bool} (hx : (x, c) ∈ t.book)
    (hy : (y, d) ∈ t.book) (h : c <+: d) : x = y ∧ c = d := by
  cases t with
  | leaf s =>
    simp only [CodeTree.book, List.mem_singleton, Prod.mk.injEq] at hx hy
    exact ⟨hx.1.trans hy.1.symm, hx.2.trans hy.2.symm⟩
  | node l r => exact CodeTree.codes_prefixFree _ hx hy h

/-! ## The keys -/

theorem mem_keysFrom {i : Nat} {es : List (FreqElem P)} {x : Sym P} {wt : Nat} :
    (x, wt) ∈ keysFrom i es ↔
      ∃ k e, es[k]? = some e ∧ e.present = true ∧ x = BitVec.ofNat _ (i + k) ∧ wt = e.weight.toNat := by
  induction es generalizing i with
  | nil => simp [keysFrom]
  | cons e es ih =>
    have step : (x, wt) ∈ keysFrom i (e :: es) ↔
        (e.present = true ∧ x = BitVec.ofNat _ i ∧ wt = e.weight.toNat) ∨ (x, wt) ∈ keysFrom (i + 1) es := by
      by_cases h : e.present = true <;> simp [keysFrom, h]
    rw [step, ih]
    constructor
    · rintro (⟨h, h1, h2⟩ | ⟨k, e', h1, h2, h3, h4⟩)
      · exact ⟨0, e, rfl, h, h1, h2⟩
      · exact ⟨k + 1, e', by simpa using h1, h2, by rw [h3, Nat.add_assoc, Nat.add_comm 1], h4⟩
    · rintro ⟨k, e', h1, h2, h3, h4⟩
      cases k with
      | zero => simp at h1; subst h1; exact .inl ⟨h2, h3, h4⟩
      | succ k => exact .inr ⟨k, e', by simpa using h1, h2, by rw [h3, Nat.add_assoc, Nat.add_comm 1], h4⟩

/-- The keys are distinct symbols. -/
theorem nodup_keysFrom {i : Nat} {es : List (FreqElem P)} (h : i + es.length ≤ P.N_SYM) :
    ((keysFrom i es).map Prod.fst).Nodup := by
  induction es generalizing i with
  | nil => simp [keysFrom]
  | cons e es ih =>
    simp only [List.length_cons] at h
    simp only [keysFrom]
    split
    · rw [List.map_cons, List.nodup_cons]
      refine ⟨?_, ih (by omega)⟩
      intro hm
      obtain ⟨⟨x, wt⟩, hx, hxe⟩ := List.mem_map.1 hm
      obtain ⟨k, e', h1, -, h3, -⟩ := mem_keysFrom.1 hx
      have hk : k < es.length := (List.getElem?_eq_some_iff.1 h1).1
      have h4 : (BitVec.ofNat P.W_SYM (i + 1 + k)).toNat = (BitVec.ofNat P.W_SYM i).toNat := by
        rw [← h3]; exact congrArg BitVec.toNat hxe
      rw [toNat_symOf (show i + 1 + k < P.N_SYM from lt_of_lt_of_le (by omega) h),
        toNat_symOf (show i < P.N_SYM from lt_of_lt_of_le (by omega) h)] at h4
      omega
    · exact ih (by omega)

/-- The keys are in ascending order of symbol (R134, R137). -/
theorem sorted_keysFrom {i : Nat} {es : List (FreqElem P)} (h : i + es.length ≤ P.N_SYM) :
    (keysFrom i es).Pairwise fun a b => a.1.toNat < b.1.toNat := by
  induction es generalizing i with
  | nil => simp [keysFrom]
  | cons e es ih =>
    simp only [List.length_cons] at h
    have tail := ih (i := i + 1) (by omega)
    simp only [keysFrom]
    split
    · refine List.pairwise_cons.2 ⟨?_, tail⟩
      rintro ⟨x, wt⟩ hx
      obtain ⟨k, e', h1, -, rfl, -⟩ := mem_keysFrom.1 hx
      have hk : k < es.length := (List.getElem?_eq_some_iff.1 h1).1
      simp only
      rw [toNat_symOf (by omega), toNat_symOf (by omega)]
      omega
    · exact tail

theorem length_keysFrom_le (i : Nat) (es : List (FreqElem P)) : (keysFrom i es).length ≤ es.length := by
  induction es generalizing i with
  | nil => simp [keysFrom]
  | cons e es ih =>
    have := ih (i + 1)
    simp only [keysFrom]
    split <;> simp only [List.length_cons] <;> omega

/-- The elements of FREQ as BUILD reads them, when all are written (R242). -/
theorem opFrequencies_written {s : Block P} (hwf : Cells.wf P.N_SYM s.freq = true) (hw : Written s.freq P.N_SYM) :
    ∃ es : List (FreqElem P), s.opFrequencies = es.map some ∧ es.length = P.N_SYM ∧
      ∀ k, k < P.N_SYM → Cells.read s.freq k = es[k]? := by
  refine ⟨(List.range P.N_SYM).map fun k => (Cells.read s.freq k).getD default, ?_, by simp, ?_⟩
  · rw [Block.opFrequencies, window_eq_map hwf, ← List.range_eq_range', List.map_map]
    refine List.map_congr_left fun k hk => ?_
    have := hw k (List.mem_range.1 hk)
    obtain ⟨e, he⟩ := Option.isSome_iff_exists.1 this
    simp [he]
  · intro k hk
    obtain ⟨e, he⟩ := Option.isSome_iff_exists.1 (hw k hk)
    simp [hk, he]

/-- The keys of the table are the keys of FREQ (R33). -/
theorem isKey_iff {s : Block P} {es : List (FreqElem P)} (hl : es.length = P.N_SYM)
    (he : ∀ k, k < P.N_SYM → Cells.read s.freq k = es[k]?) (x : Sym P) :
    s.isKey x ↔ x ∈ (keysFrom 0 es).map Prod.fst := by
  simp only [List.mem_map, Prod.exists, exists_and_right, exists_eq_right]
  constructor
  · rintro ⟨wt, h⟩
    rw [he _ x.isLt] at h
    exact ⟨wt.toNat, mem_keysFrom.2 ⟨x.toNat, _, h, rfl, by simp, rfl⟩⟩
  · rintro ⟨wt, h⟩
    obtain ⟨k, e, h1, h2, rfl, -⟩ := mem_keysFrom.1 h
    have hk : k < P.N_SYM := hl ▸ (List.getElem?_eq_some_iff.1 h1).1
    refine ⟨e.weight, ?_⟩
    rw [Nat.zero_add, toNat_symOf hk, he k hk, h1]
    cases e; simp_all

/-- The tree of a table with keys: its symbols are the keys, each once, and its depth is below `N_SYM`. -/
theorem phase1_keys {es : List (FreqElem P)} (hl : es.length = P.N_SYM) (hk : keysFrom 0 es ≠ []) (h : Htb P) :
    ∃ t, Built (phase1 (keysFrom 0 es) h).tree (phase1 (keysFrom 0 es) h).treeN (phase1 (keysFrom 0 es) h).root t ∧
      List.Perm t.symbols ((keysFrom 0 es).map Prod.fst) ∧ t.symbols.Nodup ∧ t.depth < P.N_SYM := by
  obtain ⟨t, hb, hp, -⟩ := phase1_built (keysFrom 0 es) h hk
  refine ⟨t, hb, hp, hp.nodup_iff.2 (nodup_keysFrom (by rw [Nat.zero_add, hl])), ?_⟩
  have h1 := t.depth_lt
  have h2 := hp.length_eq
  have h3 := length_keysFrom_le 0 es
  rw [List.length_map] at h2
  exact lt_of_lt_of_le (show t.depth < es.length by omega) hl.le

/-! ## Independence of what an earlier BUILD left -/

/-- Two runs of phase 1 on the same keys, whatever TREE, ROOT and Q held before. -/
def SameMerge (h h' : Htb P) : Prop :=
  h'.queue = h.queue ∧ h'.treeN = h.treeN ∧ h'.nextSeq = h.nextSeq ∧
    ∀ k, k < h.treeN → Cells.read h'.tree k = Cells.read h.tree k

theorem sameMerge_step {h h' : Htb P} (hs : SameMerge h h') : SameMerge (mergeStep h) (mergeStep h') := by
  obtain ⟨h1, h2, h3, h4⟩ := hs
  unfold mergeStep
  rw [h1]
  split
  · refine ⟨by simp [h2, h3], by simp [h2], by simp [h3], ?_⟩
    intro k hk
    simp only at hk
    simp only [h2, read_write]
    split
    · rfl
    · exact h4 k (by omega)
  · exact ⟨h1, h2, h3, h4⟩

theorem sameMerge_loop {h h' : Htb P} (k : Nat) (hs : SameMerge h h') : SameMerge (mergeLoop k h) (mergeLoop k h') := by
  induction k generalizing h h' with
  | zero => exact hs
  | succ k ih => exact ih (sameMerge_step hs)

/-- The codebook is a function of the keys alone (R143). -/
theorem phase2_phase1_congr (keys : List (Sym P × Nat)) (hk : keys ≠ []) (h h' : Htb P) :
    phase2 (phase1 keys h') = phase2 (phase1 keys h) := by
  obtain ⟨q, n, -, r⟩ := sameMerge_loop (keys.length - 1)
    (show SameMerge (phase1Start keys h) (phase1Start keys h') from ⟨rfl, rfl, rfl,
    fun k hk => absurd hk (by simp [phase1Start])⟩)
  obtain ⟨t, hb, -, -⟩ := phase1_built keys h hk
  have hpos : 0 < keys.length := List.length_pos_iff.2 hk
  obtain ⟨hl, -⟩ := length_mergeLoop (keys.length - 1) (phase1Start keys h) (by simp; omega)
  rw [length_phase1Start] at hl
  obtain ⟨e, he⟩ := List.length_eq_one_iff.1
    (show (mergeLoop (keys.length - 1) (phase1Start keys h)).queue.length = 1 by omega)
  rw [he] at q
  simp only [phase1, setRoot, he, q] at hb ⊢
  cases hroot : e.ref with
  | leaf s => simp [phase2]
  | node k =>
    simp only [phase2]
    rw [hroot] at hb
    exact assign_congr hb r P.N_SYM [] (cbZero P)

end Sys2Proof.Machine
end

