-- ==== Sys2Proof/Laws/Scans.lean ====
section
/-! SUPPORT. How each command's scan can end other than with its output: which faults it raises (R215 of
60_exceptions.md), and at which unwritten element it stops (R242 of 70_reset_and_hazards.md, log 3). -/

namespace Sys2Proof.Machine

open Config

variable {P : Params}

section
variable {α : Type}

@[simp] theorem emit_eq_raised {x : α} {r : Scan (List α)} {f : FaultKind} {n : Nat} :
    Scan.emit x r = .raised f n ↔ r = .raised f n := by cases r <;> simp [Scan.emit]

@[simp] theorem emitAll_eq_raised {xs : List α} {r : Scan (List α)} {f : FaultKind} {n : Nat} :
    Scan.emitAll xs r = .raised f n ↔ r = .raised f n := by cases r <;> simp [Scan.emitAll]

@[simp] theorem emit_eq_unwritten {x : α} {r : Scan (List α)} {sp : SpaceName} {n : Nat} :
    Scan.emit x r = .unwritten sp n ↔ r = .unwritten sp n := by cases r <;> simp [Scan.emit]

@[simp] theorem emitAll_eq_unwritten {xs : List α} {r : Scan (List α)} {sp : SpaceName} {n : Nat} :
    Scan.emitAll xs r = .unwritten sp n ↔ r = .unwritten sp n := by cases r <;> simp [Scan.emitAll]

/-- Element `k` of the input is reached `j` elements from here and is unwritten. -/
def StopsAt (l : List (Option α)) (rp k : Nat) : Prop := ∃ j, k = rp + j ∧ l[j]? = some none

theorem StopsAt.here {l : List (Option α)} {rp : Nat} : StopsAt (none :: l) rp rp := ⟨0, rfl, rfl⟩

theorem StopsAt.cons {l : List (Option α)} {rp k : Nat} (x : Option α) (h : StopsAt l (rp + 1) k) :
    StopsAt (x :: l) rp k := by
  obtain ⟨j, rfl, h⟩ := h
  exact ⟨j + 1, by omega, h⟩

/-- The unwritten element of a window lies within it and is unwritten in the space. -/
theorem StopsAt.window {cap n k : Nat} {c : Cells α} (hc : Cells.wf cap c = true)
    (h : StopsAt (Cells.window c 0 n) 0 k) : k < n ∧ Cells.read c k = none := by
  obtain ⟨j, rfl, h⟩ := h
  rw [window_eq_map hc, List.getElem?_map, Option.map_eq_some_iff] at h
  obtain ⟨a, ha, hr⟩ := h
  obtain ⟨hj, ha⟩ := List.getElem?_eq_some_iff.1 ha
  simp only [List.length_range'] at hj
  simp only [List.getElem_range', Nat.one_mul, Nat.zero_add] at ha ⊢
  exact ⟨hj, ha ▸ hr⟩

end

/-! ## RLE -/

theorem rleScan_raised {M n : Nat} {w : Work} {l : List (Option Bool)} {f : FaultKind} {k : Nat}
    (h : rleScan (P := P) M n w l = .raised f k) : f = .outOfData ∨ f = .capacity := by
  fun_induction rleScan (P := P) M n w l with
  | case1 => simp at h
  | case2 => simp at h
  | case3 w rest ih =>
    simp only [emitRun] at h
    split at h
    · cases h; exact .inr rfl
    · exact ih (emit_eq_raised.1 h)
  | case4 w rest hc ih => exact ih h
  | case5 => cases h; exact .inl rfl
  | case6 => simp at h
  | case7 => simp at h
  | case8 w hc d rest ih =>
    simp only [emitRun] at h
    split at h
    · cases h; exact .inr rfl
    · exact ih (emit_eq_raised.1 h)

theorem rleScan_unwritten {M n : Nat} {w : Work} {l : List (Option Bool)} {sp : SpaceName} {k : Nat}
    (h : rleScan (P := P) M n w l = .unwritten sp k) : sp = .bitIn ∧ StopsAt l w.rp k := by
  fun_induction rleScan (P := P) M n w l with
  | case1 => simp at h
  | case2 => cases h; exact ⟨rfl, .here⟩
  | case3 w rest ih =>
    simp only [emitRun] at h
    split at h
    · simp at h
    · exact ⟨(ih (emit_eq_unwritten.1 h)).1, (ih (emit_eq_unwritten.1 h)).2.cons _⟩
  | case4 w rest hc ih => exact ⟨(ih h).1, (ih h).2.cons _⟩
  | case5 => simp at h
  | case6 => simp at h
  | case7 => cases h; exact ⟨rfl, StopsAt.here.cons _⟩
  | case8 w hc d rest ih =>
    simp only [emitRun] at h
    split at h
    · simp at h
    · exact ⟨(ih (emit_eq_unwritten.1 h)).1, ((ih (emit_eq_unwritten.1 h)).2.cons _).cons _⟩

/-! ## RLD -/

theorem rldScan_raised {M F : Nat} {w : Work} {l : List (Option (Sym P))} {f : FaultKind} {k : Nat}
    (h : rldScan M F w l = .raised f k) : f = .symbolRange ∨ f = .lengthMismatch := by
  induction l generalizing w with
  | nil => simp [rldScan] at h
  | cons x l ih =>
    cases x with
    | none => simp [rldScan] at h
    | some r =>
      simp only [rldScan] at h
      split at h
      · cases h; exact .inl rfl
      · split at h
        · cases h; exact .inr rfl
        · exact ih (emitAll_eq_raised.1 h)

theorem rldScan_unwritten {M F : Nat} {w : Work} {l : List (Option (Sym P))} {sp : SpaceName} {k : Nat}
    (h : rldScan M F w l = .unwritten sp k) : sp = .sym ∧ StopsAt l w.rp k := by
  induction l generalizing w with
  | nil => simp [rldScan] at h
  | cons x l ih =>
    cases x with
    | none => cases h; exact ⟨rfl, .here⟩
    | some r =>
      simp only [rldScan] at h
      split at h
      · simp at h
      · split at h
        · simp at h
        · have := ih (emitAll_eq_unwritten.1 h)
          exact ⟨this.1, this.2.cons _⟩

/-! ## FCNT -/

theorem fcntScan_raised {w : Work} {c : Cells (FreqElem P)} {l : List (Option (Sym P))} {f : FaultKind} {k : Nat} :
    fcntScan w c l ≠ .raised f k := by
  induction l generalizing w c with
  | nil => simp [fcntScan]
  | cons x l ih =>
    cases x with
    | none => simp [fcntScan]
    | some r => exact ih

theorem fcntScan_unwritten {w : Work} {c : Cells (FreqElem P)} {l : List (Option (Sym P))} {sp : SpaceName} {k : Nat}
    (h : fcntScan w c l = .unwritten sp k) : sp = .sym ∧ StopsAt l w.rp k := by
  induction l generalizing w c with
  | nil => simp [fcntScan] at h
  | cons x l ih =>
    cases x with
    | none => cases h; exact ⟨rfl, .here⟩
    | some r =>
      have := ih (show fcntScan { w with rp := w.rp + 1 } (countSym c r) l = _ from h)
      exact ⟨this.1, this.2.cons _⟩

/-! ## BUILD -/

theorem buildScan_raised {w : Work} {h : Htb P} {table : Except Nat (List (FreqElem P))} {f : FaultKind} {k : Nat}
    (hr : buildScan w h table = .raised f k) : f = .emptyTable ∧ k = 0 := by
  unfold buildScan at hr
  split at hr
  · simp at hr
  · split at hr
    · cases hr; exact ⟨rfl, rfl⟩
    · simp at hr

theorem buildScan_unwritten {w : Work} {h : Htb P} {table : Except Nat (List (FreqElem P))} {sp : SpaceName} {k : Nat}
    (hr : buildScan w h table = .unwritten sp k) : sp = .freq ∧ table = .error k := by
  unfold buildScan at hr
  split at hr
  · cases hr; exact ⟨rfl, rfl⟩
  · split at hr <;> simp at hr

theorem readAll_stopsAt {α : Type} {i k : Nat} {l : List (Option α)} (h : readAll i l = .error k) :
    StopsAt l i k := by
  induction l generalizing i with
  | nil => simp [readAll] at h
  | cons x l ih =>
    cases x with
    | none => cases h; exact .here
    | some a =>
      simp only [readAll] at h
      split at h
      · simp at h
      · rename_i heq
        cases h
        exact (ih heq).cons _

/-! ## PACK -/

theorem packScan_raised {cb : Cells (CbElem P)} {w : Work} {l : List (Option (Sym P))} {f : FaultKind} {k : Nat}
    (h : packScan cb w l = .raised f k) : f = .unknownSymbol ∨ f = .capacity := by
  induction l generalizing w with
  | nil => simp [packScan] at h
  | cons x l ih =>
    cases x with
    | none => simp [packScan] at h
    | some r =>
      simp only [packScan] at h
      split at h
      · simp at h
      · cases h; exact .inl rfl
      · split at h
        · cases h; exact .inr rfl
        · exact ih (emitAll_eq_raised.1 h)

theorem packScan_unwritten {cb : Cells (CbElem P)} {w : Work} {l : List (Option (Sym P))} {sp : SpaceName} {k : Nat}
    (h : packScan cb w l = .unwritten sp k) :
    (sp = .sym ∧ StopsAt l w.rp k) ∨ (sp = .cb ∧ k < P.N_SYM ∧ Cells.read cb k = none) := by
  induction l generalizing w with
  | nil => simp [packScan] at h
  | cons x l ih =>
    cases x with
    | none => cases h; exact .inl ⟨rfl, .here⟩
    | some r =>
      simp only [packScan] at h
      split at h
      · rename_i i heq
        cases h
        unfold lookupCode at heq
        split at heq
        · rename_i hn
          cases heq
          exact .inr ⟨rfl, r.isLt, hn⟩
        · simp at heq
      · simp at h
      · split at h
        · simp at h
        · rcases ih (emitAll_eq_unwritten.1 h) with h | h
          · exact .inl ⟨h.1, h.2.cons _⟩
          · exact .inr h

/-! ## UNPK -/

theorem unpkScan_raised {cb : List (Option (CbElem P))} {t p : Nat} {w : Work} {l : List (Option Bool)} {f : FaultKind}
    {k : Nat} (h : unpkScan cb t p w l = .raised f k) : f = .incompleteCodeword ∨ f = .capacity := by
  induction l generalizing w with
  | nil => simp only [unpkScan] at h; split at h <;> cases h; exact .inl rfl
  | cons x l ih =>
    cases x with
    | none => simp [unpkScan] at h
    | some b =>
      simp only [unpkScan] at h
      split at h
      · simp at h
      · exact ih h
      · split at h
        · cases h; exact .inr rfl
        · exact ih (emit_eq_raised.1 h)

theorem unpkScan_unwritten {cb : List (Option (CbElem P))} {t p : Nat} {w : Work} {l : List (Option Bool)}
    {sp : SpaceName} {k : Nat} (h : unpkScan cb t p w l = .unwritten sp k) :
    (sp = .pack ∧ StopsAt l w.rp k) ∨ (sp = .cb ∧ StopsAt cb 0 k) := by
  induction l generalizing w with
  | nil => simp only [unpkScan] at h; split at h <;> cases h
  | cons x l ih =>
    cases x with
    | none => cases h; exact .inl ⟨rfl, .here⟩
    | some b =>
      simp only [unpkScan] at h
      split at h
      · rename_i i heq
        cases h
        unfold matchCode at heq
        split at heq
        · rename_i hr
          cases heq
          exact .inr ⟨rfl, readAll_stopsAt hr⟩
        · simp at heq
      · exact (ih h).imp (fun h => ⟨h.1, h.2.cons _⟩) id
      · split at h
        · simp at h
        · exact (ih (emit_eq_unwritten.1 h)).imp (fun h => ⟨h.1, h.2.cons _⟩) id

end Sys2Proof.Machine
end

