-- ==== Sys2Proof/Laws/Memory.lean ====
section
/-! SUPPORT. Every operation that writes a space keeps the canonical form of all of them, `Memory.wf` (log 3). -/

namespace Sys2Proof.Machine

open Config

variable {P : Params}

theorem wf_reset (P : Params) : Memory.wf (Block.reset P) = true := rfl

/-! ## What commands write -/

theorem wf_setSym {s : Block P} (h : Memory.wf s = true) (xs : List (Sym P)) (n : Idx P) :
    Memory.wf (s.setSym xs n) = true := by
  rw [memory_wf_iff] at h ⊢
  exact ⟨h.1, wf_ofSeq _ _ _, h.2.2⟩

theorem wf_setBitOut {s : Block P} (h : Memory.wf s = true) (xs : List Bool) (n : Idx P) :
    Memory.wf (s.setBitOut xs n) = true := by
  rw [memory_wf_iff] at h ⊢
  exact ⟨h.1, h.2.1, h.2.2.1, h.2.2.2.1, h.2.2.2.2.1, wf_ofSeq _ _ _, h.2.2.2.2.2.2⟩

theorem wf_setPack {s : Block P} (h : Memory.wf s = true) (xs : List Bool) (n : Idx P) :
    Memory.wf (s.setPack xs n) = true := by
  rw [memory_wf_iff] at h ⊢
  exact ⟨h.1, h.2.1, h.2.2.1, h.2.2.2.1, wf_ofSeq _ _ _, h.2.2.2.2.2⟩

theorem wf_setFreq {s : Block P} (h : Memory.wf s = true) {c : Cells (FreqElem P)} (hc : Cells.wf P.N_SYM c = true) :
    Memory.wf (s.setFreq c) = true := by
  rw [memory_wf_iff] at h ⊢
  exact ⟨h.1, h.2.1, hc, h.2.2.2⟩

theorem wf_setCb {s : Block P} (h : Memory.wf s = true) {c : Cells (CbElem P)} (hc : Cells.wf P.N_SYM c = true) :
    Memory.wf (s.setCb c) = true := by
  rw [memory_wf_iff] at h ⊢
  exact ⟨h.1, h.2.1, h.2.2.1, hc, h.2.2.2.2⟩

theorem wf_accept {s : Block P} (h : Memory.wf s = true) : Memory.wf s.accept = true := h

theorem wf_complete {s : Block P} (h : Memory.wf s = true) : Memory.wf s.complete = true := h

theorem wf_clearFault {s : Block P} (h : Memory.wf s = true) : Memory.wf s.clearFault = true := h

theorem wf_latch {s : Block P} (h : Memory.wf s = true) (f : FaultKind) (n : Nat) :
    Memory.wf (s.latch f n) = true := h

theorem wf_release {s : Block P} (h : Memory.wf s = true) (i : Instr) : Memory.wf (s.release i) = true := by
  rw [memory_wf_iff] at h ⊢
  refine ⟨h.1, h.2.1, h.2.2.1, h.2.2.2.1, h.2.2.2.2.1, h.2.2.2.2.2.1, ?_⟩
  rw [Block.release_htb]
  split
  · exact wf_ofSeq _ _ _
  · exact h.2.2.2.2.2.2

theorem wf_forgetOutputs {s : Block P} (h : Memory.wf s = true) (i : Instr) :
    Memory.wf (s.forgetOutputs i) = true := by
  cases i
  · exact wf_setSym h _ _
  · exact wf_setBitOut h _ _
  · exact wf_setFreq h (wf_ofSeq _ _ _)
  · exact wf_setCb h (wf_ofSeq _ _ _)
  · exact wf_setPack h _ _
  · exact wf_setSym h _ _
  · exact h

theorem wf_raise {s : Block P} (h : Memory.wf s = true) (i : Instr) (f : FaultKind) (n : Nat) :
    Memory.wf (s.raise i f n) = true := wf_release (wf_forgetOutputs (wf_latch h f n) i) i

theorem wf_freqZero : Cells.wf P.N_SYM (freqZero P) = true := wf_ofSeq _ _ _

theorem wf_countSym {c : Cells (FreqElem P)} (h : Cells.wf P.N_SYM c = true) (x : Sym P) :
    Cells.wf P.N_SYM (countSym c x) = true := wf_write _ h x.isLt

theorem wf_fcntScan {w w' : Work} {c c' : Cells (FreqElem P)} {l : List (Option (Sym P))} (h : Cells.wf P.N_SYM c = true)
    (hd : fcntScan w c l = .done w' c') : Cells.wf P.N_SYM c' = true := by
  induction l generalizing w c with
  | nil => simp only [fcntScan, Scan.done.injEq] at hd; exact hd.2 ▸ h
  | cons x l ih =>
    cases x with
    | none => simp [fcntScan] at hd
    | some r => exact ih (wf_countSym h r) hd

theorem wf_buildScan {w w' : Work} {h : Htb P} {table : Except Nat (List (FreqElem P))} {c : Cells (CbElem P)}
    (hd : buildScan w h table = .done w' c) : Cells.wf P.N_SYM c = true := by
  unfold buildScan at hd
  split at hd
  · simp at hd
  · split at hd
    · simp at hd
    · simp only [Scan.done.injEq] at hd
      exact hd.2 ▸ wf_phase2 _

/-- The end of a command keeps the canonical form if its commit does. -/
theorem wf_endCommand {β : Type} {i : Instr} {s t : Block P} {commit : β → Block P → Block P} {r : Scan β}
    (h : Memory.wf s = true) (hc : ∀ w out, r = .done w out → Memory.wf (commit out s) = true)
    (ht : endCommand i s commit r = .next t) : Memory.wf t = true := by
  rcases endCommand_cases ht with ⟨w, out, hr, rfl⟩ | ⟨f, n, -, rfl⟩
  · exact wf_release (wf_complete (hc w out hr)) i
  · exact wf_raise h i f n

/-- Every command keeps the canonical form. -/
theorem wf_exec {i : Instr} {s t : Block P} (h : Memory.wf s = true) (ht : exec i ⟨P, s⟩ = .next ⟨P, t⟩) :
    Memory.wf t = true := by
  cases i
  case clr =>
    rw [exec_clr] at ht
    split at ht <;> cases ht
    · exact h
    · exact wf_clearFault h
  all_goals
    first
      | rw [exec_rle] at ht | rw [exec_rld] at ht | rw [exec_fcnt] at ht
      | rw [exec_build] at ht | rw [exec_pack] at ht | rw [exec_unpk] at ht
    rw [liftBlock_eq_next_mk] at ht
    rcases commandGate_cases s _ with ⟨hg, -⟩ | ⟨hg, -⟩
    · rw [hg] at ht; cases ht; exact h
    rw [hg] at ht
    refine wf_endCommand (wf_accept h) (fun w out hr => ?_) ht
  · exact wf_setSym (wf_accept h) _ _
  · exact wf_setBitOut (wf_accept h) _ _
  · split at hr
    · cases hr
    · exact wf_setFreq (wf_accept h) (wf_fcntScan wf_freqZero hr)
  · exact wf_setCb (wf_accept h) (wf_buildScan hr)
  · exact wf_setPack (wf_accept h) _ _
  · exact wf_setSym (wf_accept h) _ _

/-- So do commands one after another (R88). -/
theorem wf_execAll {is : List Instr} {s t : Block P} (h : Memory.wf s = true) (ht : execAll is ⟨P, s⟩ = .next ⟨P, t⟩) :
    Memory.wf t = true := by
  induction is generalizing s with
  | nil => cases ht; exact h
  | cons i is ih =>
    simp only [execAll] at ht
    split at ht
    · rename_i u hu
      obtain ⟨b, -, rfl⟩ := liftBlock_eq_next.1 ((exec_block i s).symm.trans hu)
      exact ih (wf_exec h hu) ht
    all_goals cases ht

/-! ## What the host writes -/

theorem lt_of_reaches {s : Block P} {cap i : Nat} (h : s.reaches cap i = true) : i < cap := by
  simp only [Block.reaches, Bool.and_eq_true, decide_eq_true_eq] at h
  exact h.2

theorem wf_writeReg {s : Block P} (h : Memory.wf s = true) (n : RegNum) (v : Nat) :
    Memory.wf (s.writeReg n v) = true := by
  unfold Block.writeReg
  split
  · exact h
  · split <;> exact h

theorem wf_writeBitIn {s : Block P} (h : Memory.wf s = true) (i v : Nat) : Memory.wf (s.writeBitIn i v) = true := by
  unfold Block.writeBitIn
  split
  · rename_i hr
    rw [memory_wf_iff] at h ⊢
    exact ⟨wf_write _ h.1 (lt_of_reaches hr), h.2⟩
  · exact h

theorem wf_writeSym {s : Block P} (h : Memory.wf s = true) (i v : Nat) : Memory.wf (s.writeSym i v) = true := by
  unfold Block.writeSym
  split
  · rename_i hr
    rw [memory_wf_iff] at h ⊢
    exact ⟨h.1, wf_write _ h.2.1 (lt_of_reaches hr), h.2.2⟩
  · exact h

theorem wf_writeFreq {s : Block P} (h : Memory.wf s = true) (i p wt : Nat) :
    Memory.wf (s.writeFreq i p wt) = true := by
  unfold Block.writeFreq
  split
  · rename_i hr
    rw [memory_wf_iff] at h ⊢
    exact ⟨h.1, h.2.1, wf_write _ h.2.2.1 (lt_of_reaches hr), h.2.2.2⟩
  · exact h

theorem wf_writeCb {s : Block P} (h : Memory.wf s = true) (i v l b : Nat) :
    Memory.wf (s.writeCb i v l b) = true := by
  unfold Block.writeCb
  split
  · rename_i hr
    rw [memory_wf_iff] at h ⊢
    exact ⟨h.1, h.2.1, h.2.2.1, wf_write _ h.2.2.2.1 (lt_of_reaches hr), h.2.2.2.2⟩
  · exact h

theorem wf_writePack {s : Block P} (h : Memory.wf s = true) (i v : Nat) : Memory.wf (s.writePack i v) = true := by
  unfold Block.writePack
  split
  · rename_i hr
    rw [memory_wf_iff] at h ⊢
    exact ⟨h.1, h.2.1, h.2.2.1, h.2.2.2.1, wf_write _ h.2.2.2.2.1 (lt_of_reaches hr), h.2.2.2.2.2⟩
  · exact h

theorem wf_writeBitOut {s : Block P} (h : Memory.wf s = true) (i v : Nat) : Memory.wf (s.writeBitOut i v) = true := by
  unfold Block.writeBitOut
  split
  · rename_i hr
    rw [memory_wf_iff] at h ⊢
    exact ⟨h.1, h.2.1, h.2.2.1, h.2.2.2.1, h.2.2.2.2.1, wf_write _ h.2.2.2.2.2.1 (lt_of_reaches hr), h.2.2.2.2.2.2⟩
  · exact h

theorem wf_hardReset (s : Block P) : Memory.wf s.hardReset = true := wf_reset P

end Sys2Proof.Machine
end

