-- ==== Sys2Proof/Laws/PerInstr.lean ====
section
/-! SUPPORT. Laws stated once per command (LAWS.json): the family Encoding. -/

namespace Sys2Proof.Laws.Encoding

/-- The command's word is well formed, its reserved field is zero (R81, R82), and
the table's decoder reads the command back from it. -/
def Statement (i : Instr) : Prop :=
  (encode i).wf = true ∧ (encode i).zeroField = 0 ∧ decodeTableWord 8 (encode i).toNat = some i

theorem rle : Statement .rle := by unfold Statement; decide
theorem rld : Statement .rld := by unfold Statement; decide
theorem fcnt : Statement .fcnt := by unfold Statement; decide
theorem build : Statement .build := by unfold Statement; decide
theorem pack : Statement .pack := by unfold Statement; decide
theorem unpk : Statement .unpk := by unfold Statement; decide
theorem clr : Statement .clr := by unfold Statement; decide

end Sys2Proof.Laws.Encoding
end

