-- ==== Sys2Proof/Tests/Slice0.lean ====
section
/-! SUPPORT. Tests of the model on values that spec/95_test_vectors.md gives, and a witness for the hypotheses of each
statement of Certificates/Slice0/Obligations.lean, for each of its clauses. -/

namespace Sys2Proof.Tests

open Sys2Proof.Machine Sys2Proof.Config

-- One theorem at a time: each evaluation in the kernel waits for the one before, on a thread and a stack of its own.
set_option Elab.async false

/-- The reference configuration (R9), at which the vectors of the spec are given. -/
abbrev R : Params := .reference

/-! ## Small states -/

/-- A block with these parameters right after reset. -/
abbrev blank : Block R := Block.reset R

/-- A space that holds these elements from index 0. -/
def cells {α : Type} [Inhabited α] (xs : List α) : Cells α := Cells.ofSeq xs (fun _ => default) 0 xs.length

/-- The bits of a string of zeros and ones. -/
def bitsOf (w : String) : List Bool := w.toList.map (· == '1')

/-- Symbols from their numbers. -/
def symsOf (xs : List Nat) : List (Sym R) := xs.map (BitVec.ofNat _)

/-- A ready block with MAXLEN and BIT_IN loaded. -/
def bitsState (m : Nat) (bits : List Bool) : Block R :=
  { blank with maxlen := BitVec.ofNat _ m, bitIn := cells bits, bitInLen := BitVec.ofNat _ bits.length }

/-- A ready block with MAXLEN, FILESIZE and SYM loaded. -/
def symsState (m f : Nat) (syms : List (Sym R)) : Block R :=
  { blank with
    maxlen := BitVec.ofNat _ m, filesize := BitVec.ofNat _ f
    sym := cells syms, symLen := BitVec.ofNat _ syms.length }

/-- A ready block with all of FREQ loaded: the listed keys, no other. -/
def freqState (table : List (Nat × Nat)) : Block R :=
  { blank with
    freq := Cells.ofSeq [] (fun i =>
      match table.lookup i with
      | some wt => ⟨true, BitVec.ofNat _ wt⟩
      | none => ⟨false, 0⟩) 0 R.N_SYM }

/-- A ready block with all of CB loaded, and SYM and PACK. -/
def bookState (table : List (Nat × String)) (syms : List (Sym R)) (packed : List Bool) : Block R :=
  { blank with
    cb := Cells.ofSeq [] (fun i =>
      match table.lookup i with
      | some w => codeEntry (bitsOf w)
      | none => ⟨false, 0, 0⟩) 0 R.N_SYM
    sym := cells syms, symLen := BitVec.ofNat _ syms.length
    pack := cells packed, packLen := BitVec.ofNat _ packed.length }

/-- The codebook of V-BLD-2. -/
def book2 : List (Nat × String) := [(1, "0"), (2, "10"), (3, "110"), (4, "111")]

/-- The same state with these host moves to come. -/
def withMoves (ms : List HostMove) (s : Block R) : Block R := { s with moves := ms }

/-- The outcome is a next state of a machine with the parameters `P`, whose block has this property. -/
def blockNextAnd {P : Params} (p : Block P → Bool) : Result → Bool
  | .next t => if h : t.params = P then p (h ▸ t.block) else false
  | _ => false

/-- The same at the reference parameters. -/
abbrev nextAnd (p : Block R → Bool) (o : Result) : Bool := blockNextAnd p o

theorem read_freqState (table : List (Nat × Nat)) (x : Sym R) : Cells.read (freqState table).freq x.toNat =
    some (match table.lookup x.toNat with | some wt => ⟨true, BitVec.ofNat _ wt⟩ | none => ⟨false, 0⟩) := by
  simp only [freqState, read_ofSeq, if_pos (show x.toNat < R.N_SYM from x.isLt), List.getElem?_nil, Option.getD_none]

theorem written_freqState (table : List (Nat × Nat)) : Written (freqState table).freq R.N_SYM := fun k hk => by
  simp only [freqState, read_ofSeq, if_pos hk, Option.isSome_some]

theorem read_bookState (table : List (Nat × String)) (syms : List (Sym R)) (packed : List Bool) (x : Sym R) :
    Cells.read (bookState table syms packed).cb x.toNat =
      some (match table.lookup x.toNat with | some w => codeEntry (bitsOf w) | none => ⟨false, 0, 0⟩) := by
  simp only [bookState, read_ofSeq, if_pos (show x.toNat < R.N_SYM from x.isLt), List.getElem?_nil, Option.getD_none]

theorem written_bookState (table : List (Nat × String)) (syms : List (Sym R)) (packed : List Bool) :
    Written (bookState table syms packed).cb R.N_SYM := fun k hk => by
  simp only [bookState, read_ofSeq, if_pos hk, Option.isSome_some]

theorem ready_bookState (table : List (Nat × String)) {syms : List (Sym R)} {packed : List Bool}
    (hs : syms.length ≤ R.SYM_CAP) (hp : packed.length ≤ R.PACK_CAP) : Ready (bookState table syms packed) := by
  have reset : Ready blank := by decide
  refine ⟨⟨?_, reset.1.2⟩, reset.2⟩
  rw [memory_wf_iff]
  exact ⟨rfl, wfFrom_ofSeq _ _ (by omega), rfl, wf_ofSeq _ _ _, wfFrom_ofSeq _ _ (by omega), rfl, rfl⟩

theorem loaded_bookState (table : List (Nat × String)) (syms : List (Sym R)) (packed : List Bool) :
    Loaded (bookState table syms packed).sym syms := loaded_ofSeq _ _ le_rfl

/-- A symbol that is in no entry of a table is not found there. -/
theorem lookup_other {α : Type} {table : List (Nat × α)} {x : Sym R}
    (h : ∀ p ∈ table, p.1 < 256 ∧ x ≠ BitVec.ofNat _ p.1) : table.lookup x.toNat = none := by
  rw [List.lookup_eq_none_iff]
  intro p hp
  obtain ⟨h1, h2⟩ := h p hp
  have hne : x.toNat ≠ p.1 := fun he => h2 (BitVec.toNat_inj.1 (he.trans (toNat_symOf h1).symm))
  simpa using hne

theorem exists_of_nextAnd {p : Block R → Bool} {o : Result} (h : nextAnd p o = true) :
    ∃ t, o = .next ⟨R, t⟩ ∧ p t = true := by
  cases o with
  | next t =>
    obtain ⟨P, t⟩ := t
    simp only [nextAnd, blockNextAnd] at h
    split at h
    · subst P; exact ⟨t, rfl, h⟩
    · cases h
  | fault r => cases h
  | refused r => cases h

theorem exists_next {o : Result} (h : nextAnd (fun _ => true) o = true) : ∃ t, o = .next ⟨R, t⟩ :=
  (exists_of_nextAnd h).imp fun _ h => h.1

/-- STATUS and ERRINFO of a state. -/
def report (t : Block R) : Nat × Nat := (t.status.toNat, t.errinfo.toNat)

/-! ## Command words, from the encoding of R81 and R82 -/

theorem test_decode_rle : decode 0b00000001#8 = .ok .rle := by decide
theorem test_decode_rld : decode 0b00000010#8 = .ok .rld := by decide
theorem test_decode_fcnt : decode 0b00000011#8 = .ok .fcnt := by decide
theorem test_decode_build : decode 0b00000100#8 = .ok .build := by decide
theorem test_decode_pack : decode 0b00000101#8 = .ok .pack := by decide
theorem test_decode_unpk : decode 0b00000110#8 = .ok .unpk := by decide
theorem test_decode_clr : decode 0b00000111#8 = .ok .clr := by decide

/-- A word with a reserved bit set is ill formed by the first check, whatever its opcode. -/
theorem test_reserved_field_refused :
    CmdWord.zeroOk 0x11 = false ∧ CmdWord.opOk 0x11 = true ∧ CmdWord.wf 0x11 = false ∧
      decode 0x11 = .error .reservedFieldSet := by decide

/-- The opcodes 0 and 8 to 15 are ill formed by the second check. -/
theorem test_unassigned_opcode_refused :
    CmdWord.opOk 0x00 = false ∧ CmdWord.wf 0x00 = false ∧ decode 0x00 = .error .unassignedOpcode ∧
      CmdWord.opOk 0x08 = false ∧ CmdWord.wf 0x08 = false ∧ decode 0x08 = .error .unassignedOpcode ∧
      CmdWord.zeroOk 0x08 = true := by decide

theorem test_table_word : decodeTableWord 8 4 = some .build ∧ decodeTableWord 8 8 = none := by decide

/-! ## Commands -/

/-- V-RLE-27. -/
theorem test_rle_mixed :
    nextAnd (fun t => t.opRunLengths == (symsOf [2, 3, 0, 4]).map some && report t == (0x02, 0))
      (exec .rle ⟨R, bitsState 5 (bitsOf "0010001100001")⟩) = true := by decide +kernel

/-- V-RLE-13. -/
theorem test_rle_outOfData :
    nextAnd (fun t => report t == (0x50, 1)) (exec .rle ⟨R, bitsState 2 (bitsOf "0")⟩) = true := by decide +kernel

/-- V-RLD-17. -/
theorem test_rld_pads :
    nextAnd (fun t => Cells.window t.bitOut 0 13 == (bitsOf "0010001000010").map some &&
        t.bitOutLen == 13 && report t == (0x02, 0))
      (exec .rld ⟨R, symsState 5 13 (symsOf [2, 3, 4])⟩) = true := by decide +kernel

/-- V-RLD-13. -/
theorem test_rld_symbolRange :
    nextAnd (fun t => report t == (0x80, 1)) (exec .rld ⟨R, symsState 5 5 (symsOf [4, 6])⟩) = true := by
  decide +kernel

/-- V-FCN-4. -/
theorem test_fcnt_highest_index :
    nextAnd (fun t => Cells.read t.freq 255 == some ⟨true, 2⟩ && Cells.read t.freq 0 == some ⟨true, 1⟩ &&
        Cells.read t.freq 1 == some ⟨false, 0⟩)
      (exec .fcnt ⟨R, symsState 0 0 (symsOf [255, 0, 255])⟩) = true := by decide +kernel

/-- V-BLD-9, with its trace: TREE after phase 1. -/
theorem test_build_tie_break :
    nextAnd (fun t =>
        (List.range 5).map (fun k => t.code (BitVec.ofNat _ k)) ==
          ["0", "100", "101", "110", "111"].map (fun w => some (bitsOf w)) && t.code 5 == none)
      (exec .build ⟨R, freqState [(0, 3), (1, 1), (2, 1), (3, 1), (4, 1)]⟩) = true ∧
    (phase1 [(0, 3), (1, 1), (2, 1), (3, 1), (4, 1)] (Htb.reset R)).tree =
      cells [⟨.leaf 1, .leaf 2⟩, ⟨.leaf 3, .leaf 4⟩, ⟨.node 0, .node 1⟩, ⟨.leaf 0, .node 2⟩] := by decide +kernel

/-- V-PCK-1. -/
theorem test_pack :
    nextAnd (fun t => t.opBitstring == (bitsOf "010110111").map some && report t == (0x02, 0))
      (exec .pack ⟨R, bookState book2 (symsOf [1, 2, 3, 4]) []⟩) = true := by decide +kernel

/-- V-PCK-6. -/
theorem test_pack_unknownSymbol :
    nextAnd (fun t => report t == (0x20, 2)) (exec .pack ⟨R, bookState book2 (symsOf [1, 2, 9, 3]) []⟩) = true := by
  decide +kernel

/-- V-UNP-5. -/
theorem test_unpk :
    nextAnd (fun t => t.opRunLengths == (symsOf [2, 3]).map some && report t == (0x02, 0))
      (exec .unpk ⟨R, bookState book2 [] (bitsOf "10110")⟩) = true := by decide +kernel

/-- V-UNP-9. -/
theorem test_unpk_incompleteCodeword :
    nextAnd (fun t => report t == (0x30, 9)) (exec .unpk ⟨R, bookState book2 [] (bitsOf "0101101111")⟩) = true := by
  decide +kernel

/-- V-SYS-7 and V-SYS-8. -/
theorem test_clr :
    nextAnd (fun t => report t == (0x00, 0)) (exec .clr ⟨R, { blank with status := 0x70, errinfo := 17 }⟩) = true ∧
      nextAnd (fun t => report t == (0x00, 0)) (exec .clr ⟨R, { blank with status := 0x02 }⟩) = true := by decide

/-- V-SYS-3: the word 0x11 written to CMD. -/
theorem test_illegal_word :
    nextAnd (fun t => report t == (0x70, 17)) (step (State.reset.withFetchWord 8 0x11)) = true := by decide

/-! ## Another legal configuration -/

/-- The narrowest symbols and weights, and small capacities that differ (R9). -/
def small : Params where
  W_SYM := 2
  BIT_CAP := 2
  SYM_CAP := 3
  PACK_CAP := 1
  W_IDX := 8
  W_WT := 2
  two_le_W_SYM := by decide
  one_le_BIT_CAP := by decide
  BIT_CAP_le_SYM_CAP := by decide
  PACK_CAP_le_SYM_CAP := by decide
  one_le_PACK_CAP := by decide
  caps_lt_W_IDX := by decide
  eight_le_W_IDX := by decide
  SYM_CAP_le_W_WT := by decide

/-- FREQ of `small` with a key for every symbol, by hand from R135 and R151: symbol 3 is one branch from the root, 0 and 1 are
three, which is `L_MAX`. -/
theorem test_build_small :
    blockNextAnd (P := small) (fun t => (List.range 4).map (fun k => t.code (BitVec.ofNat _ k)) ==
        ["110", "111", "10", "0"].map (fun w => some (bitsOf w)))
      (exec .build ⟨small, { Block.reset small with
        freq := [(0, ⟨true, 1⟩), (1, ⟨true, 1⟩), (2, ⟨true, 2⟩), (3, ⟨true, 3⟩)] }⟩) = true := by decide +kernel

/-- FCNT at the capacity 3 of `small` counts, and above it raises Capacity (R131, R221). -/
theorem test_capacity_small :
    blockNextAnd (P := small) (fun t => Cells.read t.freq 3 == some ⟨true, 3⟩ && t.status == 0x02)
        (exec .fcnt ⟨small, { Block.reset small with sym := [(0, 3), (1, 3), (2, 3)], symLen := 3 }⟩) = true ∧
      blockNextAnd (P := small) (fun t => t.status == 0x60)
        (exec .fcnt ⟨small, { Block.reset small with symLen := 4 }⟩) = true := by decide +kernel

/-! ## After reset -/

/-- `CMD BUILD` straight after reset reads an unwritten element (2.7 of 95_test_vectors.md). -/
theorem test_build_after_reset :
    step (State.reset.withFetchWord 8 4) = .fault (.unwrittenElement .freq 0) := rfl

/-! ## Witnesses: dispatch, reset and the host -/

theorem witness_illegal_words : ∀ w : CmdWord, w = 0 ∨ w = 8 ∨ w = 255 →
    (w = 0 ∨ 8 ≤ w.toNat) ∧ ∃ s : Block R, s.busy = false ∧ s.err = 0 ∧ s.done = true := fun w hw =>
  ⟨by revert w; decide, { blank with status := 0x02 }, by decide⟩

theorem witness_step_runs : ∃ (s : Block R) (v : Nat) (rest : List HostMove) (i : Instr),
    s.moves = .writeReg 0 v :: rest ∧ decode (BitVec.ofNat 8 v) = .ok i ∧ i.wf = true :=
  ⟨withMoves [.writeReg 0 7, .reset] blank, 7, [.reset], .clr, by decide⟩

theorem witness_latched_fault : ∀ w : CmdWord, w = 0x01 ∨ w = 0x08 → ∃ s : Block R, s.err ≠ 0 ∧ w ≠ 0x07 := fun w hw =>
  ⟨{ blank with status := 0x10 }, by decide, by revert w; decide⟩

theorem witness_busy : ∃ s : Block R, s.busy = true := ⟨{ blank with status := 0x01 }, by decide⟩

theorem witness_script : ∃ (commands : List Instr) (s : Block R) (rest : List HostMove),
    s.moves = commands.map scriptCmd ++ rest ∧ commands ≠ [] :=
  ⟨[.rle, .clr], withMoves [scriptCmd .rle, scriptCmd .clr, .readReg 1] blank, [.readReg 1], by decide⟩

theorem witness_clr : ∃ s : Block R, s.busy = false ∧ s.err ≠ 0 :=
  ⟨{ blank with status := 0x80, errinfo := 3 }, by decide⟩

theorem witness_idle : ∃ s : Block R, s.moves = [] ∧ s.done = true := ⟨{ blank with status := 0x02 }, by decide⟩

theorem witness_host_reset : ∃ (s : Block R) (rest : List HostMove), s.moves = .reset :: rest ∧ s.busy = true :=
  ⟨withMoves [.reset] { symsState 5 7 (symsOf [3]) with status := 0x01 }, [], by decide⟩

theorem witness_host_write_register : ∀ n ∈ ([1, 2, 3, 4, 5, 6, 7, 8, 9, 255] : List RegNum),
    ∃ (s : Block R) (v : Nat) (rest : List HostMove), s.moves = .writeReg n v :: rest ∧ n ≠ 0 ∧ s.busy = false ∧
      65536 < v := fun n hn =>
  ⟨withMoves [.writeReg n 65539] blank, 65539, [], rfl, by rintro rfl; simp at hn, (by decide : blank.busy = false), by decide⟩

theorem witness_host_read_register : ∀ n ∈ ([0, 1, 2, 3, 4, 5, 6, 7, 8, 9, 255] : List RegNum),
    ∃ (s : Block R) (rest : List HostMove), s.moves = .readReg n :: rest ∧ s.busy = false := fun n _ =>
  ⟨withMoves [.readReg n] (bitsState 5 (bitsOf "01")), [], rfl, (by decide : blank.busy = false)⟩

/-- Below and at the capacity of each space. -/
theorem witness_host_write_element : ∀ m ∈ ([.writeBitIn 4095 3, .writeBitIn 4096 3, .writeSym 4095 259,
    .writeSym 4096 1, .writeFreq 255 3 65537, .writeFreq 256 1 1, .writeCb 255 3 257 5, .writeCb 256 1 1 1,
    .writePack 4095 2, .writePack 4096 1, .writeBitOut 4095 1, .writeBitOut 4096 1] : List HostMove),
    ∃ (s : Block R) (rest : List HostMove), s.busy = false ∧ s.moves = m :: rest := fun m _ =>
  ⟨withMoves [m] blank, [], (by decide : blank.busy = false), rfl⟩

theorem witness_host_reads : ∀ m ∈ ([.readReg 1, .readBitIn 0, .readSym 4096, .readFreq 0, .readCb 255, .readPack 0,
    .readBitOut 4095] : List HostMove),
    ∃ (s : Block R) (rest : List HostMove), s.moves = m :: m :: rest ∧ isRead m = true := fun m hm =>
  ⟨withMoves [m, m] blank, [], rfl, by revert m; decide⟩

theorem witness_host_reads_written : ∃ (s : Block R) (b : Bool) (x : Sym R) (e : FreqElem R) (c : CbElem R), s.busy = false ∧
    Cells.read s.bitIn 4095 = some b ∧ 4095 < R.BIT_CAP ∧ Cells.read s.sym 4095 = some x ∧ 4095 < R.SYM_CAP ∧
    Cells.read s.freq 255 = some e ∧ 255 < R.N_SYM ∧ Cells.read s.cb 255 = some c ∧
    Cells.read s.pack 4095 = some b ∧ 4095 < R.PACK_CAP ∧ Cells.read s.bitOut 4095 = some b ∧
    s.moves = [.readBitIn 4095] :=
  ⟨withMoves [.readBitIn 4095] { blank with
      bitIn := [(4095, true)], sym := [(4095, 7)], freq := [(255, ⟨true, 3⟩)], cb := [(255, ⟨true, 1, 0⟩)]
      pack := [(4095, true)], bitOut := [(4095, true)] },
    true, 7, ⟨true, 3⟩, ⟨true, 1, 0⟩, by decide⟩

theorem witness_length_above_capacity : ∃ s1 s2 s3 s4 : Block R,
    (Ready s1 ∧ R.BIT_CAP < s1.bitInLen.toNat) ∧ (Ready s2 ∧ R.SYM_CAP < s2.symLen.toNat) ∧
      (Ready s3 ∧ R.BIT_CAP < s3.filesize.toNat) ∧ (Ready s4 ∧ R.PACK_CAP < s4.packLen.toNat) :=
  ⟨{ blank with bitInLen := 4097 }, { blank with symLen := 4097 }, { blank with filesize := 4097 },
    { blank with packLen := 4097 }, by decide⟩

/-- Every command completes in a ready state (V-SYS-10, V-SYS-11, V-BLD-1). -/
theorem witness_every_command : ∀ i : Instr, ∃ s t : Block R, Ready s ∧ exec i ⟨R, s⟩ = .next ⟨R, t⟩ := by
  have reset : Ready blank := by decide
  have next : ∀ i : Instr, i ≠ .build → nextAnd (fun _ => true) (exec i ⟨R, blank⟩) = true := by
    intro i; cases i <;> decide +kernel
  intro i
  by_cases hi : i = .build
  · subst hi
    obtain ⟨t, ht⟩ := exists_next (o := exec .build ⟨R, freqState [(0, 1), (1, 1)]⟩) (by decide +kernel)
    exact ⟨_, t, by decide +kernel, ht⟩
  · obtain ⟨t, ht⟩ := exists_next (next i hi)
    exact ⟨_, t, reset, ht⟩

theorem witness_unwritten_input : ∃ s : Block R, Inv s ∧ s.err = 0 ∧ 0 < s.bitInLen.toNat ∧ Cells.read s.bitIn 0 = none :=
  ⟨{ blank with bitInLen := 1 }, by decide⟩

/-! ## Witnesses: RLE and RLD -/

theorem witness_rle_account : ∃ (s : Block R) (bits : List Bool), Ready s ∧ bits.length = s.bitInLen.toNat ∧
    bits.length ≤ R.BIT_CAP ∧ Loaded s.bitIn bits ∧ 3 ≤ s.maxlen.toNat ∧ bits ≠ [] :=
  ⟨bitsState 3 (bitsOf "0001000"), bitsOf "0001000", by decide +kernel⟩

/-- With MAXLEN - 1 trailing zeros, the most there can be. -/
theorem witness_rle_recover : ∃ (s : Block R) (syms : List (Sym R)) (z : Nat), Ready s ∧ 3 ≤ s.maxlen.toNat ∧
    (∀ r ∈ syms, r.toNat ≤ s.maxlen.toNat) ∧ z < s.maxlen.toNat ∧
    (expandAll s.maxlen.toNat syms ++ List.replicate z false).length = s.bitInLen.toNat ∧
    s.bitInLen.toNat ≤ R.BIT_CAP ∧ Loaded s.bitIn (expandAll s.maxlen.toNat syms ++ List.replicate z false) ∧
    syms ≠ [] :=
  ⟨bitsState 3 (bitsOf "0001" ++ bitsOf "00"), symsOf [3, 0], 2, by decide +kernel⟩

theorem witness_rle_small : ∃ (s s' : Block R) (syms : List (Sym R)),
    (Ready s ∧ s.maxlen.toNat ≤ 2 ∧ (∀ r ∈ syms, r.toNat ≤ 2) ∧ s.bitInLen.toNat ≤ R.BIT_CAP ∧
      (syms.flatMap smallPiece).length = s.bitInLen.toNat ∧ Loaded s.bitIn (syms.flatMap smallPiece)) ∧
    (Ready s' ∧ s'.maxlen.toNat ≤ 2 ∧ s'.bitInLen.toNat ≤ R.BIT_CAP ∧
      (syms.flatMap smallPiece ++ [false]).length = s'.bitInLen.toNat ∧
      Loaded s'.bitIn (syms.flatMap smallPiece ++ [false])) :=
  ⟨bitsState 2 (bitsOf "0100"), bitsState 0 (bitsOf "01000"), symsOf [1, 2], by decide +kernel⟩

/-- An expansion of exactly FILESIZE bits. -/
theorem witness_rld_expand : ∃ (s : Block R) (syms : List (Sym R)), Ready s ∧ syms.length = s.symLen.toNat ∧
    syms.length ≤ R.SYM_CAP ∧ Loaded s.sym syms ∧ s.filesize.toNat ≤ R.BIT_CAP ∧
    (∀ r ∈ syms, r.toNat ≤ s.maxlen.toNat) ∧
    (expandAll s.maxlen.toNat syms).length ≤ s.filesize.toNat ∧ syms ≠ [] :=
  ⟨symsState 5 6 (symsOf [5, 0]), symsOf [5, 0], by decide +kernel⟩

/-- V-RLD-12, where a later symbol is out of range; one bit too many; and exactly FILESIZE bits. -/
theorem witness_rld_mismatch : ∃ (s s' s'' : Block R) (syms syms' : List (Sym R)),
    (Ready s ∧ syms.length = s.symLen.toNat ∧ syms.length ≤ R.SYM_CAP ∧ Loaded s.sym syms ∧ s.filesize.toNat ≤ R.BIT_CAP ∧
      0 < syms.length ∧ (∀ r ∈ syms.take 1, r.toNat ≤ s.maxlen.toNat) ∧
      s.filesize.toNat < (expandAll s.maxlen.toNat (syms.take 1)).length) ∧
    (Ready s' ∧ syms'.length = s'.symLen.toNat ∧ syms'.length ≤ R.SYM_CAP ∧ Loaded s'.sym syms' ∧
      s'.filesize.toNat ≤ R.BIT_CAP ∧ (∀ r ∈ syms', r.toNat ≤ s'.maxlen.toNat) ∧
      s'.filesize.toNat + 1 = (expandAll s'.maxlen.toNat syms').length) ∧
    (Ready s'' ∧ syms'.length = s''.symLen.toNat ∧ syms'.length ≤ R.SYM_CAP ∧ Loaded s''.sym syms' ∧
      s''.filesize.toNat ≤ R.BIT_CAP ∧ (∀ r ∈ syms', r.toNat ≤ s''.maxlen.toNat) ∧
      (expandAll s''.maxlen.toNat syms').length = s''.filesize.toNat) :=
  ⟨symsState 5 4 (symsOf [4, 6]), symsState 5 5 (symsOf [5, 0]), symsState 5 6 (symsOf [5, 0]), symsOf [4, 6],
    symsOf [5, 0], by decide +kernel, by decide +kernel, by decide +kernel⟩

theorem witness_rld_range : ∃ (s : Block R) (before : List (Sym R)) (r : Sym R), Ready s ∧ before.length < s.symLen.toNat ∧
    s.symLen.toNat ≤ R.SYM_CAP ∧ Loaded s.sym (before ++ [r]) ∧ s.filesize.toNat ≤ R.BIT_CAP ∧
    (∀ x ∈ before, x.toNat ≤ s.maxlen.toNat) ∧ s.maxlen.toNat < r.toNat ∧
    (expandAll s.maxlen.toNat before).length ≤ s.filesize.toNat :=
  ⟨symsState 5 5 (symsOf [4, 6]), symsOf [4], 6, by decide +kernel⟩

/-- With MAXLEN 2, where RLE can fault but does not, and with MAXLEN 3; the decoder is another block that holds the symbols
alone. -/
theorem witness_rld_inverts_rle : ∀ m syms, m = 2 ∧ syms = symsOf [1, 2] ∨ m = 3 ∧ syms = symsOf [1] →
    ∃ (s t v : Block R) (bits : List Bool), Ready s ∧ bits.length = s.bitInLen.toNat ∧ bits.length ≤ R.BIT_CAP ∧
      Loaded s.bitIn bits ∧ 2 ≤ s.maxlen.toNat ∧ exec .rle ⟨R, s⟩ = .next ⟨R, t⟩ ∧ t.err ≠ FaultKind.outOfData.code ∧ Ready v ∧
      v.symLen = t.symLen ∧ SameBelow t.symLen.toNat v.sym t.sym ∧ v.maxlen = s.maxlen ∧
      v.filesize.toNat = bits.length := by
  intro m syms h
  have run : nextAnd (fun t => t.err == 0 && t.symLen == BitVec.ofNat _ syms.length &&
      decide (SameBelow t.symLen.toNat (symsState m 4 syms).sym t.sym))
      (exec .rle ⟨R, bitsState m (bitsOf "0100")⟩) = true := by
    rcases h with ⟨rfl, rfl⟩ | ⟨rfl, rfl⟩ <;> decide +kernel
  obtain ⟨t, ht, hp⟩ := exists_of_nextAnd run
  simp only [Bool.and_eq_true, beq_iff_eq, decide_eq_true_eq] at hp
  obtain ⟨⟨h1, h2⟩, h3⟩ := hp
  refine ⟨_, t, symsState m 4 syms, bitsOf "0100", ?_, rfl, by decide, ?_, ?_, ht, by rw [h1]; decide, ?_, ?_, h3, rfl,
    rfl⟩
  · rcases h with ⟨rfl, rfl⟩ | ⟨rfl, rfl⟩ <;> decide +kernel
  · rcases h with ⟨rfl, rfl⟩ | ⟨rfl, rfl⟩ <;> decide +kernel
  · rcases h with ⟨rfl, rfl⟩ | ⟨rfl, rfl⟩ <;> decide
  · rcases h with ⟨rfl, rfl⟩ | ⟨rfl, rfl⟩ <;> decide +kernel
  · rw [h2]; rfl

/-! ## Witnesses: FCNT and BUILD -/

theorem witness_fcnt : ∃ (s : Block R) (syms : List (Sym R)), Ready s ∧ syms.length = s.symLen.toNat ∧
    syms.length ≤ R.SYM_CAP ∧ Loaded s.sym syms ∧ syms ≠ [] :=
  ⟨symsState 0 0 (symsOf [255, 0, 255]), symsOf [255, 0, 255], by decide +kernel⟩

/-- A ready block with all of FREQ loaded, whose keys are the lowest and the highest symbol (V-BLD-13). -/
def twoKeys : Block R := freqState [(0, 1), (255, 1)]

theorem read_twoKeys (x : Sym R) : Cells.read twoKeys.freq x.toNat =
    some (if x = 0 ∨ x = 255 then ⟨true, 1⟩ else ⟨false, 0⟩) := by
  rw [twoKeys, read_freqState]
  by_cases h : x = 0 ∨ x = 255
  · rcases h with rfl | rfl <;> rfl
  · rw [if_neg h, lookup_other (by simpa using h)]

theorem isKey_twoKeys (x : Sym R) : twoKeys.isKey x ↔ x = 0 ∨ x = 255 := by
  unfold Block.isKey
  rw [read_twoKeys x]
  split <;> simp_all

theorem ready_twoKeys : Ready twoKeys ∧ Written twoKeys.freq R.N_SYM := ⟨by decide +kernel, written_freqState _⟩

/-- A ready block with all of FREQ loaded and no key (V-BLD-4). -/
def noKeys : Block R := freqState []

theorem witness_build_no_keys : Ready noKeys ∧ Written noKeys.freq R.N_SYM ∧ ∀ x, ¬ noKeys.isKey x := by
  refine ⟨by decide +kernel, written_freqState _, ?_⟩
  rintro x ⟨wt, h⟩
  rw [noKeys, read_freqState] at h
  simp at h

theorem witness_build_keys : ∃ s : Block R, Ready s ∧ Written s.freq R.N_SYM ∧ ∃ x, s.isKey x :=
  ⟨twoKeys, ready_twoKeys.1, ready_twoKeys.2, 255, (isKey_twoKeys 255).2 (.inr rfl)⟩

/-- V-BLD-3. -/
theorem witness_build_one_key : ∃ (s : Block R) (x : Sym R), Ready s ∧ Written s.freq R.N_SYM ∧ ∀ y, s.isKey y ↔ y = x := by
  refine ⟨freqState [(7, 10)], 7, by decide +kernel, written_freqState _, ?_⟩
  intro y
  unfold Block.isKey
  rw [read_freqState]
  by_cases h : y = 7
  · subst h; exact ⟨fun _ => rfl, fun _ => ⟨10, rfl⟩⟩
  · rw [lookup_other (by simpa using h)]; simpa using h

theorem next_twoKeys : ∃ t, exec .build ⟨R, twoKeys⟩ = .next ⟨R, t⟩ ∧ t.err = 0 := by
  obtain ⟨t, h, he⟩ := exists_of_nextAnd (p := fun t => t.err == 0) (o := exec .build ⟨R, twoKeys⟩) (by decide +kernel)
  exact ⟨t, h, by simpa using he⟩

theorem witness_build_wellFormed : ∃ s t : Block R, Ready s ∧ Written s.freq R.N_SYM ∧ exec .build ⟨R, s⟩ = .next ⟨R, t⟩ ∧
    t.err = 0 := by
  obtain ⟨t, h, he⟩ := next_twoKeys
  exact ⟨twoKeys, t, ready_twoKeys.1, ready_twoKeys.2, h, he⟩

theorem witness_build_complete : ∃ (s t : Block R) (x y : Sym R), Ready s ∧ Written s.freq R.N_SYM ∧ s.isKey x ∧
    s.isKey y ∧ x ≠ y ∧ exec .build ⟨R, s⟩ = .next ⟨R, t⟩ := by
  obtain ⟨t, h, -⟩ := next_twoKeys
  exact ⟨twoKeys, t, 0, 255, ready_twoKeys.1, ready_twoKeys.2, (isKey_twoKeys 0).2 (.inl rfl),
    (isKey_twoKeys 255).2 (.inr rfl), by decide, h⟩

/-- Two states that differ in TREE and the rest of BUILD's internal state. -/
theorem witness_build_function : ∃ s s' t t' : Block R, Ready s ∧ Ready s' ∧ Written s.freq R.N_SYM ∧
    SameReads s.freq s'.freq ∧ exec .build ⟨R, s⟩ = .next ⟨R, t⟩ ∧ exec .build ⟨R, s'⟩ = .next ⟨R, t'⟩ ∧ t.err = 0 ∧
    s.htb ≠ s'.htb := by
  obtain ⟨t, h, he⟩ := next_twoKeys
  obtain ⟨t', h'⟩ := exists_next (o := exec .build ⟨R, { twoKeys with htb := { Htb.reset R with treeN := 9 } }⟩)
    (by decide +kernel)
  exact ⟨twoKeys, { twoKeys with htb := { Htb.reset R with treeN := 9 } }, t, t', ready_twoKeys.1, ready_twoKeys.1,
    ready_twoKeys.2, fun _ => rfl, h, h', he, by decide⟩

theorem witness_phase_one : ∃ (ks ls : List (Sym R × Nat)) (x : Sym R) (wt : Nat), 2 ≤ ks.length ∧ ls = [(x, wt)] ∧ ls ≠ [] :=
  ⟨[(0, 1), (255, 1)], [(7, 10)], 7, 10, by decide⟩

/-- The elements of FREQ of `twoKeys`. -/
def twoKeysTable : List (FreqElem R) := (List.range R.N_SYM).map fun i => if i = 0 ∨ i = 255 then ⟨true, 1⟩ else ⟨false, 0⟩

theorem getElem?_twoKeysTable (x : Sym R) :
    twoKeysTable[x.toNat]? = some (if x = 0 ∨ x = 255 then ⟨true, 1⟩ else ⟨false, 0⟩) := by
  have hx : x.toNat < R.N_SYM := x.isLt
  have h0 : x = 0 ↔ x.toNat = 0 := BitVec.toNat_inj.symm
  have h1 : x = 255 ↔ x.toNat = 255 := BitVec.toNat_inj.symm
  simp only [twoKeysTable, List.getElem?_map, List.getElem?_range hx, Option.map_some, h0, h1]

theorem loaded_twoKeysTable : Loaded twoKeys.freq twoKeysTable := by
  intro k hk
  have hk' : k < R.N_SYM := by simpa [twoKeysTable] using hk
  have := (read_twoKeys (BitVec.ofNat _ k)).trans (getElem?_twoKeysTable _).symm
  rwa [toNat_symOf hk'] at this

/-- A ready block with all of FREQ loaded and a key. -/
theorem witness_build_phases : ∃ (s : Block R) (es : List (FreqElem R)), Ready s ∧ es.length = R.N_SYM ∧
    Loaded s.freq es ∧ keysFrom 0 es ≠ [] :=
  ⟨twoKeys, twoKeysTable, ready_twoKeys.1, by simp [twoKeysTable], loaded_twoKeysTable,
    List.ne_nil_of_mem (mem_keysFrom.2 ⟨255, ⟨true, 1⟩, getElem?_twoKeysTable 255, rfl, rfl, rfl⟩)⟩

/-- A table of full length, whose second and last key is its last element. -/
theorem witness_phase_one_keys : ∃ es : List (FreqElem R), es.length ≤ R.N_SYM ∧
    (keysFrom 0 es)[1]? = some (255, 1) ∧ (keysFrom 0 es)[0]? = some (0, 1) :=
  ⟨twoKeysTable, by decide +kernel⟩

/-- A queue of exactly two entries and one of three. -/
theorem witness_merge : ∀ q : List (QEntry R), q = [] ∨ q = [⟨7, 2, .leaf 9⟩] →
    ∃ (h : Htb R) (e1 e2 : QEntry R), h.queue = e1 :: e2 :: q :=
  fun q _ => ⟨⟨[], 0, .leaf 0, ⟨1, 0, .leaf 3⟩ :: ⟨1, 1, .leaf 4⟩ :: q, 3⟩, ⟨1, 0, .leaf 3⟩, ⟨1, 1, .leaf 4⟩, rfl⟩

/-- An entry of one merge, for the bound of its weight and for the sum of its leaves' weights. -/
theorem witness_queue_weights : ∃ (es : List (FreqElem R)) (e : QEntry R), es.length ≤ R.N_SYM ∧
    e ∈ (mergeLoop 1 (phase1Start (keysFrom 0 es) (Htb.reset R))).queue :=
  ⟨[⟨true, 65535⟩, ⟨true, 65535⟩], ⟨131070, 2, .node 0⟩, by decide⟩

theorem witness_codeword_path : ∃ (es : List (FreqElem R)) (x : Sym R) (wt : Nat), es.length = R.N_SYM ∧
    2 ≤ (keysFrom 0 es).length ∧ (x, wt) ∈ keysFrom 0 es :=
  ⟨twoKeysTable, 255, 1, by decide +kernel⟩

/-! ## Witnesses: PACK and UNPK -/

/-- A ready block with all of CB loaded: "0" for symbol 1 and "01" for symbol 255, which is not prefix-free. -/
def openBook (syms : List (Sym R)) (packed : List Bool) : Block R := bookState [(1, "0"), (255, "01")] syms packed

/-- A ready block with all of CB loaded: "0" for symbol 1 and "10" for symbol 255, a codebook that meets R157. -/
def shutBook (syms : List (Sym R)) (packed : List Bool) : Block R := bookState [(1, "0"), (255, "10")] syms packed

theorem code_openBook (syms : List (Sym R)) (packed : List Bool) (x : Sym R) : (openBook syms packed).code x =
    if x = 1 then some [false] else if x = 255 then some [false, true] else none := by
  unfold Block.code openBook
  rw [read_bookState]
  by_cases h1 : x = 1
  · subst h1; rfl
  by_cases h2 : x = 255
  · subst h2; rfl
  rw [lookup_other (by simpa using ⟨h1, h2⟩), if_neg h1, if_neg h2]
  rfl

theorem code_shutBook (syms : List (Sym R)) (packed : List Bool) (x : Sym R) : (shutBook syms packed).code x =
    if x = 1 then some [false] else if x = 255 then some [true, false] else none := by
  unfold Block.code shutBook
  rw [read_bookState]
  by_cases h1 : x = 1
  · subst h1; rfl
  by_cases h2 : x = 255
  · subst h2; rfl
  rw [lookup_other (by simpa using ⟨h1, h2⟩), if_neg h1, if_neg h2]
  rfl

theorem code_openBook_cases {syms : List (Sym R)} {packed : List Bool} {x : Sym R} {w : List Bool}
    (h : (openBook syms packed).code x = some w) : x = 1 ∧ w = [false] ∨ x = 255 ∧ w = [false, true] := by
  rw [code_openBook] at h
  split at h
  · exact .inl ⟨‹_›, (Option.some.inj h).symm⟩
  · split at h
    · exact .inr ⟨‹_›, (Option.some.inj h).symm⟩
    · cases h

theorem wellFormed_shutBook (syms : List (Sym R)) (packed : List Bool) : Codebook.WellFormed (shutBook syms packed) := by
  have two : ∀ x w, (shutBook syms packed).code x = some w → x = 1 ∧ w = [false] ∨ x = 255 ∧ w = [true, false] := by
    intro x w h
    rw [code_shutBook] at h
    split at h
    · exact .inl ⟨‹_›, (Option.some.inj h).symm⟩
    · split at h
      · exact .inr ⟨‹_›, (Option.some.inj h).symm⟩
      · cases h
  refine ⟨?_, ?_, ?_⟩
  · intro x y w hx hy
    rcases two x w hx with ⟨rfl, rfl⟩ | ⟨rfl, rfl⟩ <;> rcases two y _ hy with ⟨rfl, h⟩ | ⟨rfl, h⟩ <;> first | rfl | cases h
  · intro x y v w hx hy h
    rcases two x v hx with ⟨rfl, rfl⟩ | ⟨rfl, rfl⟩ <;> rcases two y w hy with ⟨rfl, rfl⟩ | ⟨rfl, rfl⟩ <;>
      first | rfl | (revert h; decide)
  · intro x hx
    rcases two x [] hx with ⟨-, h⟩ | ⟨-, h⟩ <;> cases h

theorem witness_pack : ∃ (s t : Block R) (syms : List (Sym R)) (bits : List Bool), Ready s ∧ syms.length = s.symLen.toNat ∧
    Loaded s.sym syms ∧ syms.length ≤ R.SYM_CAP ∧ s.codeAll syms = some bits ∧ bits.length ≤ R.PACK_CAP ∧ syms ≠ [] ∧
    exec .pack ⟨R, s⟩ = .next ⟨R, t⟩ ∧ t.err = 0 := by
  obtain ⟨t, ht, he⟩ := exists_of_nextAnd (p := fun t => t.err == 0)
    (o := exec .pack ⟨R, shutBook (symsOf [255, 1]) []⟩) (by decide +kernel)
  exact ⟨_, t, symsOf [255, 1], bitsOf "100", ready_bookState _ (by decide) (by decide), by decide,
    loaded_bookState _ _ _, by decide, by decide +kernel, by decide, by decide, ht, by simpa using he⟩

theorem witness_pack_unknown : ∃ (s : Block R) (before : List (Sym R)) (x : Sym R) (bits : List Bool) (e : CbElem R), Ready s ∧
    before.length < s.symLen.toNat ∧ s.symLen.toNat ≤ R.SYM_CAP ∧ Loaded s.sym (before ++ [x]) ∧
    s.codeAll before = some bits ∧ bits.length ≤ R.PACK_CAP ∧ Cells.read s.cb x.toNat = some e ∧ e.valid = false :=
  ⟨shutBook (symsOf [255, 9]) [], symsOf [255], 9, bitsOf "10", ⟨false, 0, 0⟩, by decide +kernel⟩

theorem codeAll_replicate {s : Block R} {x : Sym R} {w : List Bool} (h : s.code x = some w) (n : Nat) :
    s.codeAll (List.replicate n x) = some (List.replicate n w).flatten := by
  induction n with
  | zero => rfl
  | succ n ih => simp [List.replicate_succ, Block.codeAll, h, ih]

/-- 2048 codewords of two bits fill PACK to its last bit, and no bit is left for another symbol. -/
theorem witness_pack_capacity : ∃ (s : Block R) (before : List (Sym R)) (x : Sym R) (bits w : List Bool), Ready s ∧
    before.length < s.symLen.toNat ∧ s.symLen.toNat ≤ R.SYM_CAP ∧ Loaded s.sym (before ++ [x]) ∧
    s.codeAll before = some bits ∧ bits.length ≤ R.PACK_CAP ∧ s.code x = some w ∧
    R.PACK_CAP < bits.length + w.length := by
  refine ⟨shutBook (List.replicate 2048 255 ++ [1]) [], List.replicate 2048 255, 1,
    (List.replicate 2048 [true, false]).flatten, [false], ready_bookState _ ?_ (by simp), ?_, ?_, loaded_bookState _ _ _,
    codeAll_replicate ?_ 2048, ?_, ?_, ?_⟩
  · rw [List.length_append, List.length_replicate]; decide
  · simp only [shutBook, bookState, List.length_append, List.length_replicate]; decide
  · simp only [shutBook, bookState, List.length_append, List.length_replicate]; decide
  · rw [code_shutBook]; decide
  · rw [List.length_flatten, List.map_replicate, List.sum_replicate]; decide
  · rw [code_shutBook]; decide
  · rw [List.length_flatten, List.map_replicate, List.sum_replicate]; decide

/-- With nothing left over, and with the one bit "1" left over. -/
theorem witness_unpk : ∀ tail ∈ [[], [true]], ∃ (s : Block R) (syms : List (Sym R)) (bits : List Bool), Ready s ∧
    Written s.cb R.N_SYM ∧ Codebook.WellFormed s ∧ s.codeAll syms = some bits ∧ NoCodewordStarts s tail ∧
    (bits ++ tail).length = s.packLen.toNat ∧ s.packLen.toNat ≤ R.PACK_CAP ∧ Loaded s.pack (bits ++ tail) ∧ syms ≠ [] := by
  have none : ∀ packed tail, tail = [] ∨ tail = [true] → NoCodewordStarts (shutBook [] packed) tail := by
    intro packed tail ht v x hv hpre hx
    rw [code_shutBook] at hx
    have hlen := hpre.length_le
    rcases ht with rfl | rfl
    · exact hv (List.prefix_nil.1 hpre)
    · split at hx
      · cases hx; revert hpre; decide
      · split at hx
        · cases hx; simp at hlen
        · cases hx
  intro tail ht
  simp only [List.mem_cons, List.not_mem_nil, or_false] at ht
  refine ⟨shutBook [] (bitsOf "100" ++ tail), symsOf [255, 1], bitsOf "100", ?_, written_bookState _ _ _,
    wellFormed_shutBook _ _, ?_, none _ _ ht, ?_, ?_, ?_, by decide⟩
  all_goals rcases ht with rfl | rfl <;> decide +kernel

/-- The codebook is not prefix-free: "0" starts "01". -/
theorem witness_unpk_shortest : ∃ (s : Block R) (syms : List (Sym R)) (bits : List Bool), Ready s ∧ Written s.cb R.N_SYM ∧
    Codebook.Injective s ∧ Codebook.NoEmpty s ∧ s.codeAll syms = some bits ∧
    (∀ x ∈ syms, ∀ w v, s.code x = some w → v <+: w → v ≠ [] → v ≠ w → ∀ y, s.code y ≠ some v) ∧
    bits.length = s.packLen.toNat ∧ bits.length ≤ R.PACK_CAP ∧ Loaded s.pack bits ∧ ¬ Codebook.PrefixFree s := by
  refine ⟨openBook [] [false, false], [1, 1], [false, false], by decide +kernel, (written_bookState _ _ _), ?_, ?_,
    by decide +kernel, ?_, by decide, by decide, by decide, ?_⟩
  · intro x y w hx hy
    rcases code_openBook_cases hx with ⟨rfl, rfl⟩ | ⟨rfl, rfl⟩ <;>
      rcases code_openBook_cases hy with ⟨rfl, h⟩ | ⟨rfl, h⟩ <;> first | rfl | cases h
  · intro x hx
    rcases code_openBook_cases hx with ⟨-, h⟩ | ⟨-, h⟩ <;> cases h
  · intro x hx w v hw hpre hne hvw
    obtain rfl : x = 1 := by simpa using hx
    rw [code_openBook, if_pos rfl] at hw
    cases hw
    obtain ⟨r, hr⟩ := hpre
    match v, hne with
    | b :: v', _ =>
      simp only [List.cons_append, List.cons.injEq, List.append_eq_nil_iff] at hr
      exact absurd (by rw [hr.1, hr.2.1]) hvw
  · intro h
    have := h 1 255 [false] [false, true] (by rw [code_openBook]; decide) (by rw [code_openBook]; decide) (by decide)
    revert this; decide

/-- Where every element of CB matches. -/
theorem witness_match : ∃ es : List (CbElem R), es.length = R.N_SYM := ⟨List.replicate R.N_SYM ⟨true, 1, 0⟩, by simp⟩

/-- The decoder is another block that holds the codebook and the bitstring alone. -/
theorem witness_unpk_inverts_pack : ∃ (s t v : Block R) (syms : List (Sym R)), Ready s ∧ Written s.cb R.N_SYM ∧
    Codebook.WellFormed s ∧ syms.length = s.symLen.toNat ∧ Loaded s.sym syms ∧ exec .pack ⟨R, s⟩ = .next ⟨R, t⟩ ∧ t.err = 0 ∧
    Ready v ∧ v.packLen = t.packLen ∧ SameBelow t.packLen.toNat v.pack t.pack ∧ SameReads v.cb s.cb := by
  obtain ⟨t, h, hp⟩ := exists_of_nextAnd
    (p := fun t => t.err == 0 && t.packLen == 3 &&
      decide (SameBelow t.packLen.toNat (shutBook [] (bitsOf "100")).pack t.pack))
    (o := exec .pack ⟨R, shutBook (symsOf [255, 1]) []⟩) (by decide +kernel)
  simp only [Bool.and_eq_true, beq_iff_eq, decide_eq_true_eq] at hp
  obtain ⟨⟨h1, h2⟩, h3⟩ := hp
  exact ⟨shutBook (symsOf [255, 1]) [], t, shutBook [] (bitsOf "100"), symsOf [255, 1],
    ready_bookState _ (by decide) (by decide), written_bookState _ _ _, wellFormed_shutBook _ _, by decide,
    loaded_bookState _ _ _, h, h1, ready_bookState _ (by decide) (by decide), by rw [h2]; rfl, h3, fun _ => rfl⟩

/-! ## Witnesses: whole-machine rules and the codec -/

/-- Contents beyond the length registers that differ. -/
theorem witness_beyond_length : ∃ s b y p : Block R, Inv s ∧ Inv b ∧ Inv y ∧ Inv p ∧
    (b = { s with bitIn := b.bitIn } ∧ (∀ k, k < s.bitInLen.toNat → Cells.read b.bitIn k = Cells.read s.bitIn k) ∧
      b.bitIn ≠ s.bitIn) ∧
    (y = { s with sym := y.sym } ∧ (∀ k, k < s.symLen.toNat → Cells.read y.sym k = Cells.read s.sym k) ∧
      y.sym ≠ s.sym) ∧
    (p = { s with pack := p.pack } ∧ (∀ k, k < s.packLen.toNat → Cells.read p.pack k = Cells.read s.pack k) ∧
      p.pack ≠ s.pack) :=
  ⟨{ blank with bitIn := [(0, true)], bitInLen := 1, sym := [(0, 3)], symLen := 1, pack := [(0, true)], packLen := 1 },
    { blank with
      bitIn := [(0, true), (1, false)], bitInLen := 1, sym := [(0, 3)], symLen := 1, pack := [(0, true)], packLen := 1 },
    { blank with
      bitIn := [(0, true)], bitInLen := 1, sym := [(0, 3), (4095, 1)], symLen := 1, pack := [(0, true)], packLen := 1 },
    { blank with
      bitIn := [(0, true)], bitInLen := 1, sym := [(0, 3)], symLen := 1, pack := [(0, true), (9, true)], packLen := 1 },
    by decide +kernel⟩

/-- A step of a machine with other parameters. -/
theorem witness_parameters : ∃ s t : State, s.params = small ∧ step s = .next t ∧ t ≠ s :=
  ⟨⟨small, { Block.reset small with moves := [.writeReg 3 5] }⟩, ⟨small, { Block.reset small with maxlen := 1, free := 2 }⟩,
    rfl, rfl, by decide⟩

theorem witness_step : ∃ s t : Block R, Inv s ∧ step ⟨R, s⟩ = .next ⟨R, t⟩ ∧ t ≠ s :=
  ⟨withMoves [.writeReg 3 5] blank, { blank with maxlen := 5, free := 2 }, by decide, rfl, by decide⟩

theorem witness_counted_codebook : ∃ (s : Block R) (syms : List (Sym R)), Ready s ∧
    syms.length = s.symLen.toNat ∧ syms.length ≤ R.SYM_CAP ∧ syms ≠ [] ∧ Loaded s.sym syms :=
  ⟨symsState 5 0 (symsOf [3, 2, 3]), symsOf [3, 2, 3], by decide +kernel⟩

/-- No bit at all with MAXLEN 0, and the most zeros that give no symbol, MAXLEN - 1 of them. -/
theorem witness_encode_no_symbol : ∀ m n : Nat, m = 0 ∧ n = 0 ∨ m = 5 ∧ n = 4 → ∃ s : Block R, Ready s ∧
    (n = 0 ∨ 3 ≤ s.maxlen.toNat ∧ n < s.maxlen.toNat) ∧ n = s.bitInLen.toNat ∧
    Loaded s.bitIn (List.replicate n false) ∧
    nextAnd (fun t => t.packLen == 0) (execAll encodeCbCommands ⟨R, s⟩) = true := by
  intro m n h
  refine ⟨bitsState m (List.replicate n false), ?_⟩
  rcases h with ⟨rfl, rfl⟩ | ⟨rfl, rfl⟩ <;> decide +kernel

theorem witness_decode_no_symbol : ∃ v : Block R, Ready v ∧ v.packLen = 0 ∧ v.filesize.toNat = R.BIT_CAP :=
  ⟨{ blank with filesize := 4096 }, by decide⟩

/-- The input of V-E2E-1. -/
def codecBits : List Bool := bitsOf "00010010001000000001100"

/-- A state that commands lead to from a ready one is ready if its STATUS and ERRINFO are those of a command that ended. -/
theorem ready_execAll {is : List Instr} {s t : Block R} (h : Ready s) (ht : execAll is ⟨R, s⟩ = .next ⟨R, t⟩)
    (hd : EndedDone t) : Ready t :=
  have hb := endedDone_busy hd
  have he := endedDone_err hd
  ⟨⟨wf_execAll h.1.1 ht, hb, by rw [hd.1]; decide, by rw [he]; decide, fun _ => he, fun _ => hd.2⟩, he⟩

/-- The block after encoding, with the decoder's FILESIZE. -/
theorem witness_codec : ∃ (s t v : Block R) (bits : List Bool), Ready s ∧ bits.length = s.bitInLen.toNat ∧
    bits.length ≤ R.BIT_CAP ∧ Loaded s.bitIn bits ∧ 3 ≤ s.maxlen.toNat ∧
    execAll encodeCommands ⟨R, s⟩ = .next ⟨R, t⟩ ∧ t.err = 0 ∧ Ready v ∧ v.packLen = t.packLen ∧
    SameBelow t.packLen.toNat v.pack t.pack ∧ SameReads v.cb t.cb ∧ v.maxlen = s.maxlen ∧
    v.filesize.toNat = bits.length := by
  obtain ⟨t, h, hp⟩ := exists_of_nextAnd (p := fun t => decide (EndedDone t) && t.maxlen == 5)
    (o := execAll encodeCommands ⟨R, bitsState 5 codecBits⟩) (by decide +kernel)
  simp only [Bool.and_eq_true, beq_iff_eq, decide_eq_true_eq] at hp
  have hs : Ready (bitsState 5 codecBits) := by decide +kernel
  have hv : Ready t := ready_execAll hs h hp.1
  exact ⟨bitsState 5 codecBits, t, { t with filesize := 23 }, codecBits, hs, by decide +kernel, by decide,
    by decide +kernel, by decide, h, endedDone_err hp.1, hv, rfl, fun _ _ => rfl, fun _ => rfl, hp.2, rfl⟩

/-- The same with a codebook that the host has loaded. -/
theorem witness_codec_codebook : ∃ (s t v : Block R) (bits : List Bool), Ready s ∧ bits.length = s.bitInLen.toNat ∧
    bits.length ≤ R.BIT_CAP ∧ Loaded s.bitIn bits ∧ 3 ≤ s.maxlen.toNat ∧ Written s.cb R.N_SYM ∧ Codebook.WellFormed s ∧
    execAll encodeCbCommands ⟨R, s⟩ = .next ⟨R, t⟩ ∧ t.err = 0 ∧ Ready v ∧ v.packLen = t.packLen ∧
    SameBelow t.packLen.toNat v.pack t.pack ∧ SameReads v.cb t.cb ∧ v.maxlen = s.maxlen ∧
    v.filesize.toNat = bits.length := by
  let s : Block R := { shutBook [] [] with maxlen := 3, bitIn := cells (bitsOf "0101"), bitInLen := 4 }
  obtain ⟨t, h, hp⟩ := exists_of_nextAnd (p := fun t => decide (EndedDone t) && t.maxlen == 3)
    (o := execAll encodeCbCommands ⟨R, s⟩) (by decide +kernel)
  simp only [Bool.and_eq_true, beq_iff_eq, decide_eq_true_eq] at hp
  have hs : Ready s := by decide +kernel
  have hv : Ready t := ready_execAll hs h hp.1
  exact ⟨s, t, { t with filesize := 4 }, bitsOf "0101", hs, by decide, by decide, by decide, by decide,
    written_bookState _ [] [], wellFormed_shutBook [] [], h, endedDone_err hp.1, hv, rfl, fun _ _ => rfl, fun _ => rfl, hp.2,
    rfl⟩

end Sys2Proof.Tests
end

section
/-! SUPPORT. What a command, a move of the host and a step can do, said once each (R205 to R211 of
47_system_commands.md, R224 of 60_exceptions.md, R46 of 10_state.md). -/

namespace Sys2Proof.Machine

open Config

variable {P : Params}

/-! ## Commands -/

/-- `u` is `s` with values written in the "writes" column of command `i` in R45, and nowhere else. -/
def WritesOutputs (i : Instr) (s u : Block P) : Prop :=
  match i with
  | .rle | .unpk => ∃ xs n, u = s.setSym xs n
  | .rld => ∃ xs n, u = s.setBitOut xs n
  | .fcnt => ∃ c, u = s.setFreq c
  | .build => ∃ c, u = s.setCb c
  | .pack => ∃ xs n, u = s.setPack xs n
  | .clr => u = s

theorem writesOutputs_forgetOutputs (i : Instr) (s : Block P) : WritesOutputs i s (s.forgetOutputs i) := by
  cases i
  case rle | rld | pack | unpk => exact ⟨_, _, rfl⟩
  case fcnt | build => exact ⟨_, rfl⟩
  case clr => rfl

/-- Setting DONE and writing the outputs commute. -/
theorem WritesOutputs.complete {i : Instr} {s u : Block P} (h : WritesOutputs i s u) :
    WritesOutputs i s.complete u.complete := by
  cases i
  case rle | rld | pack | unpk => obtain ⟨xs, n, rfl⟩ := h; exact ⟨xs, n, rfl⟩
  case fcnt | build => obtain ⟨c, rfl⟩ := h; exact ⟨c, rfl⟩
  case clr => exact congrArg _ h

theorem WritesOutputs.status_errinfo {i : Instr} {s u : Block P} (h : WritesOutputs i s u) :
    u.status = s.status ∧ u.errinfo = s.errinfo := by
  cases i
  case rle | rld | pack | unpk => obtain ⟨xs, n, rfl⟩ := h; exact ⟨rfl, rfl⟩
  case fcnt | build => obtain ⟨c, rfl⟩ := h; exact ⟨rfl, rfl⟩
  case clr => cases h; exact ⟨rfl, rfl⟩

/-- The ways in which command `i`, given in state `s`, can leave a next state. -/
inductive CommandEnd (i : Instr) (s : Block P) : Block P → Prop where
  /-- Ignored while BUSY (R211) or, other than CLR, while a fault is latched (R206). -/
  | ignored (h : s.busy = true ∨ i ≠ .clr ∧ s.err ≠ 0) : CommandEnd i s s
  /-- CLR (R209). -/
  | cleared (hi : i = .clr) (hb : s.busy = false) : CommandEnd i s s.clearFault
  /-- The command ends without a fault (R208). -/
  | done (u : Block P) (hi : i ≠ .clr) (hb : s.busy = false) (he : s.err = 0) (hu : WritesOutputs i s.accept u) :
      CommandEnd i s (u.complete.release i)
  /-- The command raises a fault (R224). -/
  | raised (f : FaultKind) (info : Nat) (hi : i ≠ .clr) (hb : s.busy = false) (he : s.err = 0) :
      CommandEnd i s (s.accept.raise i f info)

/-- A command whose body commits its own outputs only ends in one of the ways of `CommandEnd`. -/
theorem commandEnd_of_gate {β : Type} {i : Instr} {s t : Block P} {body : Block P → BlockResult P}
    {commit : Block P → β → Block P → Block P} {scan : Block P → Scan β} (hi : i ≠ .clr)
    (hbody : ∀ a, body a = endCommand i a (commit a) (scan a))
    (hc : ∀ a out, WritesOutputs i a (commit a out a)) (h : commandGate s body = .next t) : CommandEnd i s t := by
  rcases commandGate_cases s body with ⟨hg, hn⟩ | ⟨hg, hb, he⟩
  · cases hg.symm.trans h
    exact .ignored (hn.imp_right (⟨hi, ·⟩))
  · rcases endCommand_cases ((hbody _).symm.trans (hg.symm.trans h)) with ⟨w, out, -, rfl⟩ | ⟨f, info, -, rfl⟩
    · exact .done _ hi hb he (hc _ out)
    · exact .raised f info hi hb he

/-- What a command can do. -/
theorem exec_end {i : Instr} {s t : Block P} (h : exec i ⟨P, s⟩ = .next ⟨P, t⟩) : CommandEnd i s t := by
  rw [exec_block, liftBlock_eq_next_mk] at h
  cases i <;> simp only [blockExec] at h
  case clr =>
    cases hb : s.busy <;> simp only [hb] at h <;> cases h
    · exact .cleared rfl hb
    · exact .ignored (.inl hb)
  case rle | rld | pack | unpk => exact commandEnd_of_gate (by decide) (fun _ => rfl) (fun _ _ => ⟨_, _, rfl⟩) h
  case fcnt | build => exact commandEnd_of_gate (by decide) (fun _ => rfl) (fun _ _ => ⟨_, rfl⟩) h

/-- A command keeps the parameters. -/
theorem exec_params {i : Instr} {s : Block P} {t : State} (h : exec i ⟨P, s⟩ = .next t) : ∃ b, t = ⟨P, b⟩ := by
  rw [exec_block, liftBlock_eq_next] at h
  obtain ⟨b, -, ht⟩ := h
  exact ⟨b, ht⟩

/-! ## The host's moves -/

/-- The ways in which a move of the host, made in state `s`, can leave a next state. -/
inductive MoveEnd (s : Block P) : Block P → Prop where
  | command {i : Instr} {t : Block P} (h : exec i ⟨P, s⟩ = .next ⟨P, t⟩) : MoveEnd s t
  | illegalWord (w : CmdWord) : MoveEnd s (s.illegalCommand w)
  | wroteReg (n : RegNum) (v : Nat) : MoveEnd s (s.writeReg n v)
  | wroteBitIn (i v : Nat) : MoveEnd s (s.writeBitIn i v)
  | wroteSym (i v : Nat) : MoveEnd s (s.writeSym i v)
  | wroteFreq (i p wt : Nat) : MoveEnd s (s.writeFreq i p wt)
  | wroteCb (i v l b : Nat) : MoveEnd s (s.writeCb i v l b)
  | wrotePack (i v : Nat) : MoveEnd s (s.writePack i v)
  | wroteBitOut (i v : Nat) : MoveEnd s (s.writeBitOut i v)
  | read (d : HostData P) : MoveEnd s (s.give d)
  | wasReset : MoveEnd s s.hardReset

/-- What a word written to CMD can do. -/
theorem writeCmd_end {w : CmdWord} {s : Block P} {t : State} (h : writeCmd w ⟨P, s⟩ = .next t) :
    ∃ b, t = ⟨P, b⟩ ∧ MoveEnd s b := by
  unfold writeCmd at h
  split at h
  · obtain ⟨b, rfl⟩ := exec_params h
    exact ⟨b, rfl, .command h⟩
  · cases h
    exact ⟨_, rfl, .illegalWord w⟩

/-- What a move of the host can do. -/
theorem hostMove_end {m : HostMove} {s : Block P} {t : State} (h : hostMove m ⟨P, s⟩ = .next t) :
    ∃ b, t = ⟨P, b⟩ ∧ MoveEnd s b := by
  cases m
  case writeReg n v =>
    simp only [hostMove] at h
    split at h
    · exact writeCmd_end h
    · cases h; exact ⟨_, rfl, .wroteReg n v⟩
  all_goals cases h
  case writeBitIn => exact ⟨_, rfl, .wroteBitIn _ _⟩
  case writeSym => exact ⟨_, rfl, .wroteSym _ _⟩
  case writeFreq => exact ⟨_, rfl, .wroteFreq _ _ _⟩
  case writeCb => exact ⟨_, rfl, .wroteCb _ _ _ _⟩
  case writePack => exact ⟨_, rfl, .wrotePack _ _⟩
  case writeBitOut => exact ⟨_, rfl, .wroteBitOut _ _⟩
  case reset => exact ⟨_, rfl, .wasReset⟩
  all_goals exact ⟨_, rfl, .read _⟩

/-- A step with a move of the host is that move, taken off the queue (log 2). -/
theorem step_move {s : Block P} {m : HostMove} {rest : List HostMove} (h : s.moves = m :: rest) :
    step ⟨P, s⟩ = hostMove m ⟨P, { s with moves := rest }⟩ := by
  simp only [step, h, State.onBlock_mk]

/-- What a step can do: idle, or the host's next move (R236, log 2). -/
theorem step_end {s : Block P} {t : State} (h : step ⟨P, s⟩ = .next t) :
    ∃ b, t = ⟨P, b⟩ ∧ (b = s ∨ ∃ rest, MoveEnd { s with moves := rest } b) := by
  cases hm : s.moves with
  | nil =>
    simp only [step, hm] at h
    cases h
    exact ⟨s, rfl, .inl rfl⟩
  | cons m rest =>
    rw [step_move hm] at h
    obtain ⟨b, ht, hb⟩ := hostMove_end h
    exact ⟨b, ht, .inr ⟨rest, hb⟩⟩

/-! ## Host access -/

theorem bitOfNat_eq_testBit (v : Nat) : bitOfNat v = v.testBit 0 := by
  simp [bitOfNat, Nat.testBit_zero, beq_eq_decide]

/-- The access rule of every host write of an element (R46, R61), where `put` replaces the space and the counter of free
values: the element below the capacity alone changes, and nothing while BUSY. -/
theorem write_if_reaches {α : Type} {s : Block P} {cap : Nat} {c : Cells α} (put : Cells α → Nat → Block P)
    (i : Nat) (v : α) (hput : put c s.free = s) :
    ∃ c' n, (if s.reaches cap i then put (Cells.write c i v) (s.free + 1) else s) = put c' n ∧
      ∀ k, Cells.read c' k = if s.reaches cap i = true ∧ k = i then some v else Cells.read c k := by
  by_cases h : s.reaches cap i = true
  · exact ⟨_, _, if_pos h, fun k => by simp [h, read_write, eq_comm]⟩
  · exact ⟨_, _, (if_neg h).trans hput.symm, fun k => by simp [h]⟩

section
variable (s : Block P) (i v : Nat)

theorem writeBitIn_spec : ∃ c n, s.writeBitIn i v = { s with bitIn := c, free := n } ∧
    ∀ k, Cells.read c k =
      if s.reaches P.BIT_CAP i = true ∧ k = i then some (v.testBit 0) else Cells.read s.bitIn k :=
  bitOfNat_eq_testBit v ▸ write_if_reaches (fun c n => { s with bitIn := c, free := n }) i _ rfl

theorem writeSym_spec : ∃ c n, s.writeSym i v = { s with sym := c, free := n } ∧
    ∀ k, Cells.read c k =
      if s.reaches P.SYM_CAP i = true ∧ k = i then some (BitVec.ofNat P.W_SYM v) else Cells.read s.sym k :=
  write_if_reaches (fun c n => { s with sym := c, free := n }) i _ rfl

theorem writeFreq_spec (p : Nat) : ∃ c n, s.writeFreq i p v = { s with freq := c, free := n } ∧
    ∀ k, Cells.read c k =
      if s.reaches P.N_SYM i = true ∧ k = i then some ⟨p.testBit 0, BitVec.ofNat P.W_WT v⟩ else Cells.read s.freq k :=
  bitOfNat_eq_testBit p ▸ write_if_reaches (fun c n => { s with freq := c, free := n }) i _ rfl

theorem writeCb_spec (l b : Nat) : ∃ c n, s.writeCb i v l b = { s with cb := c, free := n } ∧
    ∀ k, Cells.read c k =
      if s.reaches P.N_SYM i = true ∧ k = i then some ⟨v.testBit 0, BitVec.ofNat P.W_LEN l, BitVec.ofNat P.L_MAX b⟩
      else Cells.read s.cb k :=
  bitOfNat_eq_testBit v ▸ write_if_reaches (fun c n => { s with cb := c, free := n }) i _ rfl

theorem writePack_spec : ∃ c n, s.writePack i v = { s with pack := c, free := n } ∧
    ∀ k, Cells.read c k =
      if s.reaches P.PACK_CAP i = true ∧ k = i then some (v.testBit 0) else Cells.read s.pack k :=
  bitOfNat_eq_testBit v ▸ write_if_reaches (fun c n => { s with pack := c, free := n }) i _ rfl

theorem writeBitOut_spec : ∃ c n, s.writeBitOut i v = { s with bitOut := c, free := n } ∧
    ∀ k, Cells.read c k =
      if s.reaches P.BIT_CAP i = true ∧ k = i then some (v.testBit 0) else Cells.read s.bitOut k :=
  bitOfNat_eq_testBit v ▸ write_if_reaches (fun c n => { s with bitOut := c, free := n }) i _ rfl

end

/-- Between commands an access reaches an element exactly below the capacity. -/
theorem reaches_iff {s : Block P} (hb : s.busy = false) (cap i : Nat) : s.reaches cap i = true ↔ i < cap := by
  simp [Block.reaches, hb]

/-- A step whose move writes an element by the access rule: between commands the bound is the capacity alone. -/
theorem step_writes {α : Type} {s t : Block P} {m : HostMove} {rest : List HostMove} {cap i : Nat} {x : α} {space : Cells α}
    {put : Cells α → Nat → Block P} (hb : s.busy = false) (hm : s.moves = m :: rest)
    (ht : hostMove m ⟨P, { s with moves := rest }⟩ = .next ⟨P, t⟩)
    (hw : ∃ c n, t = put c n ∧ ∀ k, Cells.read c k =
      if Block.reaches { s with moves := rest } cap i = true ∧ k = i then some x else Cells.read space k) :
    ∃ c n, step ⟨P, s⟩ = .next ⟨P, put c n⟩ ∧
      ∀ k, Cells.read c k = if i < cap ∧ k = i then some x else Cells.read space k := by
  obtain ⟨c, n, rfl, hc⟩ := hw
  have hr : Block.reaches { s with moves := rest } cap i = true ↔ i < cap := reaches_iff hb cap i
  exact ⟨c, n, (step_move hm).trans ht, fun k => by rw [hc k]; simp only [hr]⟩

/-- A host write of a register between commands (R21, R46). -/
theorem writeReg_eq {s : Block P} (hb : s.busy = false) (n : RegNum) (v : Nat) :
    ∃ k, s.writeReg n v = { s with
      maxlen := if n = 3 then BitVec.ofNat P.W_SYM v else s.maxlen
      filesize := if n = 4 then BitVec.ofNat P.W_IDX v else s.filesize
      bitInLen := if n = 5 then BitVec.ofNat P.W_IDX v else s.bitInLen
      symLen := if n = 6 then BitVec.ofNat P.W_IDX v else s.symLen
      packLen := if n = 7 then BitVec.ofNat P.W_IDX v else s.packLen
      free := k } := by
  simp only [Block.writeReg, hb, Bool.false_eq_true, if_false, Fin.ext_iff, Fin.coe_ofNat_eq_mod, Nat.reduceMod]
  split
  case h_6 h3 h4 h5 h6 h7 => exact ⟨s.free, by rw [if_neg h3, if_neg h4, if_neg h5, if_neg h6, if_neg h7]⟩
  all_goals exact ⟨s.free + 1, by simp [*]⟩

/-- A host read of a register between commands (R21, R22, R46). -/
theorem readReg_eq {s : Block P} (hb : s.busy = false) (n : RegNum) :
    s.readReg n =
      if n = 1 then s.status.toNat else if n = 2 then s.errinfo.toNat else if n = 3 then s.maxlen.toNat
      else if n = 4 then s.filesize.toNat else if n = 5 then s.bitInLen.toNat
      else if n = 6 then s.symLen.toNat else if n = 7 then s.packLen.toNat
      else if n = 8 then s.bitOutLen.toNat else 0 := by
  simp only [Block.readReg, hb, Bool.false_eq_true, false_and, if_false, Fin.ext_iff]
  split <;> grind

end Sys2Proof.Machine
end

section
/-! SUPPORT. The invariant `Inv` at reset and after every step, and the frame of the commands (R20 to R48 of
10_state.md). -/

namespace Sys2Proof.Machine

open Config

variable {P : Params}

/-! ## The invariant -/

theorem inv_of_status_zero {t : Block P} (hm : Memory.wf t = true) (hs : t.status = 0) (he : t.errinfo = 0) : Inv t := by
  simp only [Inv, Block.busy, Block.done, Block.err, hs, he]
  exact ⟨hm, by decide, by decide, by decide, fun _ => by decide, fun _ => trivial⟩

theorem inv_reset (P : Params) : Inv (Block.reset P) := inv_of_status_zero (wf_reset P) rfl rfl

/-- With STATUS and ERRINFO as they were, only the memory is to be looked at. -/
theorem Inv.of_same_status {s t : Block P} (h : Inv s) (hm : Memory.wf t = true) (hs : t.status = s.status)
    (he : t.errinfo = s.errinfo) : Inv t := by
  obtain ⟨-, hregs⟩ := h
  simp only [Inv, Block.busy, Block.done, Block.err, hs, he]
  exact ⟨hm, hregs⟩

/-- A host write of an element touches neither STATUS nor ERRINFO. -/
theorem Inv.of_element_write {α : Type} {s t : Block P} {put : Cells α → Nat → Block P} {reads : Cells α → Prop} (h : Inv s)
    (hm : Memory.wf t = true) (hw : ∃ c n, t = put c n ∧ reads c)
    (hput : ∀ c n, (put c n).status = s.status ∧ (put c n).errinfo = s.errinfo) : Inv t := by
  obtain ⟨c, n, rfl, -⟩ := hw
  obtain ⟨hs, he⟩ := hput c n
  exact h.of_same_status hm hs he

theorem inv_of_endedDone {t : Block P} (hm : Memory.wf t = true) (h : EndedDone t) : Inv t := by
  have herr := endedDone_err h
  obtain ⟨hs, he⟩ := h
  exact ⟨hm, endedDone_busy ⟨hs, he⟩, by rw [hs]; decide, by rw [herr]; decide, fun _ => herr, fun _ => he⟩

theorem inv_of_faulted {t : Block P} {f : FaultKind} {info : Nat} (hm : Memory.wf t = true) (h : Faulted t f info) :
    Inv t := by
  obtain ⟨herr, hdone, hbusy, hres, -⟩ := h
  exact ⟨hm, hbusy, hres, herr ▸ code_le f, fun hd => absurd (hdone.symm.trans hd) Bool.false_ne_true,
    fun h0 => absurd (herr.symm.trans h0) (code_ne_zero f)⟩

theorem inv_clearFault {s : Block P} (hm : Memory.wf s = true) (hb : s.busy = false) : Inv s.clearFault :=
  inv_of_status_zero (wf_clearFault hm) (by rw [Block.clearFault_status, hb]; decide) rfl

/-- Every command keeps the invariant. -/
theorem Inv.exec {i : Instr} {s t : Block P} (h : Inv s) (ht : exec i ⟨P, s⟩ = .next ⟨P, t⟩) : Inv t := by
  have hm := wf_exec h.1 ht
  cases exec_end ht with
  | ignored => exact h
  | cleared _ hb => exact inv_clearFault h.1 hb
  | done u _ _ he hu =>
    obtain ⟨hs, hi⟩ := hu.status_errinfo
    exact inv_of_endedDone hm (endedDone_of_ready ⟨h, he⟩ (by simp [hs]) (by simp [hi]))
  | raised f info => exact inv_of_faulted hm (faulted_raise i f info s.accept)

/-- A word that is no command is ignored or latches IllegalCommand (R222). -/
theorem Inv.illegalCommand {s : Block P} (h : Inv s) (w : CmdWord) : Inv (s.illegalCommand w) := by
  unfold Block.illegalCommand
  split
  · exact h
  · split
    · exact h
    · exact inv_of_faulted (f := .illegalCommand) (info := w.toNat) (wf_latch h.1 _ _)
        (by simp [Faulted, Block.err, Block.done, Block.busy])

/-- Every move of the host keeps the invariant. -/
theorem Inv.moveEnd {s t : Block P} (h : Inv s) (ht : MoveEnd s t) : Inv t := by
  have ⟨hm, hb, _⟩ := h
  cases ht with
  | command ht => exact h.exec ht
  | illegalWord w => exact h.illegalCommand w
  | wroteReg n v =>
    obtain ⟨k, hk⟩ := writeReg_eq hb n v
    exact h.of_same_status (wf_writeReg hm n v) (by rw [hk]) (by rw [hk])
  | wroteBitIn i v => exact h.of_element_write (wf_writeBitIn hm i v) (writeBitIn_spec s i v) fun _ _ => ⟨rfl, rfl⟩
  | wroteSym i v => exact h.of_element_write (wf_writeSym hm i v) (writeSym_spec s i v) fun _ _ => ⟨rfl, rfl⟩
  | wroteFreq i p wt => exact h.of_element_write (wf_writeFreq hm i p wt) (writeFreq_spec s i wt p) fun _ _ => ⟨rfl, rfl⟩
  | wroteCb i v l b => exact h.of_element_write (wf_writeCb hm i v l b) (writeCb_spec s i v l b) fun _ _ => ⟨rfl, rfl⟩
  | wrotePack i v => exact h.of_element_write (wf_writePack hm i v) (writePack_spec s i v) fun _ _ => ⟨rfl, rfl⟩
  | wroteBitOut i v => exact h.of_element_write (wf_writeBitOut hm i v) (writeBitOut_spec s i v) fun _ _ => ⟨rfl, rfl⟩
  | read d => exact h
  | wasReset => exact inv_of_status_zero (wf_hardReset s) rfl rfl

/-! ## What a command leaves unchanged -/

/-- The frame of command `i` (R39, R45): from `s` to `t` only its outputs and what it uses of the internal state change. -/
def OnlyOutputsChange (i : Instr) (s t : Block P) : Prop :=
  t.maxlen = s.maxlen ∧ t.filesize = s.filesize ∧ t.bitInLen = s.bitInLen ∧ SameReads t.bitIn s.bitIn ∧
    (i ≠ .rle → i ≠ .unpk → t.symLen = s.symLen ∧ SameReads t.sym s.sym) ∧
    (i ≠ .rld → t.bitOutLen = s.bitOutLen ∧ SameReads t.bitOut s.bitOut) ∧
    (i ≠ .fcnt → SameReads t.freq s.freq) ∧
    (i ≠ .build → SameReads t.cb s.cb ∧ t.htb = s.htb) ∧
    (i ≠ .pack → t.packLen = s.packLen ∧ SameReads t.pack s.pack) ∧
    (i = .build ∨ i = .clr → t.work = s.work) ∧ (i = .fcnt → t.work.wp = s.work.wp) ∧
    (i ≠ .rle → t.work.cnt = s.work.cnt) ∧ (i ≠ .unpk → t.work.cand = s.work.cand) ∧
    t.epoch = s.epoch ∧ t.moves = s.moves ∧ t.hostData = s.hostData

/-- STATUS and ERRINFO are left out: every command can write them (R205, R208, R224). -/
theorem onlyOutputsChange_status_errinfo (i : Instr) (s : Block P) (st : StatusWord) (e : Idx P) :
    OnlyOutputsChange i s { s with status := st, errinfo := e } := by
  simp [OnlyOutputsChange, SameReads]

/-- Writing the outputs and releasing the internal state keeps everything else. -/
theorem WritesOutputs.onlyOutputsChange {i : Instr} {s u : Block P} (h : WritesOutputs i s u) (hi : i ≠ .clr) :
    OnlyOutputsChange i s (u.release i) := by
  cases i
  case rle | rld | pack | unpk =>
    obtain ⟨xs, n, rfl⟩ := h
    simp [OnlyOutputsChange, SameReads, Work.release, usesHtb, usesCnt, usesCand]
  case fcnt | build =>
    obtain ⟨c, rfl⟩ := h
    simp [OnlyOutputsChange, SameReads, Work.release, usesHtb, usesRp, usesWp, usesCnt, usesCand]
  case clr => exact absurd rfl hi

theorem CommandEnd.onlyOutputsChange {i : Instr} {s t : Block P} (h : CommandEnd i s t) : OnlyOutputsChange i s t := by
  cases h with
  | ignored => exact onlyOutputsChange_status_errinfo i s s.status s.errinfo
  | cleared => exact onlyOutputsChange_status_errinfo i s _ _
  | done u hi _ _ hu => exact hu.complete.onlyOutputsChange hi
  | raised f info hi => exact (writesOutputs_forgetOutputs i (s.accept.latch f info)).onlyOutputsChange hi

end Sys2Proof.Machine
end


section
/-! SUPPORT. The internal state belongs to one command alone (R39, R40 of 10_state.md): what a command answers, up to the internal
state it leaves, does not depend on the internal state it finds. -/

namespace Sys2Proof.Machine

open Config

variable {P : Params}

/-! ## What a scan gives apart from the working registers -/

/-- The end of a scan with the working registers it ends with blanked out. -/
def Scan.blankWork {β : Type} : Scan β → Scan β
  | .done _ out => .done Work.reset out
  | .raised f info => .raised f info
  | .unwritten sp i => .unwritten sp i

section
variable {α : Type}

@[simp] theorem blankWork_done (w : Work) (out : α) : Scan.blankWork (.done w out) = .done Work.reset out := rfl

@[simp] theorem blankWork_raised (f : FaultKind) (n : Nat) : Scan.blankWork (.raised f n : Scan α) = .raised f n := rfl

@[simp] theorem blankWork_unwritten (sp : SpaceName) (k : Nat) :
    Scan.blankWork (.unwritten sp k : Scan α) = .unwritten sp k := rfl

@[simp] theorem blankWork_emit (x : α) (r : Scan (List α)) : (Scan.emit x r).blankWork = Scan.emit x r.blankWork := by
  cases r <;> rfl

@[simp] theorem blankWork_emitAll (xs : List α) (r : Scan (List α)) :
    (Scan.emitAll xs r).blankWork = Scan.emitAll xs r.blankWork := by cases r <;> rfl

end

theorem blankWork_emitRun {w w' : Work} {r r' : Scan (List (Sym P))} (n : Nat) (hwp : w'.wp = w.wp)
    (h : r'.blankWork = r.blankWork) : (emitRun w' n r').blankWork = (emitRun w n r).blankWork := by
  unfold emitRun
  rw [hwp]
  split
  · rfl
  · rw [blankWork_emit, blankWork_emit, h]

theorem blankWork_ite {β : Type} {c : Prop} [Decidable c] {q r r' : Scan β} (h : r'.blankWork = r.blankWork) :
    (if c then q else r').blankWork = (if c then q else r).blankWork := by
  split
  · rfl
  · exact h

/-- RLE uses RP, WP and CNT alone (R39). -/
theorem rleScan_blankWork {M n : Nat} {w w' : Work} {l : List (Option Bool)} (hrp : w'.rp = w.rp) (hwp : w'.wp = w.wp)
    (hcnt : w'.cnt = w.cnt) : (rleScan (P := P) M n w' l).blankWork = (rleScan M n w l).blankWork := by
  fun_induction rleScan (P := P) M n w l generalizing w' with
  | case1 w => rfl
  | case2 w rest => simp [rleScan, hrp]
  | case3 w rest ih =>
    rw [rleScan_one, hcnt]
    exact blankWork_emitRun _ hwp (ih (by simp [hrp]) (by simp [hwp]) rfl)
  | case4 w rest hc ih =>
    rw [rleScan_below n rest (hcnt ▸ hc)]
    exact ih (by simp [hrp]) hwp (by simp [hcnt])
  | case5 w hc hM => rw [rleScan_last n (hcnt ▸ hc), if_pos hM]
  | case6 w hc hM => rw [rleScan_last n (hcnt ▸ hc), if_neg hM]; rfl
  | case7 w hc rest => simp [rleScan, hcnt, hrp]
  | case8 w hc d rest ih =>
    rw [rleScan_lookahead n d rest (hcnt ▸ hc), hcnt]
    exact blankWork_emitRun _ hwp (ih (by simp [hrp]) (by simp [hwp]) rfl)

/-- RLD uses RP and WP alone (R39). -/
theorem rldScan_blankWork {M F : Nat} {w w' : Work} {l : List (Option (Sym P))} (hrp : w'.rp = w.rp) (hwp : w'.wp = w.wp) :
    (rldScan M F w' l).blankWork = (rldScan M F w l).blankWork := by
  induction l generalizing w w' with
  | nil => simp [rldScan, hwp]
  | cons x l ih =>
    cases x with
    | none => simp [rldScan, hrp]
    | some r =>
      simp only [rldScan, hrp, hwp]
      refine blankWork_ite (blankWork_ite ?_)
      rw [blankWork_emitAll, blankWork_emitAll]
      exact congrArg _ (ih rfl rfl)

/-- FCNT uses RP alone (R39). -/
theorem fcntScan_blankWork {w w' : Work} {c : Cells (FreqElem P)} {l : List (Option (Sym P))} (hrp : w'.rp = w.rp) :
    (fcntScan w' c l).blankWork = (fcntScan w c l).blankWork := by
  induction l generalizing w w' c with
  | nil => rfl
  | cons x l ih =>
    cases x with
    | none => simp [fcntScan, hrp]
    | some r => exact ih (by simp [hrp])

/-- BUILD uses no working register, and TREE and the queue only as it leaves them itself (R39, R143). -/
theorem buildScan_blankWork (w w' : Work) (h h' : Htb P) (table : Except Nat (List (FreqElem P))) :
    (buildScan w' h' table).blankWork = (buildScan w h table).blankWork := by
  unfold buildScan
  split
  · rfl
  · split
    · rfl
    · rw [phase2_phase1_congr _ (List.cons_ne_nil _ _) h h', blankWork_done, blankWork_done]

/-- PACK uses RP and WP alone (R39). -/
theorem packScan_blankWork {cb : Cells (CbElem P)} {w w' : Work} {l : List (Option (Sym P))} (hrp : w'.rp = w.rp)
    (hwp : w'.wp = w.wp) : (packScan cb w' l).blankWork = (packScan cb w l).blankWork := by
  induction l generalizing w w' with
  | nil => rfl
  | cons x l ih =>
    cases x with
    | none => simp [packScan, hrp]
    | some s =>
      simp only [packScan, hrp, hwp]
      split
      · rfl
      · rfl
      · refine blankWork_ite ?_
        rw [blankWork_emitAll, blankWork_emitAll]
        exact congrArg _ (ih rfl rfl)

/-- UNPK uses RP, WP and CAND alone (R39). -/
theorem unpkScan_blankWork {cb : List (Option (CbElem P))} {t p : Nat} {w w' : Work} {l : List (Option Bool)}
    (hrp : w'.rp = w.rp) (hwp : w'.wp = w.wp) (hcand : w'.cand = w.cand) :
    (unpkScan cb t p w' l).blankWork = (unpkScan cb t p w l).blankWork := by
  induction l generalizing w w' with
  | nil => simp only [unpkScan, hcand]; split <;> rfl
  | cons x l ih =>
    cases x with
    | none => simp [unpkScan, hrp]
    | some b =>
      simp only [unpkScan, hrp, hwp, hcand]
      split
      · rfl
      · exact ih rfl rfl rfl
      · refine blankWork_ite ?_
        rw [blankWork_emit, blankWork_emit]
        exact congrArg _ (ih rfl rfl rfl)

/-! ## Commands -/

/-- The block with other working registers and another TREE and queue. -/
def Block.withInternal (w : Work) (h : Htb P) (s : Block P) : Block P := { s with work := w, htb := h }

section
variable (w : Work) (h : Htb P) (s : Block P)
@[simp] theorem Block.withInternal_busy : (s.withInternal w h).busy = s.busy := rfl
@[simp] theorem Block.withInternal_accept : (s.withInternal w h).accept = s.accept.withInternal w h := rfl
end

/-- The two outcomes are the same up to the internal state. -/
def SameVisible (r r' : BlockResult P) : Prop :=
  mapNext State.visible (liftBlock r) = mapNext State.visible (liftBlock r')

/-- The end of a command forgets the working registers of its scan and keeps nothing visible of the internal state. -/
theorem sameVisible_endCommand {β : Type} {i : Instr} {w : Work} {h : Htb P} {s : Block P}
    {commit commit' : β → Block P → Block P} {r r' : Scan β}
    (hc : ∀ out, commit' out (s.withInternal w h) = (commit out s).withInternal w h)
    (hr : r'.blankWork = r.blankWork) :
    SameVisible (endCommand i (s.withInternal w h) commit' r') (endCommand i s commit r) := by
  cases r <;> cases r' <;> cases hr
  case done.done.refl _ out _ =>
    rw [endCommand_done, endCommand_done, hc]
    rfl
  case raised.raised.refl => cases i <;> rfl
  case unwritten.unwritten.refl => rfl

/-- A block that is not ready ignores the command (R206, R211). -/
theorem commandGate_ignored {s : Block P} {body : Block P → BlockResult P} (h : s.busy = true ∨ s.err ≠ 0) :
    commandGate s body = .next s := by
  rcases commandGate_cases s body with ⟨hg, -⟩ | ⟨-, hb, he⟩
  · exact hg
  · rcases h with h | h
    · exact absurd (hb.symm.trans h) Bool.false_ne_true
    · exact absurd he h

/-- Dispatch does not look at the internal state (R205): a command is independent of it where its scan and its commit
are. -/
theorem sameVisible_commandGate {β : Type} {i : Instr} {w : Work} {h : Htb P} {s : Block P} {body : Block P → BlockResult P}
    {commit : Block P → β → Block P → Block P} {scan : Block P → Scan β}
    (hbody : ∀ a, body a = endCommand i a (commit a) (scan a))
    (hc : ∀ a out, commit (a.withInternal w h) out (a.withInternal w h) = (commit a out a).withInternal w h)
    (hr : ∀ a : Block P, (scan (a.withInternal w h)).blankWork = (scan a).blankWork) :
    SameVisible (commandGate (s.withInternal w h) body) (commandGate s body) := by
  rcases commandGate_cases s body with ⟨hg, hn⟩ | ⟨hg, hb, he⟩
  · rw [hg, commandGate_ignored (s := s.withInternal w h) hn]
    rfl
  · rw [hg, commandGate_ready (s := s.withInternal w h) hb he, Block.withInternal_accept, hbody, hbody]
    exact sameVisible_endCommand (hc s.accept) (hr s.accept)

/-- A command ends the same way, up to the internal state, whatever internal state it finds. -/
theorem sameVisible_blockExec (i : Instr) (w : Work) (h : Htb P) (s : Block P) :
    SameVisible (blockExec i (s.withInternal w h)) (blockExec i s) := by
  cases i <;> simp only [blockExec]
  case rle => exact sameVisible_commandGate (fun _ => rfl) (fun _ _ => rfl) fun _ =>
    blankWork_ite (rleScan_blankWork rfl rfl rfl)
  case rld => exact sameVisible_commandGate (fun _ => rfl) (fun _ _ => rfl) fun _ =>
    blankWork_ite (rldScan_blankWork rfl rfl)
  case fcnt => exact sameVisible_commandGate (fun _ => rfl) (fun _ _ => rfl) fun _ =>
    blankWork_ite (fcntScan_blankWork rfl)
  case build => exact sameVisible_commandGate (fun _ => rfl) (fun _ _ => rfl) (fun _ => buildScan_blankWork _ _ _ _ _)
  case pack => exact sameVisible_commandGate (fun _ => rfl) (fun _ _ => rfl) fun _ =>
    blankWork_ite (packScan_blankWork rfl rfl)
  case unpk => exact sameVisible_commandGate (fun _ => rfl) (fun _ _ => rfl) fun _ =>
    blankWork_ite (unpkScan_blankWork rfl rfl rfl)
  case clr =>
    cases hb : s.busy <;> simp only [Block.withInternal_busy, hb] <;> rfl

end Sys2Proof.Machine
end

section
/-! PROOFS. The statements of the family 10_state.md. -/

open Sys2Proof Sys2Proof.Machine Sys2Proof.Config

namespace Sys2Proof.Proofs

/-- Settles O54: a step idles or makes one move of the host, and each way a move can end keeps the invariant. -/
theorem stepKeepsTheInvariant : Obligations.StepKeepsTheInvariant := by
  unfold Obligations.StepKeepsTheInvariant
  rintro ⟨P, s⟩ t h ht
  obtain ⟨b, rfl, rfl | ⟨rest, hb⟩⟩ := step_end ht
  · exact h
  · exact Inv.moveEnd (s := { s with moves := rest }) h hb

/-- Settles O19: whichever way a command ends, it has written its own outputs only. -/
theorem commandsChangeOnlyTheirOutputs : Obligations.CommandsChangeOnlyTheirOutputs := by
  unfold Obligations.CommandsChangeOnlyTheirOutputs
  intro P i s t' h
  obtain ⟨t, rfl⟩ := exec_params h
  exact ⟨t, rfl, (exec_end h).onlyOutputsChange⟩

/-- Settles O52: the scan of each command starts from its own working registers and, in BUILD, from an empty tree, and what
the command leaves of them is not visible. -/
theorem internalStateIsNeverReadAcrossCommands : Obligations.InternalStateIsNeverReadAcrossCommands := by
  unfold Obligations.InternalStateIsNeverReadAcrossCommands
  intro P i s w h
  rw [exec_block, exec_block]
  exact sameVisible_blockExec i w h s

/-- Settles O10: a register read after reset reads a register, each of which is 0, or the number of no register. -/
theorem everyRegisterResetsToZero : Obligations.EveryRegisterResetsToZero := by
  unfold Obligations.EveryRegisterResetsToZero
  refine ⟨rfl, fun P => ⟨rfl, rfl, rfl, rfl, rfl, rfl, rfl, rfl, fun n => ?_⟩⟩
  obtain ⟨-, hb, -⟩ := inv_reset P
  rw [readReg_eq hb]
  simp [Block.reset]

/-- Settles O12, by the equation of a register write between commands. -/
theorem hostWriteOfARegister : Obligations.HostWriteOfARegister := by
  unfold Obligations.HostWriteOfARegister
  intro P s n v rest hm hn hb
  obtain ⟨k, hk⟩ := writeReg_eq (s := { s with moves := rest }) hb n v
  have ht : step ⟨P, s⟩ = .next ⟨P, Block.writeReg n v { s with moves := rest }⟩ := by
    rw [step_move hm]; exact if_neg hn
  rw [hk] at ht
  exact ⟨_, ht, by simp [SameReads]⟩

/-- Settles O13, by the equation of a register read between commands. -/
theorem hostReadOfARegister : Obligations.HostReadOfARegister := by
  unfold Obligations.HostReadOfARegister
  intro P s n rest hm hb
  rw [step_move hm]
  simp only [hostMove, State.onBlock_mk, Block.give, readReg_eq (s := { s with moves := rest }) hb]

/-- Settles O14: each of the six writes follows the one access rule of `write_if_reaches`. -/
theorem hostWriteOfAnElement : Obligations.HostWriteOfAnElement := by
  unfold Obligations.HostWriteOfAnElement
  intro P s i rest hb
  exact ⟨fun v hm => step_writes hb hm rfl (writeBitIn_spec _ i v),
    fun v hm => step_writes hb hm rfl (writeSym_spec _ i v),
    fun p wt hm => step_writes hb hm rfl (writeFreq_spec _ i wt p),
    fun v l b hm => step_writes hb hm rfl (writeCb_spec _ i v l b),
    fun v hm => step_writes hb hm rfl (writePack_spec _ i v),
    fun v hm => step_writes hb hm rfl (writeBitOut_spec _ i v)⟩

/-- Settles O50: a step idles or makes one move of the host, and a move acts on the block alone. -/
theorem parametersNeverChange : Obligations.ParametersNeverChange := by
  unfold Obligations.ParametersNeverChange
  rintro ⟨P, s⟩ t h
  obtain ⟨b, rfl, -⟩ := step_end h
  rfl

/-- Settles O53: all registers are 0 and no element is written, so only the fields of a STATUS of 0 are to be read. -/
theorem resetSatisfiesTheInvariant : Obligations.ResetSatisfiesTheInvariant := inv_reset

end Sys2Proof.Proofs
end

section
/-! SUPPORT. What a host read answers (R61, R67 of 20_memory.md), and that a command which reads an input space through its
length register depends on nothing beyond it (R68). -/

namespace Sys2Proof.Machine

variable {P : Params}

/-! ## Host reads -/

/-- A host read gives one answer, whatever other moves the host has and whatever it has read, and changes nothing else. -/
theorem hostMove_read {m : HostMove} (h : isRead m = true) (s : Block P) :
    ∃ d : HostData P, ∀ q o, hostMove m ⟨P, { s with moves := q, hostData := o }⟩ =
      .next ⟨P, { s with moves := q, hostData := some d }⟩ := by
  cases m
  case readReg n => exact ⟨.reg (s.readReg n), fun _ _ => rfl⟩
  case readBitIn i => exact ⟨.bit (s.readBitIn i), fun _ _ => rfl⟩
  case readSym i => exact ⟨.sym (s.readSym i), fun _ _ => rfl⟩
  case readFreq i => exact ⟨.freq (s.readFreq i), fun _ _ => rfl⟩
  case readCb i => exact ⟨.cb (s.readCb i), fun _ _ => rfl⟩
  case readPack i => exact ⟨.bit (s.readPack i), fun _ _ => rfl⟩
  case readBitOut i => exact ⟨.bit (s.readBitOut i), fun _ _ => rfl⟩
  all_goals exact absurd h Bool.false_ne_true

/-- A step whose move reads an element by the access rule of R61: between commands, a written element below the capacity is
what the host gets. -/
theorem step_reads {α : Type} {s : Block P} {m : HostMove} {rest : List HostMove} {cap i : Nat} {x unwritten beyond : α}
    {space : Cells α} (data : α → HostData P) (hb : s.busy = false) (hm : s.moves = m :: rest)
    (ht : hostMove m ⟨P, { s with moves := rest }⟩ = .next ⟨P, { s with
      moves := rest
      hostData := some (data (if Block.reaches { s with moves := rest } cap i then (Cells.read space i).getD unwritten
        else beyond)) }⟩)
    (hx : Cells.read space i = some x) (hi : i < cap) :
    step ⟨P, s⟩ = .next ⟨P, { s with moves := rest, hostData := some (data x) }⟩ := by
  have hr : Block.reaches { s with moves := rest } cap i = true := (reaches_iff hb cap i).2 hi
  rw [step_move hm, ht, if_pos hr, hx, Option.getD_some]

/-! ## Beyond a length -/

/-- The read sequence of a space is what the space holds below the length. -/
theorem window_congr {α : Type} {cap n : Nat} {c d : Cells α} (hc : Cells.wf cap c = true) (hd : Cells.wf cap d = true)
    (h : SameBelow n c d) : Cells.window c 0 n = Cells.window d 0 n := by
  rw [window_eq_map hc, window_eq_map hd]
  refine List.map_congr_left fun k hk => h k ?_
  obtain ⟨-, hlt⟩ := List.mem_range'_1.1 hk
  omega

/-- The two outcomes are the same once `blank` has blanked out a part of the block. -/
def SameUpTo (blank : (Q : Params) → Block Q → Block Q) (r' r : BlockResult P) : Prop :=
  mapNext (fun t => t.onBlock (blank t.params)) (liftBlock r') = mapNext (fun t => t.onBlock (blank t.params)) (liftBlock r)

section
variable {blank : (Q : Params) → Block Q → Block Q}

theorem sameUpTo_next {t' t : Block P} (h : blank P t' = blank P t) : SameUpTo blank (.next t') (.next t) := by
  simp only [SameUpTo, liftBlock_next, mapNext, State.onBlock_mk, h]

/-- One scan, committed or raised in two blocks that agree up to `blank`. -/
theorem sameUpTo_endCommand {β : Type} {i : Instr} {s' s : Block P} {commit' commit : β → Block P → Block P} (r : Scan β)
    (hdone : ∀ out, blank P ((commit' out s').complete.release i) = blank P ((commit out s).complete.release i))
    (hraise : ∀ f n, blank P (s'.raise i f n) = blank P (s.raise i f n)) :
    SameUpTo blank (endCommand i s' commit' r) (endCommand i s commit r) := by
  cases r with
  | done w out => exact sameUpTo_next (hdone out)
  | raised f n => exact sameUpTo_next (hraise f n)
  | unwritten sp k => rfl

/-- A command whose scan comes out the same in two blocks that agree up to `blank` ends the same way up to `blank`. -/
theorem sameUpTo_commandGate {β : Type} {i : Instr} {s' s : Block P} {body : Block P → BlockResult P}
    {commit : Block P → β → Block P → Block P} {scan : Block P → Scan β}
    (hbody : ∀ a, body a = endCommand i a (commit a) (scan a)) (hscan : scan s'.accept = scan s.accept)
    (hstatus : s'.status = s.status) (hblank : blank P s' = blank P s)
    (hdone : ∀ out, blank P ((commit s'.accept out s'.accept).complete.release i) =
      blank P ((commit s.accept out s.accept).complete.release i))
    (hraise : ∀ f n, blank P (s'.accept.raise i f n) = blank P (s.accept.raise i f n)) :
    SameUpTo blank (commandGate s' body) (commandGate s body) := by
  have hbusy : s'.busy = s.busy := congrArg statusBusy hstatus
  have herr : s'.err = s.err := congrArg statusErr hstatus
  rcases commandGate_cases s body with ⟨hg, hn⟩ | ⟨hg, hb, he⟩
  · rw [hg, commandGate_ignored (by rwa [hbusy, herr])]
    exact sameUpTo_next hblank
  · rw [hg, commandGate_ready (hbusy.trans hb) (herr.trans he), hbody, hbody, hscan]
    exact sameUpTo_endCommand _ hdone hraise

end

/-- RLE is independent of BIT_IN beyond BIT_IN_LEN (R68). -/
theorem sameUpTo_rle {s : Block P} {c : Cells Bool} (hs : Cells.wf P.BIT_CAP s.bitIn = true) (hc : Cells.wf P.BIT_CAP c = true)
    (h : SameBelow s.bitInLen.toNat c s.bitIn) :
    SameUpTo (fun _ => ({ · with bitIn := [] })) (blockExec .rle { s with bitIn := c }) (blockExec .rle s) := by
  have hbits : Block.opBits { s with bitIn := c } = s.opBits := window_congr hc hs h
  exact sameUpTo_commandGate (fun _ => rfl) (congrArg (ite _ _) (congrArg (rleScan _ _ _) hbits)) rfl rfl (fun _ => rfl)
    fun _ _ => rfl

/-- RLD, FCNT and PACK are independent of SYM beyond SYM_LEN (R68). -/
theorem sameUpTo_readsSym {s : Block P} {c : Cells (Sym P)} (hs : Cells.wf P.SYM_CAP s.sym = true)
    (hc : Cells.wf P.SYM_CAP c = true) (h : SameBelow s.symLen.toNat c s.sym) {i : Instr}
    (hi : i = .rld ∨ i = .fcnt ∨ i = .pack) :
    SameUpTo (fun _ => ({ · with sym := [] })) (blockExec i { s with sym := c }) (blockExec i s) := by
  have hsyms : Block.opRunLengths { s with sym := c } = s.opRunLengths := window_congr hc hs h
  rcases hi with rfl | rfl | rfl
  · exact sameUpTo_commandGate (fun _ => rfl) (congrArg (ite _ _) (congrArg (rldScan _ _ _) hsyms)) rfl rfl (fun _ => rfl)
      fun _ _ => rfl
  · exact sameUpTo_commandGate (fun _ => rfl) (congrArg (ite _ _) (congrArg (fcntScan _ _) hsyms)) rfl rfl (fun _ => rfl)
      fun _ _ => rfl
  · exact sameUpTo_commandGate (fun _ => rfl) (congrArg (ite _ _) (congrArg (packScan _ _) hsyms)) rfl rfl (fun _ => rfl)
      fun _ _ => rfl

/-- UNPK is independent of PACK beyond PACK_LEN (R68). -/
theorem sameUpTo_unpk {s : Block P} {c : Cells Bool} (hs : Cells.wf P.PACK_CAP s.pack = true)
    (hc : Cells.wf P.PACK_CAP c = true) (h : SameBelow s.packLen.toNat c s.pack) :
    SameUpTo (fun _ => ({ · with pack := [] })) (blockExec .unpk { s with pack := c }) (blockExec .unpk s) := by
  have hbits : Block.opBitstring { s with pack := c } = s.opBitstring := window_congr hc hs h
  exact sameUpTo_commandGate (fun _ => rfl) (congrArg (ite _ _) (congrArg (unpkScan _ _ _ _) hbits)) rfl rfl (fun _ => rfl)
    fun _ _ => rfl

end Sys2Proof.Machine
end

section
/-! PROOFS. The statements of the family 20_memory.md. -/

open Sys2Proof Sys2Proof.Machine

namespace Sys2Proof.Proofs

/-- Settles O51: a command reads its input space through the window below the length register alone, so two blocks that agree
there give it one and the same sequence. -/
theorem noCommandReadsBeyondALength : Obligations.NoCommandReadsBeyondALength := by
  unfold Obligations.NoCommandReadsBeyondALength
  intro P s s' ⟨hm, _⟩ ⟨hm', _⟩
  obtain ⟨hbitIn, hsym, -, -, hpack, -⟩ := (memory_wf_iff s).1 hm
  obtain ⟨hbitIn', hsym', -, -, hpack', -⟩ := (memory_wf_iff s').1 hm'
  refine ⟨fun heq h => ?_, fun heq h i hi => ?_, fun heq h => ?_⟩
  · rw [heq, exec_block, exec_block]
    exact sameUpTo_rle hbitIn hbitIn' h
  · rw [heq, exec_block, exec_block]
    exact sameUpTo_readsSym hsym hsym' h hi
  · rw [heq, exec_block, exec_block]
    exact sameUpTo_unpk hpack hpack' h

/-- Settles O15: the answer of a read does not depend on the host's side, which is all that a read changes. -/
theorem hostReadsHaveNoSideEffect : Obligations.HostReadsHaveNoSideEffect := by
  unfold Obligations.HostReadsHaveNoSideEffect
  intro P s m rest hm hread
  obtain ⟨d, hd⟩ := hostMove_read hread s
  exact ⟨d, (step_move hm).trans (hd (m :: rest) s.hostData), (step_move rfl).trans (hd rest (some d))⟩

/-- Settles O16: each of the six reads follows the one access rule of `step_reads`. -/
theorem hostReadsWhatIsWritten : Obligations.HostReadsWhatIsWritten := by
  unfold Obligations.HostReadsWhatIsWritten
  intro P s i rest hb
  exact ⟨fun b hx hi hm => step_reads .bit hb hm rfl hx hi, fun x hx hi hm => step_reads .sym hb hm rfl hx hi,
    fun e hx hi hm => step_reads .freq hb hm rfl hx hi, fun e hx hi hm => step_reads .cb hb hm rfl hx hi,
    fun b hx hi hm => step_reads .bit hb hm rfl hx hi, fun b hx hi hm => step_reads .bit hb hm rfl hx hi⟩

end Sys2Proof.Proofs
end

section
/-! SUPPORT. Command words and commands (R81 to R85 of 30_encoding.md), and what a word written to CMD does (R84, R205). -/

namespace Sys2Proof

/-! ## The decoder -/

/-- A command word is its two fields (R81). -/
theorem CmdWord.toNat_eq_fields (w : CmdWord) : w.toNat = 16 * w.zeroField.toNat + w.opField.toNat := by
  have := w.isLt
  simp only [CmdWord.zeroField, CmdWord.opField, BitVec.extractLsb'_toNat, Nat.shiftRight_eq_div_pow]
  omega

/-- A word that decodes has no reserved bit set, and its opcode is the command's number (R82, R85). -/
theorem fields_of_decode {w : CmdWord} {i : Instr} (h : decode w = .ok i) :
    w.zeroField = 0 ∧ w.opField.toNat = (encode i).toNat := by
  unfold decode at h
  split at h
  case isTrue => cases h
  case isFalse hz =>
    refine ⟨by simpa using hz, ?_⟩
    split at h <;> cases h
    all_goals assumption

/-- Decoding gives back every encoded command (R82, R85). -/
@[simp] theorem decode_encode (i : Instr) : decode (encode i) = .ok i := by cases i <;> rfl

/-- Each command has one word (R82). -/
theorem decode_eq_ok_iff {w : CmdWord} {i : Instr} : decode w = .ok i ↔ w = encode i := by
  constructor
  · intro h
    obtain ⟨hz, ho⟩ := fields_of_decode h
    have hw := w.toNat_eq_fields
    rw [hz, ho] at hw
    exact BitVec.eq_of_toNat_eq (by simpa using hw)
  · rintro rfl
    exact decode_encode i

/-- The words of the commands are 0x01 to 0x07 (R82). -/
theorem encode_toNat_range (i : Instr) : 1 ≤ (encode i).toNat ∧ (encode i).toNat ≤ 7 := by cases i <;> decide

/-- Every word outside 0x01 to 0x07 is illegal (R84). -/
theorem decode_error {w : CmdWord} (h : w = 0 ∨ 8 ≤ w.toNat) : ∃ e, decode w = .error e := by
  cases hd : decode w with
  | error e => exact ⟨e, rfl⟩
  | ok i =>
    obtain rfl := decode_eq_ok_iff.1 hd
    obtain ⟨hlo, hhi⟩ := encode_toNat_range i
    rcases h with h | h
    · simp [h] at hlo
    · omega

namespace Machine

variable {P : Params}

/-! ## A word written to CMD -/

/-- The block's reaction to a command's word is the command (R205). -/
theorem writeCmd_of_ok {w : CmdWord} {i : Instr} (h : decode w = .ok i) (s : State) : writeCmd w s = exec i s := by
  simp only [writeCmd, h]

/-- The block's reaction to an illegal word (R84, R205). -/
theorem writeCmd_of_error {w : CmdWord} {e : IllegalWord} (h : decode w = .error e) (s : State) :
    writeCmd w s = .next (s.onBlock (Block.illegalCommand w)) := by
  simp only [writeCmd, h]

/-- Between commands and with no fault latched, an illegal word raises IllegalCommand (R222, R224). -/
theorem illegalCommand_ready {s : Block P} (hb : s.busy = false) (he : s.err = 0) (w : CmdWord) :
    s.illegalCommand w = s.latch .illegalCommand w.toNat := by
  simp [Block.illegalCommand, hb, he]

/-- A step whose move writes CMD is the block's reaction to the word (R205, log 2). -/
theorem step_writeCmd {s : Block P} {v : Nat} {rest : List HostMove} (h : s.moves = .writeReg 0 v :: rest) :
    step ⟨P, s⟩ = writeCmd (BitVec.ofNat 8 v) ⟨P, { s with moves := rest }⟩ := by
  rw [step_move h]
  rfl

/-- A step whose move is `CMD` of a command (R87) is that command. -/
theorem step_scriptCmd {s : Block P} {i : Instr} {rest : List HostMove} (h : s.moves = scriptCmd i :: rest) :
    step ⟨P, s⟩ = exec i ⟨P, { s with moves := rest }⟩ := by
  rw [step_writeCmd h, writeCmd_of_ok]
  rw [BitVec.ofNat_toNat, BitVec.setWidth_eq, decode_encode]

/-! ## Commands do not look at the host's queue -/

/-- A command keeps the host's moves (log 2). -/
theorem exec_moves {i : Instr} {s t : Block P} (h : exec i ⟨P, s⟩ = .next ⟨P, t⟩) : t.moves = s.moves := by
  obtain ⟨-, -, -, -, -, -, -, -, -, -, -, -, -, -, hmoves, -⟩ := (exec_end h).onlyOutputsChange
  exact hmoves

/-- The block with other moves of the host. -/
def Block.withMoves (q : List HostMove) (s : Block P) : Block P := { s with moves := q }

@[simp] theorem Block.withMoves_busy (q : List HostMove) (s : Block P) : (s.withMoves q).busy = s.busy := rfl

@[simp] theorem Block.withMoves_moves (s : Block P) : s.withMoves s.moves = s := rfl

/-- A command ends the same way, up to the host's queue, whatever queue it finds. -/
theorem sameUpTo_withMoves (i : Instr) (q : List HostMove) (s : Block P) :
    SameUpTo (fun _ => Block.withMoves q) (blockExec i (s.withMoves q)) (blockExec i s) := by
  cases i
  case clr => cases hb : s.busy <;> simp only [blockExec, Block.withMoves_busy, hb] <;> rfl
  all_goals exact sameUpTo_commandGate (fun _ => rfl) rfl rfl rfl (fun _ => rfl) fun _ _ => rfl

/-- A command with another queue of the host gives what it gives otherwise, with that queue. -/
theorem exec_withMoves (i : Instr) (q : List HostMove) (s : Block P) :
    exec i ⟨P, s.withMoves q⟩ = mapNext (fun t => t.onBlock (Block.withMoves q)) (exec i ⟨P, s⟩) := by
  have hsame := sameUpTo_withMoves i q s
  rw [SameUpTo, ← exec_block, ← exec_block] at hsame
  rw [← hsame]
  cases h : exec i ⟨P, s.withMoves q⟩ with
  | next t =>
    obtain ⟨b, rfl⟩ := exec_params h
    have hb : b.moves = q := exec_moves h
    rw [mapNext, State.onBlock_mk, ← hb, Block.withMoves_moves]
  | fault r => rfl
  | refused r => rfl

end Machine

end Sys2Proof
end

section
/-! PROOFS. The statements of the family 30_encoding.md. -/

open Sys2Proof Sys2Proof.Machine

namespace Sys2Proof.Proofs

/-- Settles O9: each step at the head of the script is a command, and a command does not look at the rest of the queue. -/
theorem aScriptRunsItsCommands : Obligations.AScriptRunsItsCommands := by
  unfold Obligations.AScriptRunsItsCommands
  intro P commands s rest h
  induction commands generalizing s with
  | nil =>
    obtain rfl : s.moves = rest := h
    rfl
  | cons i commands ih =>
    have hstep : Sys2Proof.core.step (⟨P, s⟩ : State) = exec i ⟨P, s.withMoves (commands.map scriptCmd ++ rest)⟩ :=
      step_scriptCmd h
    change _ = execAll (i :: commands) ⟨P, s.withMoves rest⟩
    simp only [List.length_cons, Host.Core.run, execAll, hstep, exec_withMoves i _ s]
    cases he : exec i ⟨P, s⟩ with
    | next t =>
      obtain ⟨b, rfl⟩ := exec_params he
      exact ih (b.withMoves _) rfl
    | fault r => rfl
    | refused r => rfl

/-- Settles O1: the mask keeps all 8 bits, so each of the seven is the one word of its command. -/
theorem matchAndMaskSelectEachCommand : Obligations.MatchAndMaskSelectEachCommand := by
  unfold Obligations.MatchAndMaskSelectEachCommand
  intro w
  have hmask : w &&& 0xFF = w := BitVec.and_allOnes
  rw [hmask]
  exact ⟨decode_eq_ok_iff, decode_eq_ok_iff, decode_eq_ok_iff, decode_eq_ok_iff, decode_eq_ok_iff, decode_eq_ok_iff,
    decode_eq_ok_iff⟩

/-- Settles O2: a word decodes to a command exactly when it is that command's word. -/
theorem decodeEncodeAgree : Obligations.DecodeEncodeAgree := by
  unfold Obligations.DecodeEncodeAgree
  exact fun i => ⟨rfl, decode_encode i, fun _ => decode_eq_ok_iff.1⟩

/-- Settles O3: no command has such a word, and the fault entry of an illegal word loses no output (R224). -/
theorem illegalWordLatchesIllegalCommand : Obligations.IllegalWordLatchesIllegalCommand := by
  unfold Obligations.IllegalWordLatchesIllegalCommand
  intro w hw
  obtain ⟨e, hd⟩ := decode_error hw
  refine ⟨⟨e, hd⟩, fun P s hb he => ?_⟩
  have hstatus : statusWord false false FaultKind.illegalCommand.code = 0x70 := by decide
  rw [writeCmd_of_error hd, State.onBlock_mk, illegalCommand_ready hb he, Block.latch, hstatus, BitVec.ofNat_toNat]

end Sys2Proof.Proofs
end

section
/-! SUPPORT. How RLE ends on a loaded input (R101, R108 of 40_run_length_encoder.md), from its scan. -/

namespace Sys2Proof.Machine

variable {P : Params}

/-- Every piece of a small cap is at least one bit, so there are no more symbols than bits (R108, R109). -/
theorem length_le_pieces (syms : List (Sym P)) : syms.length ≤ (syms.flatMap smallPiece).length := by
  induction syms with
  | nil => rfl
  | cons r rs ih =>
    have hpos : 1 ≤ (smallPiece r).length := by unfold smallPiece; split <;> simp
    simp only [List.flatMap_cons, List.length_append, List.length_cons]
    omega

/-- There are no more symbols than bits in an input of whole runs and a rest (R110 (d)). -/
theorem length_le_runs_append {M : Nat} (hM : 1 ≤ M) (syms : List (Sym P)) (rest : List Bool) :
    syms.length ≤ (expandAll M syms ++ rest).length := by
  rw [List.length_append]
  exact (length_le_expandAll hM syms).trans (Nat.le_add_right _ _)

/-- A sequence no longer than a loaded input fits in SYM (R9). -/
theorem le_SYM_CAP_of_le_BIT_CAP {m n : Nat} (h : m ≤ n) (hn : n ≤ P.BIT_CAP) : m ≤ P.SYM_CAP :=
  (h.trans hn).trans P.BIT_CAP_le_SYM_CAP

section
variable {s : Block P} {bits : List Bool} (hs : Ready s) (hlen : bits.length = s.bitInLen.toNat)
  (hcap : s.bitInLen.toNat ≤ P.BIT_CAP) (hin : Loaded s.bitIn bits)
include hs hlen hcap hin

/-- A ready block scans the loaded input, which is within the capacity (R101, R205). -/
theorem exec_rle_loaded : exec .rle ⟨P, s⟩ =
    liftBlock (endCommand .rle s.accept (fun out t => t.setSym out (BitVec.ofNat _ out.length))
      (rleScan s.maxlen.toNat s.bitInLen.toNat (s.work.start .rle) (bits.map some))) := by
  obtain ⟨⟨hwf, hbusy, -⟩, herr⟩ := hs
  obtain ⟨hbitIn, -⟩ := (memory_wf_iff s).1 hwf
  have hbits : s.accept.opBits = bits.map some := window_loaded hbitIn hlen hin
  rw [exec_rle, commandGate_ready hbusy herr, rleBody, hbits, Block.accept_bitInLen, if_neg (not_lt.2 hcap)]
  rfl

/-- A scan that ends leaves its symbols in SYM (R101, R208). -/
theorem exec_rle_done {w : Work} {syms : List (Sym P)} (hfit : syms.length ≤ P.SYM_CAP)
    (hscan : rleScan s.maxlen.toNat s.bitInLen.toNat (s.work.start .rle) (bits.map some) = .done w syms) :
    ∃ t, exec .rle ⟨P, s⟩ = .next ⟨P, t⟩ ∧ EndedDone t ∧ t.symLen.toNat = syms.length ∧ Loaded t.sym syms := by
  rw [exec_rle_loaded hs hlen hcap hin, hscan, endCommand_done, liftBlock_next]
  refine ⟨_, rfl, endedDone_of_ready hs ?_ rfl, ?_, loaded_ofSeq syms _ hfit⟩
  · simp
  · exact Nat.mod_eq_of_lt (hfit.trans_lt P.SYM_CAP_lt_W_IDX)

/-- A fault of the scan is latched (R224). -/
theorem exec_rle_raised {f : FaultKind} {k : Nat}
    (hscan : rleScan (P := P) s.maxlen.toNat s.bitInLen.toNat (s.work.start .rle) (bits.map some) = .raised f k) :
    ∃ t, exec .rle ⟨P, s⟩ = .next ⟨P, t⟩ ∧ Faulted t f k := by
  rw [exec_rle_loaded hs hlen hcap hin, hscan, endCommand_raised, liftBlock_next]
  exact ⟨_, rfl, faulted_raise ..⟩

end

end Sys2Proof.Machine
end

section
/-! PROOFS. The statements of the family 40_run_length_encoder.md. -/

open Sys2Proof Sys2Proof.Machine

namespace Sys2Proof.Proofs

/-- Settles O22: the scan gives one symbol for each whole run and drops the zeros after the last one. -/
theorem rleRecoversTheRuns : Obligations.RleRecoversTheRuns := by
  unfold Obligations.RleRecoversTheRuns
  intro P s syms z hs hM hr hz hlen hcap hin
  have hfit : syms.length ≤ P.SYM_CAP :=
    le_SYM_CAP_of_le_BIT_CAP (hlen ▸ length_le_runs_append (by omega) syms _) hcap
  obtain ⟨w, hscan⟩ := rleScan_runs_tail (n := s.bitInLen.toNat) hM syms hr z hz (s.work.start .rle) rfl
    ((Nat.zero_add _).trans_le hfit)
  exact exec_rle_done hs hlen hcap hin hfit hscan

/-- Settles O21: every input is made of whole runs and fewer than MAXLEN trailing zeros, and RLE gives those runs. -/
theorem rleSymbolsAccountForTheInput : Obligations.RleSymbolsAccountForTheInput := by
  unfold Obligations.RleSymbolsAccountForTheInput
  intro P s bits hs hlen hcap hin hM
  obtain ⟨syms, z, rfl, hz, hr⟩ := exists_runs (by omega) s.maxlen.isLt bits
  obtain ⟨t, ht, hdone, hsymLen, hsym⟩ := rleRecoversTheRuns P s syms z hs hM hr hz hlen (hlen ▸ hcap) hin
  exact ⟨t, syms, z, ht, hdone, hsymLen, hsym, rfl, hz, hr, length_le_runs_append (by omega) syms _⟩

/-- Settles O23: the scan gives one symbol for each piece, and a lone zero after the last one finds no bit to look at. -/
theorem rleWithASmallCap : Obligations.RleWithASmallCap := by
  unfold Obligations.RleWithASmallCap
  intro P s syms hs hM hr hcap
  have hpieces := length_le_pieces syms
  have scan (hle : syms.length ≤ s.bitInLen.toNat) := rleScan_pieces (n := s.bitInLen.toNat) hM syms hr
    (s.work.start .rle) rfl ((Nat.zero_add _).trans_le (le_SYM_CAP_of_le_BIT_CAP hle hcap))
  constructor
  · intro hlen hin
    have hle : syms.length ≤ s.bitInLen.toNat := hlen ▸ hpieces
    have hscan := scan hle []
    rw [List.append_nil, rleScan, emitAll_done, List.append_nil] at hscan
    exact exec_rle_done hs hlen hcap hin (le_SYM_CAP_of_le_BIT_CAP hle hcap) hscan
  · intro hlen hin
    have hle : syms.length ≤ s.bitInLen.toNat := by rw [← hlen, List.length_append]; omega
    refine exec_rle_raised hs hlen hcap hin ?_
    rw [List.map_append, scan hle, List.map_singleton, rleScan_last _ (by omega), if_pos hM, emitAll_raised]

end Sys2Proof.Proofs
end

section
/-! SUPPORT. How RLD ends on the symbols in SYM (R121 to R126 of 41_run_length_decoder.md), and what RLE leaves for it with
MAXLEN at least 2 (R128). -/

namespace Sys2Proof.Machine

variable {P : Params}

/-! ## The scan at one symbol -/

/-- A symbol above MAXLEN raises SymbolRange, whatever its expansion and the rest of SYM (R123, R126). -/
theorem rldScan_above {M : Nat} (F : Nat) (w : Work) {r : Sym P} (rest : List (Option (Sym P))) (h : M < r.toNat) :
    rldScan M F w (some r :: rest) = .raised .symbolRange w.rp := by
  rw [rldScan, if_pos h]

/-- A symbol in range whose expansion no longer fits raises LengthMismatch (R124). -/
theorem rldScan_tooLong {M F : Nat} {w : Work} {r : Sym P} (rest : List (Option (Sym P))) (hr : r.toNat ≤ M)
    (h : F < w.wp + (expandRun M r.toNat).length) :
    rldScan M F w (some r :: rest) = .raised .lengthMismatch w.rp := by
  rw [rldScan, if_neg (not_lt.2 hr), if_pos h]

/-- An expansion that is too long has a least index at which it is (R124). -/
theorem exists_least_long {M F : Nat} {syms : List (Sym P)} (h : F < (expandAll M syms).length) :
    ∃ k, k < syms.length ∧ F < (expandAll M (syms.take (k + 1))).length ∧
      ∀ j, j < k → (expandAll M (syms.take (j + 1))).length ≤ F := by
  obtain ⟨n, hn⟩ : ∃ n, syms.length = n + 1 := by
    refine Nat.exists_eq_succ_of_ne_zero fun h0 => ?_
    rw [List.length_eq_zero_iff.1 h0] at h
    exact absurd h (Nat.not_lt_zero F)
  have hlast : F < (expandAll M (syms.take (n + 1))).length := by rwa [← hn, List.take_length]
  have hex : ∃ k, F < (expandAll M (syms.take (k + 1))).length := ⟨n, hlast⟩
  have hle : Nat.find hex ≤ n := Nat.find_min' hex hlast
  exact ⟨Nat.find hex, by omega, Nat.find_spec hex, fun j hj => not_lt.1 (Nat.find_min hex hj)⟩

/-! ## The command -/

/-- In a ready block SYM is in canonical form (log 12). -/
theorem wf_sym_of_ready {s : Block P} (hs : Ready s) : Cells.wf P.SYM_CAP s.sym = true := by
  obtain ⟨⟨hwf, -⟩, -⟩ := hs
  obtain ⟨-, hsym, -⟩ := (memory_wf_iff s).1 hwf
  exact hsym

section
variable {s : Block P} (hs : Ready s) (hcap : s.symLen.toNat ≤ P.SYM_CAP) (hfile : s.filesize.toNat ≤ P.BIT_CAP)
include hs hcap hfile

/-- A ready block with both lengths within their capacities scans SYM (R121, R205). -/
theorem exec_rld_ready : exec .rld ⟨P, s⟩ =
    liftBlock (endCommand .rld s.accept (fun out t => t.setBitOut out s.filesize)
      (rldScan s.maxlen.toNat s.filesize.toNat (s.work.start .rld) s.opRunLengths)) := by
  obtain ⟨⟨-, hbusy, -⟩, herr⟩ := hs
  have hcaps : ¬ (P.SYM_CAP < s.accept.symLen.toNat ∨ P.BIT_CAP < s.accept.opFileSize) :=
    not_or.2 ⟨not_lt.2 hcap, not_lt.2 hfile⟩
  rw [exec_rld, commandGate_ready hbusy herr, rldBody, if_neg hcaps]
  rfl

/-- A scan that ends leaves its bits in BIT_OUT (R121, R208). -/
theorem exec_rld_done {w : Work} {out : List Bool} (hfit : out.length ≤ P.BIT_CAP)
    (hscan : rldScan s.maxlen.toNat s.filesize.toNat (s.work.start .rld) s.opRunLengths = .done w out) :
    ∃ t, exec .rld ⟨P, s⟩ = .next ⟨P, t⟩ ∧ EndedDone t ∧ t.bitOutLen = s.filesize ∧ Loaded t.bitOut out := by
  rw [exec_rld_ready hs hcap hfile, hscan, endCommand_done, liftBlock_next]
  refine ⟨_, rfl, endedDone_of_ready hs ?_ rfl, rfl, loaded_ofSeq out _ hfit⟩
  simp

/-- After symbols in range that fit, a symbol at which the scan raises a fault ends the command with its index (R126). -/
theorem exec_rld_raised_at {before : List (Sym P)} {r : Sym P} {f : FaultKind} (hlt : before.length < s.symLen.toNat)
    (hin : Loaded s.sym (before ++ [r])) (hr : ∀ x ∈ before, x.toNat ≤ s.maxlen.toNat)
    (hfit : (expandAll s.maxlen.toNat before).length ≤ s.filesize.toNat)
    (hraise : ∀ (w : Work) rest, w.wp = (expandAll s.maxlen.toNat before).length →
      rldScan s.maxlen.toNat s.filesize.toNat w (some r :: rest) = .raised f w.rp) :
    ∃ t, exec .rld ⟨P, s⟩ = .next ⟨P, t⟩ ∧ Faulted t f before.length := by
  obtain ⟨rest, hwindow⟩ := window_loaded_prefix (n := s.symLen.toNat) (wf_sym_of_ready hs) (by simpa using hlt) hin
  have hstart : (s.work.start .rld).rp = 0 ∧ (s.work.start .rld).wp = 0 := ⟨rfl, rfl⟩
  have hscan : rldScan s.maxlen.toNat s.filesize.toNat (s.work.start .rld) s.opRunLengths = .raised f before.length := by
    rw [Block.opRunLengths, hwindow, List.map_append, List.append_assoc, List.map_singleton, List.singleton_append,
      rldScan_runs before hr _ (by omega), hraise _ _ (by simp [hstart.2]), emitAll_raised]
    simp [hstart.1]
  rw [exec_rld_ready hs hcap hfile, hscan, endCommand_raised, liftBlock_next]
  exact ⟨_, rfl, faulted_raise ..⟩

/-- At the least index at which the expansion of symbols in range is too long, LengthMismatch is raised (R124). -/
theorem exec_rld_lengthMismatch {syms : List (Sym P)} (hlen : syms.length = s.symLen.toNat) (hin : Loaded s.sym syms)
    {k : Nat} (hk : k < syms.length) (hr : ∀ r ∈ syms.take (k + 1), r.toNat ≤ s.maxlen.toNat)
    (hlong : s.filesize.toNat < (expandAll s.maxlen.toNat (syms.take (k + 1))).length)
    (hleast : ∀ j, j < k → (expandAll s.maxlen.toNat (syms.take (j + 1))).length ≤ s.filesize.toNat) :
    ∃ t, exec .rld ⟨P, s⟩ = .next ⟨P, t⟩ ∧ Faulted t .lengthMismatch k := by
  have hfit : (expandAll s.maxlen.toNat (syms.take k)).length ≤ s.filesize.toNat := by
    cases k with
    | zero => exact Nat.zero_le _
    | succ j => exact hleast j j.lt_succ_self
  have hloaded : Loaded s.sym (syms.take (k + 1)) := by
    intro j hj
    have hj' : j < k + 1 ∧ j < syms.length := by simpa using hj
    rw [hin j hj'.2, List.getElem?_take_of_lt hj'.1]
  rw [List.take_succ_eq_append_getElem hk] at hr hlong hloaded
  obtain ⟨hr, hrk⟩ := List.forall_mem_append.1 hr
  rw [expandAll_append, List.length_append, expandAll_cons, expandAll_nil, List.append_nil] at hlong
  have hbefore : (syms.take k).length = k := List.length_take_of_le hk.le
  have hfault := exec_rld_raised_at hs hcap hfile (by omega) hloaded hr hfit fun w rest hw =>
    rldScan_tooLong rest (hrk _ List.mem_cons_self) (by omega)
  rwa [hbefore] at hfault

end

/-! ## What RLE leaves for RLD -/

/-- The pieces of RLE with MAXLEN 2 are the expansions of R122 (R109). -/
theorem expandRun_two {r : Sym P} (h : r.toNat ≤ 2) : expandRun 2 r.toNat = smallPiece r := by
  rcases (show r.toNat = 0 ∨ r.toNat = 1 ∨ r.toNat = 2 by omega) with h | h | h
  · rw [smallPiece_zero h, h]; rfl
  · rw [smallPiece_one h, h]; rfl
  · rw [smallPiece_two h, h]; rfl

theorem expandAll_two {syms : List (Sym P)} (hr : ∀ r ∈ syms, r.toNat ≤ 2) :
    expandAll 2 syms = syms.flatMap smallPiece :=
  List.flatMap_congr fun r hmem => expandRun_two (hr r hmem)

end Sys2Proof.Machine
end

section
/-! PROOFS. The statements of the family 41_run_length_decoder.md. -/

open Sys2Proof Sys2Proof.Machine

namespace Sys2Proof.Proofs

/-- Settles O24: the scan gives the expansion of the symbols and the padding, FILESIZE bits in all. -/
theorem rldExpandsAndPads : Obligations.RldExpandsAndPads := by
  unfold Obligations.RldExpandsAndPads
  intro P s syms hs hlen hcap hin hfile hr hfit
  have hwindow : s.opRunLengths = syms.map some := window_loaded (wf_sym_of_ready hs) hlen hin
  obtain ⟨w, hscan⟩ := rldScan_all syms hr (s.work.start .rld) rfl hfit
  refine exec_rld_done hs (hlen ▸ hcap) hfile ?_ (hwindow ▸ hscan)
  rw [List.length_append, List.length_replicate]
  omega

/-- Settles O26: the symbol is reached, and the scan tests its range before its length. -/
theorem rldSymbolRangeAtTheFirstIndex : Obligations.RldSymbolRangeAtTheFirstIndex := by
  unfold Obligations.RldSymbolRangeAtTheFirstIndex
  intro P s before r hs hlt hcap hin hfile hr habove hfit
  exact exec_rld_raised_at hs hcap hfile hlt hin hr hfit fun w rest _ => rldScan_above _ w rest habove

/-- Settles O25: with all symbols in range there is a least index if the expansion is too long, and otherwise RLD ends without
a fault (O24). -/
theorem rldLengthMismatchAtTheLeastIndex : Obligations.RldLengthMismatchAtTheLeastIndex := by
  unfold Obligations.RldLengthMismatchAtTheLeastIndex
  intro P s syms hs hlen hcap hin hfile
  refine ⟨fun k => exec_rld_lengthMismatch hs (hlen ▸ hcap) hfile hlen hin, fun hr => ⟨⟨?_, ?_⟩, ?_⟩⟩
  · rintro ⟨t, k, ht, herr, -⟩
    by_contra hfit
    obtain ⟨t', ht', hdone, -⟩ := rldExpandsAndPads P s syms hs hlen hcap hin hfile hr (not_lt.1 hfit)
    cases ht.symm.trans ht'
    exact absurd (herr.symm.trans (endedDone_err hdone)) (by decide)
  · intro hlong
    obtain ⟨k, hk, hlongk, hleast⟩ := exists_least_long hlong
    obtain ⟨t, ht, hfault⟩ := exec_rld_lengthMismatch hs (hlen ▸ hcap) hfile hlen hin hk
      (fun r hmem => hr r (List.mem_of_mem_take hmem)) hlongk hleast
    exact ⟨t, k, ht, hfault⟩
  · intro heq
    simpa [heq] using rldExpandsAndPads P s syms hs hlen hcap hin hfile hr heq.le

/-- What RLE leaves with MAXLEN at least 2: with MAXLEN 2 it can end in OutOfData (R108); otherwise its symbols, in range, expand
to the input less some trailing zeros (R110 (b), (c), R109). -/
theorem rle_outOfData_or_runs {P : Params} {s : Block P} {bits : List Bool} (hs : Ready s)
    (hlen : bits.length = s.bitInLen.toNat) (hcap : bits.length ≤ P.BIT_CAP) (hin : Loaded s.bitIn bits)
    (hM : 2 ≤ s.maxlen.toNat) :
    ∃ t, exec .rle ⟨P, s⟩ = .next ⟨P, t⟩ ∧
      (s.maxlen.toNat = 2 ∧ t.err = FaultKind.outOfData.code ∨
        EndedDone t ∧ ∃ syms z, t.symLen.toNat = syms.length ∧ Loaded t.sym syms ∧
          bits = expandAll s.maxlen.toNat syms ++ List.replicate z false ∧ ∀ r ∈ syms, r.toNat ≤ s.maxlen.toNat) := by
  rcases Nat.lt_or_eq_of_le hM with hM | hM
  · obtain ⟨t, syms, z, ht, hdone, hsymLen, hsym, hbits, -, hr, -⟩ :=
      rleSymbolsAccountForTheInput P s bits hs hlen hcap hin hM
    exact ⟨t, ht, .inr ⟨hdone, syms, z, hsymLen, hsym, hbits, hr⟩⟩
  · obtain ⟨syms, hbits, hr⟩ := exists_pieces (P := P) bits
    obtain ⟨hends, hfaults⟩ := rleWithASmallCap P s syms hs hM.ge hr (hlen ▸ hcap)
    rw [← hM]
    rcases hbits with rfl | rfl
    · obtain ⟨t, ht, hdone, hsymLen, hsym⟩ := hends hlen hin
      exact ⟨t, ht, .inr ⟨hdone, syms, 0, hsymLen, hsym, by rw [expandAll_two hr]; simp, hr⟩⟩
    · obtain ⟨t, ht, herr, -⟩ := hfaults hlen hin
      exact ⟨t, ht, .inl ⟨rfl, herr⟩⟩

/-- Settles O27: RLE leaves runs that are the input less some trailing zeros, and RLD expands them and pads with as many zeros
(O24). -/
theorem rldInvertsRle : Obligations.RldInvertsRle := by
  unfold Obligations.RldInvertsRle
  intro P s t bits hs hlen hcap hin hM ht
  obtain ⟨t', ht', hend⟩ := rle_outOfData_or_runs hs hlen hcap hin hM
  cases ht.symm.trans ht'
  rcases hend with ⟨hM2, herr⟩ | ⟨hdone, syms, z, hsymLen, hsym, rfl, hr⟩
  · exact ⟨fun hM3 => by omega, fun hne => absurd herr hne⟩
  refine ⟨fun _ => hdone, fun _ v hv hvLen hvSym hvMax hvFile => ?_⟩
  have hle : syms.length ≤ P.SYM_CAP := le_SYM_CAP_of_le_BIT_CAP (length_le_runs_append (by omega) syms _) hcap
  have hvIn : Loaded v.sym syms := fun k hk => (hvSym k (hsymLen ▸ hk)).trans (hsym k hk)
  have hpad : v.filesize.toNat - (expandAll s.maxlen.toNat syms).length = z := by simp [hvFile]
  rw [← hvMax] at hr hpad hvFile hcap ⊢
  obtain ⟨u, hu, hdone', hbitOutLen, hbitOut⟩ := rldExpandsAndPads P v syms hv (hvLen ▸ hsymLen.symm) hle hvIn
    (hvFile ▸ hcap) hr (by simp [hvFile])
  exact ⟨u, hu, hdone', hbitOutLen ▸ hvFile, hpad ▸ hbitOut⟩

end Sys2Proof.Proofs
end

section
/-! SUPPORT. How FCNT and BUILD end (R131, R134, R140 of 42_huffman_tree_builder.md), from their scans. -/

namespace Sys2Proof.Machine

variable {P : Params}

/-! ## FCNT -/

/-- FREQ holds the counts of `syms`: a symbol that occurs is a key, and the weight is the number of its occurrences to `W_WT`
bits (R131). -/
def Counts (f : Cells (FreqElem P)) (syms : List (Sym P)) : Prop :=
  ∀ x : Sym P, Cells.read f x.toNat = some ⟨decide (x ∈ syms), BitVec.ofNat P.W_WT (syms.count x)⟩

theorem counts_freqZero : Counts (freqZero P) [] := by
  intro x
  rw [freqZero, read_ofSeq, if_pos x.isLt]
  simp

/-- One turn of the counting loop (R131). -/
theorem counts_countSym {f : Cells (FreqElem P)} {syms : List (Sym P)} (h : Counts f syms) (y : Sym P) :
    Counts (countSym f y) (syms ++ [y]) := by
  intro x
  by_cases hxy : y = x
  · subst hxy
    simp [countSym, read_write_same, h y, BitVec.ofNat_add]
  · have hne : y.toNat ≠ x.toNat := fun heq => hxy (BitVec.eq_of_toNat_eq heq)
    rw [countSym, read_write_other _ _ hne, h x]
    simp [hxy, Ne.symm hxy]

/-- The counting loop adds the counts of the symbols it reads (R131). -/
theorem fcntScan_counts {before : List (Sym P)} (syms : List (Sym P)) {f : Cells (FreqElem P)} (h : Counts f before)
    (w : Work) : ∃ w' f', fcntScan w f (syms.map some) = .done w' f' ∧ Counts f' (before ++ syms) := by
  induction syms generalizing before f w with
  | nil => exact ⟨w, f, rfl, by rwa [List.append_nil]⟩
  | cons y syms ih =>
    obtain ⟨w', f', hscan, hcounts⟩ := ih (counts_countSym h y) { w with rp := w.rp + 1 }
    exact ⟨w', f', hscan, by rwa [List.append_assoc] at hcounts⟩

/-- No symbol occurs too often for a weight, in as many symbols as SYM holds (U17). -/
theorem toNat_count {syms : List (Sym P)} (h : syms.length ≤ P.SYM_CAP) (x : Sym P) :
    (BitVec.ofNat P.W_WT (syms.count x)).toNat = syms.count x :=
  Nat.mod_eq_of_lt ((List.count_le_length.trans h).trans_lt P.SYM_CAP_lt_W_WT)

/-- A ready block counts the symbols of SYM within the capacity (R131). -/
theorem exec_fcnt_loaded {s : Block P} (hs : Ready s) {syms : List (Sym P)} (hlen : syms.length = s.symLen.toNat)
    (hcap : syms.length ≤ P.SYM_CAP) (hin : Loaded s.sym syms) :
    ∃ t, exec .fcnt ⟨P, s⟩ = .next ⟨P, t⟩ ∧ EndedDone t ∧ Counts t.freq syms := by
  have ⟨⟨_, hbusy, _⟩, herr⟩ := hs
  have hwindow : s.accept.opRunLengths = syms.map some := window_loaded (wf_sym_of_ready hs) hlen hin
  obtain ⟨w, f, hscan, hcounts⟩ := fcntScan_counts syms counts_freqZero (s.accept.work.start .fcnt)
  rw [exec_fcnt, commandGate_ready hbusy herr, fcntBody, Block.accept_symLen, if_neg (not_lt.2 (hlen ▸ hcap)), hwindow,
    hscan, endCommand_done, liftBlock_next]
  exact ⟨_, rfl, endedDone_of_ready hs (by simp) rfl, hcounts⟩

/-- A ready block with SYM_LEN above the capacity raises Capacity in FCNT (R131, R221). -/
theorem exec_fcnt_capacity {s : Block P} (hs : Ready s) (hcap : P.SYM_CAP < s.symLen.toNat) :
    ∃ t, exec .fcnt ⟨P, s⟩ = .next ⟨P, t⟩ ∧ Faulted t .capacity 0 := by
  obtain ⟨⟨-, hbusy, -⟩, herr⟩ := hs
  rw [exec_fcnt, commandGate_ready hbusy herr, fcntBody, Block.accept_symLen, if_pos hcap, endCommand_raised,
    liftBlock_next]
  exact ⟨_, rfl, faulted_raise ..⟩

/-! ## BUILD -/

/-- With no key in the table BUILD raises EmptyTable (R140). -/
theorem buildScan_of_no_key {es : List (FreqElem P)} (hk : keysFrom 0 es = []) (w : Work) (h : Htb P) :
    buildScan w h (.ok es) = .raised .emptyTable 0 := by
  simp only [buildScan, hk]

/-- With some key in the table BUILD runs its two phases (R134). -/
theorem buildScan_of_keys {es : List (FreqElem P)} (hk : keysFrom 0 es ≠ []) (w : Work) (h : Htb P) :
    buildScan w h (.ok es) = .done w (phase2 (phase1 (keysFrom 0 es) h)) := by
  obtain ⟨key, keys, hkeys⟩ := List.exists_cons_of_ne_nil hk
  simp only [buildScan, hkeys]

/-- In a ready block FREQ is in canonical form (log 12). -/
theorem wf_freq_of_ready {s : Block P} (hs : Ready s) : Cells.wf P.N_SYM s.freq = true := by
  obtain ⟨⟨hwf, -⟩, -⟩ := hs
  obtain ⟨-, -, hfreq, -⟩ := (memory_wf_iff s).1 hwf
  exact hfreq

/-- A written FREQ is loaded with some table, whose keys are the keys of FREQ (R33, R242). -/
theorem exists_loaded_freq {s : Block P} (hs : Ready s) (hw : Written s.freq P.N_SYM) :
    ∃ es : List (FreqElem P), es.length = P.N_SYM ∧ Loaded s.freq es ∧
      ∀ x, s.isKey x ↔ x ∈ (keysFrom 0 es).map Prod.fst := by
  obtain ⟨es, -, hlen, hread⟩ := opFrequencies_written (wf_freq_of_ready hs) hw
  exact ⟨es, hlen, fun k hk => hread k (hlen ▸ hk), isKey_iff hlen hread⟩

section
variable {s : Block P} (hs : Ready s) {es : List (FreqElem P)} (hlen : es.length = P.N_SYM) (hin : Loaded s.freq es)
include hs hlen hin

/-- A ready block with FREQ loaded runs BUILD on its table (R134, R205). -/
theorem exec_build_loaded : exec .build ⟨P, s⟩ =
    liftBlock (endCommand .build s.accept Block.setCb (buildScan (s.work.start .build) s.htb (.ok es))) := by
  have hwindow : s.accept.opFrequencies = es.map some := window_loaded (wf_freq_of_ready hs) hlen hin
  obtain ⟨⟨-, hbusy, -⟩, herr⟩ := hs
  rw [exec_build, commandGate_ready hbusy herr, buildBody, hwindow, readAll_map_some]
  rfl

/-- BUILD of a table with no key (R140). -/
theorem exec_build_of_no_key (hk : keysFrom 0 es = []) :
    ∃ t, exec .build ⟨P, s⟩ = .next ⟨P, t⟩ ∧ Faulted t .emptyTable 0 := by
  rw [exec_build_loaded hs hlen hin, buildScan_of_no_key hk, endCommand_raised, liftBlock_next]
  exact ⟨_, rfl, faulted_raise ..⟩

/-- BUILD of a table with some key (R134, R151, R208). -/
theorem exec_build_of_keys (hk : keysFrom 0 es ≠ []) :
    ∃ t, exec .build ⟨P, s⟩ = .next ⟨P, t⟩ ∧ EndedDone t ∧ t.cb = phase2 (phase1 (keysFrom 0 es) s.htb) := by
  rw [exec_build_loaded hs hlen hin, buildScan_of_keys hk, endCommand_done, liftBlock_next]
  exact ⟨_, rfl, endedDone_of_ready hs (by simp) rfl, rfl⟩

end

end Sys2Proof.Machine
end

section
/-! SUPPORT. The merges of phase 1 (R135 to R139, R142 of 42_huffman_tree_builder.md): what one merge does, how many there are, and
what holds after any number of them of the order, the weights and the trees of the queue. -/

namespace Sys2Proof.Machine

variable {P : Params}

/-! ## One merge -/

/-- With two entries or more, a merge joins the first two (R135, R138). -/
theorem mergeStep_cons {h : Htb P} {e1 e2 : QEntry P} {q : List (QEntry P)} (hq : h.queue = e1 :: e2 :: q) :
    mergeStep h =
      { h with
        tree := Cells.write h.tree h.treeN ⟨e1.ref, e2.ref⟩
        treeN := h.treeN + 1
        queue := insertEntry ⟨e1.weight + e2.weight, h.nextSeq, .node h.treeN⟩ q
        nextSeq := h.nextSeq + 1 } := by
  simp only [mergeStep, hq]

/-- A merge does nothing, or joins the first two entries. -/
theorem mergeStep_cases (h : Htb P) :
    mergeStep h = h ∨ ∃ e1 e2 q, h.queue = e1 :: e2 :: q := by
  match hq : h.queue with
  | [] => exact .inl (by simp only [mergeStep, hq])
  | [_] => exact .inl (by simp only [mergeStep, hq])
  | e1 :: e2 :: q => exact .inr ⟨e1, e2, q, rfl⟩

/-- What holds at the start of phase 1 and is kept by a merge of the first two entries holds after any number of merges. -/
theorem mergeLoop_induction {Q : Htb P → Prop} {h : Htb P} (k : Nat) (start : Q h)
    (merge : ∀ (h : Htb P) (e1 e2 : QEntry P) (q : List (QEntry P)), h.queue = e1 :: e2 :: q → Q h → Q (mergeStep h)) :
    Q (mergeLoop k h) := by
  induction k with
  | zero => exact start
  | succ k ih =>
    rw [mergeLoop_succ]
    rcases mergeStep_cases (mergeLoop k h) with heq | ⟨e1, e2, q, hq⟩
    · rwa [heq]
    · exact merge _ e1 e2 q hq ih

/-! ## The start -/

theorem phase1Start_queue_perm (keys : List (Sym P × Nat)) (h : Htb P) :
    List.Perm (phase1Start keys h).queue (leafEntries 0 keys) := foldr_insertEntry_perm _

/-- The leaf entries are numbered in the order of the keys (R137). -/
theorem map_seq_leafEntries (j : Nat) (keys : List (Sym P × Nat)) :
    (leafEntries j keys).map QEntry.seq = List.range' j keys.length := by
  induction keys generalizing j with
  | nil => rfl
  | cons key keys ih => simp [leafEntries, ih, List.range'_succ]

theorem map_weight_leafEntries (j : Nat) (keys : List (Sym P × Nat)) :
    (leafEntries j keys).map QEntry.weight = keys.map Prod.snd := by
  induction keys generalizing j with
  | nil => rfl
  | cons key keys ih => simp [leafEntries, ih]

/-- A leaf entry stands for a key, with its weight (R135). -/
theorem exists_key_of_mem_leafEntries {j : Nat} {keys : List (Sym P × Nat)} {e : QEntry P} (he : e ∈ leafEntries j keys) :
    ∃ x, (x, e.weight) ∈ keys ∧ e.ref = .leaf x := by
  induction keys generalizing j with
  | nil => cases he
  | cons key keys ih =>
    rcases List.mem_cons.1 he with rfl | he
    · exact ⟨key.1, List.mem_cons_self, rfl⟩
    · obtain ⟨x, hx, href⟩ := ih he
      exact ⟨x, List.mem_cons_of_mem _ hx, href⟩

/-! ## How many merges -/

/-- Every merge makes one node and takes one entry off the queue (R139). -/
theorem treeN_add_length_mergeLoop (keys : List (Sym P × Nat)) (h : Htb P) (k : Nat) :
    (mergeLoop k (phase1Start keys h)).treeN + (mergeLoop k (phase1Start keys h)).queue.length = keys.length := by
  refine mergeLoop_induction (Q := fun g => g.treeN + g.queue.length = keys.length) k ?_ fun g e1 e2 q hq hg => ?_
  · rw [length_phase1Start]; exact Nat.zero_add _
  · simp only [hq, List.length_cons] at hg
    simp only [mergeStep_cons hq, length_insertEntry]
    omega

/-- After the merges of phase 1 one entry is left, and ROOT is its reference (R135, R139). -/
theorem phase1_last_entry (keys : List (Sym P × Nat)) (h : Htb P) (hk : keys ≠ []) :
    ∃ e, (mergeLoop (keys.length - 1) (phase1Start keys h)).queue = [e] ∧
      phase1 keys h = { mergeLoop (keys.length - 1) (phase1Start keys h) with root := e.ref } := by
  have hpos : 0 < keys.length := List.length_pos_iff.2 hk
  obtain ⟨hlen, -⟩ := length_mergeLoop (keys.length - 1) (phase1Start keys h) (by rw [length_phase1Start]; omega)
  rw [length_phase1Start] at hlen
  obtain ⟨e, he⟩ := List.length_eq_one_iff.1 (hlen.trans (by omega))
  exact ⟨e, he, by simp only [phase1, setRoot, he]⟩

/-- With two or more keys the last merge makes the root (R139). -/
theorem root_phase1 {keys : List (Sym P × Nat)} (h : Htb P) {n : Nat} (hn : keys.length = n + 2) :
    (phase1 keys h).root = .node n := by
  obtain ⟨hlen, htreeN⟩ := length_mergeLoop n (phase1Start keys h) (by rw [length_phase1Start]; omega)
  rw [length_phase1Start] at hlen
  obtain ⟨e1, e2, hq⟩ := List.length_eq_two.1 (hlen.trans (by omega))
  have hstart : (phase1Start keys h).treeN = 0 := rfl
  have hloop : keys.length - 1 = n + 1 := by omega
  simp only [phase1, hloop, mergeLoop_succ, mergeStep_cons hq, insertEntry, setRoot, htreeN, hstart, Nat.zero_add]

/-! ## The order of the queue -/

theorem entryBefore_iff {a b : QEntry P} :
    entryBefore a b = true ↔ a.weight < b.weight ∨ a.weight = b.weight ∧ a.seq < b.seq := by
  simp [entryBefore]

theorem entryBefore_trans {a b c : QEntry P} (hab : entryBefore a b = true) (hbc : entryBefore b c = true) :
    entryBefore a c = true := by
  rw [entryBefore_iff] at *
  omega

/-- Two entries with different numbers are ordered one way or the other (R136). -/
theorem entryBefore_of_not {a b : QEntry P} (hne : a.seq ≠ b.seq) (h : ¬ entryBefore a b = true) :
    entryBefore b a = true := by
  rw [entryBefore_iff] at *
  omega

/-- Insertion keeps the queue strictly ordered if the number is new (R136). -/
theorem pairwise_insertEntry {e : QEntry P} {q : List (QEntry P)} (hq : q.Pairwise fun a b => entryBefore a b = true)
    (hnew : ∀ x ∈ q, e.seq ≠ x.seq) : (insertEntry e q).Pairwise fun a b => entryBefore a b = true := by
  induction q with
  | nil => exact List.pairwise_singleton _ _
  | cons x q ih =>
    obtain ⟨hx, hq'⟩ := List.pairwise_cons.1 hq
    obtain ⟨hex, hnew'⟩ := List.forall_mem_cons.1 hnew
    simp only [insertEntry]
    split
    case isTrue hbefore =>
      refine List.pairwise_cons.2 ⟨List.forall_mem_cons.2 ⟨hbefore, fun y hy => ?_⟩, hq⟩
      exact entryBefore_trans hbefore (hx y hy)
    case isFalse hnot =>
      refine List.pairwise_cons.2 ⟨fun y hy => ?_, ih hq' hnew'⟩
      rcases List.mem_cons.1 ((insertEntry_perm e q).mem_iff.1 hy) with rfl | hy
      · exact entryBefore_of_not hex hnot
      · exact hx y hy

/-- Inserting entries with distinct numbers one after another gives a strictly ordered queue (R136). -/
theorem pairwise_foldr_insertEntry {l : List (QEntry P)} (hl : (l.map QEntry.seq).Nodup) :
    (l.foldr insertEntry []).Pairwise fun a b => entryBefore a b = true := by
  induction l with
  | nil => exact .nil
  | cons e l ih =>
    rw [List.map_cons, List.nodup_cons] at hl
    obtain ⟨hnew, hl⟩ := hl
    refine pairwise_insertEntry (ih hl) fun x hx heq => hnew ?_
    exact heq ▸ List.mem_map_of_mem ((foldr_insertEntry_perm l).mem_iff.1 hx)

/-- The queue is strictly ordered (R136), with distinct numbers that were given out before NEXT_SEQ (R137). -/
structure QueueOrdered (h : Htb P) : Prop where
  ordered : h.queue.Pairwise fun a b => entryBefore a b = true
  distinct : (h.queue.map QEntry.seq).Nodup
  numbered : ∀ e ∈ h.queue, e.seq < h.nextSeq

theorem queueOrdered_start (keys : List (Sym P × Nat)) (h : Htb P) : QueueOrdered (phase1Start keys h) := by
  have hseq := map_seq_leafEntries 0 keys
  have hperm := (phase1Start_queue_perm keys h).map QEntry.seq
  have hnodup : ((leafEntries 0 keys).map QEntry.seq).Nodup := hseq ▸ List.nodup_range'
  refine ⟨pairwise_foldr_insertEntry hnodup, hperm.nodup_iff.2 hnodup, fun e he => ?_⟩
  have hmem := hperm.mem_iff.1 (List.mem_map_of_mem he)
  rw [hseq, List.mem_range'_1] at hmem
  exact hmem.2.trans_eq (Nat.zero_add _)

/-- The entry that a merge makes takes a number that no entry has (R137). -/
theorem QueueOrdered.merge {h : Htb P} (ho : QueueOrdered h) {e1 e2 : QEntry P} {q : List (QEntry P)}
    (hq : h.queue = e1 :: e2 :: q) : QueueOrdered (mergeStep h) := by
  obtain ⟨hordered, hdistinct, hnumbered⟩ := ho
  rw [hq] at hordered hdistinct hnumbered
  rw [mergeStep_cons hq]
  have hold : ∀ x ∈ q, x.seq < h.nextSeq := fun x hx => hnumbered x (by simp [hx])
  have hperm := insertEntry_perm (P := P) ⟨e1.weight + e2.weight, h.nextSeq, .node h.treeN⟩ q
  refine ⟨pairwise_insertEntry hordered.of_cons.of_cons fun x hx => (hold x hx).ne', ?_, fun e he => ?_⟩
  · refine (hperm.map QEntry.seq).nodup_iff.2 (List.nodup_cons.2 ⟨fun hmem => ?_, hdistinct.of_cons.of_cons⟩)
    obtain ⟨x, hx, heq⟩ := List.mem_map.1 hmem
    exact (hold x hx).ne heq
  · rcases List.mem_cons.1 (hperm.mem_iff.1 he) with rfl | he
    · exact Nat.lt_succ_self _
    · exact (hold e he).trans (Nat.lt_succ_self _)

theorem queueOrdered_mergeLoop (keys : List (Sym P × Nat)) (h : Htb P) (k : Nat) :
    QueueOrdered (mergeLoop k (phase1Start keys h)) :=
  mergeLoop_induction k (queueOrdered_start keys h) fun _ _ _ _ hq ho => ho.merge hq

/-! ## The weights of the queue -/

/-- A merge keeps the sum of all weights (R142). -/
theorem sum_weight_mergeLoop (keys : List (Sym P × Nat)) (h : Htb P) (k : Nat) :
    ((mergeLoop k (phase1Start keys h)).queue.map QEntry.weight).sum = (keys.map Prod.snd).sum := by
  refine mergeLoop_induction (Q := fun g => (g.queue.map QEntry.weight).sum = (keys.map Prod.snd).sum) k ?_
    fun g e1 e2 q hq hg => ?_
  · rw [((phase1Start_queue_perm keys h).map _).sum_eq, map_weight_leafEntries]
  · rw [mergeStep_cons hq, ((insertEntry_perm _ q).map _).sum_eq, ← hg, hq]
    simp only [List.map_cons, List.sum_cons, Nat.add_assoc]

/-- The weights of the keys of a table sum to less than W_ACC bits hold (R142). -/
theorem sum_keys_lt {es : List (FreqElem P)} (hlen : es.length ≤ P.N_SYM) :
    ((keysFrom 0 es).map Prod.snd).sum < 2 ^ P.W_ACC := by
  have hkey : ∀ wt ∈ (keysFrom 0 es).map Prod.snd, wt ≤ 2 ^ P.W_WT - 1 := by
    intro wt hwt
    obtain ⟨⟨x, wt⟩, hx, rfl⟩ := List.mem_map.1 hwt
    obtain ⟨k, e, -, -, -, rfl⟩ := mem_keysFrom.1 hx
    exact Nat.le_sub_one_of_lt e.weight.isLt
  calc ((keysFrom 0 es).map Prod.snd).sum
      ≤ ((keysFrom 0 es).map Prod.snd).length • (2 ^ P.W_WT - 1) := List.sum_le_card_nsmul _ _ hkey
    _ ≤ 2 ^ P.W_SYM * (2 ^ P.W_WT - 1) := by
      rw [List.length_map, smul_eq_mul]
      exact Nat.mul_le_mul_right _ ((length_keysFrom_le 0 es).trans hlen)
    _ < 2 ^ P.W_SYM * 2 ^ P.W_WT :=
      Nat.mul_lt_mul_of_pos_left (Nat.sub_one_lt (Nat.two_pow_pos _).ne') (Nat.two_pow_pos _)
    _ = 2 ^ P.W_ACC := by rw [← Nat.pow_add, Nat.add_comm]

/-! ## The trees of the queue -/

/-- Every child lies below its node, so a tree is no deeper than there are nodes (R138). -/
theorem Built.depth_le {tree : Cells (TreeElem P)} {n : Nat} {ref : NodeRef P} {t : CodeTree P} (h : Built tree n ref t) :
    t.depth ≤ n := by
  induction h with
  | leaf => exact Nat.zero_le _
  | node n k e l r hk _ _ _ ihl ihr => simp only [CodeTree.depth]; omega

/-- A merge keeps the trees there are (R138). -/
theorem Built.write {tree : Cells (TreeElem P)} {n : Nat} {ref : NodeRef P} {t : CodeTree P} (h : Built tree n ref t)
    (e : TreeElem P) : Built (Cells.write tree n e) n ref t :=
  h.congr fun _ hk => read_write_other _ _ hk.ne'

/-- Every entry stands for a tree and weighs the sum of the weights of its symbols (R135, R142). -/
def WeighsLeaves (wt : Sym P → Nat) (h : Htb P) : Prop :=
  ∀ e ∈ h.queue, ∃ t, Built h.tree h.treeN e.ref t ∧ e.weight = (t.symbols.map wt).sum

theorem weighsLeaves_start {wt : Sym P → Nat} {keys : List (Sym P × Nat)} (hwt : ∀ x w, (x, w) ∈ keys → w = wt x)
    (h : Htb P) : WeighsLeaves wt (phase1Start keys h) := by
  intro e he
  obtain ⟨x, hx, href⟩ := exists_key_of_mem_leafEntries ((phase1Start_queue_perm keys h).mem_iff.1 he)
  exact ⟨.leaf x, href ▸ .leaf _ x, by simpa [CodeTree.symbols] using hwt x _ hx⟩

theorem WeighsLeaves.merge {wt : Sym P → Nat} {h : Htb P} (hw : WeighsLeaves wt h) {e1 e2 : QEntry P} {q : List (QEntry P)}
    (hq : h.queue = e1 :: e2 :: q) : WeighsLeaves wt (mergeStep h) := by
  have hw' := hw
  simp only [WeighsLeaves, hq, List.forall_mem_cons] at hw'
  obtain ⟨⟨t1, hb1, hw1⟩, ⟨t2, hb2, hw2⟩, hrest⟩ := hw'
  rw [mergeStep_cons hq]
  intro e he
  rcases List.mem_cons.1 ((insertEntry_perm _ q).mem_iff.1 he) with rfl | he
  · exact ⟨.node t1 t2, .node _ _ _ _ _ (Nat.lt_succ_self _) (read_write_same ..) (hb1.write _) (hb2.write _),
      by simp [CodeTree.symbols, hw1, hw2]⟩
  · obtain ⟨t, hb, hwe⟩ := hrest e he
    exact ⟨t, (hb.write _).mono (Nat.le_succ _), hwe⟩

theorem weighsLeaves_mergeLoop {wt : Sym P → Nat} {keys : List (Sym P × Nat)}
    (hwt : ∀ x w, (x, w) ∈ keys → w = wt x) (h : Htb P) (k : Nat) :
    WeighsLeaves wt (mergeLoop k (phase1Start keys h)) :=
  mergeLoop_induction k (weighsLeaves_start hwt h) fun _ _ _ _ hq hw => hw.merge hq

/-- The leaves below a reference, with fuel for as many levels as there are nodes (R139). -/
theorem Built.leavesBelow_eq {tree : Cells (TreeElem P)} {n fuel : Nat} {ref : NodeRef P} {t : CodeTree P}
    (h : Built tree n ref t) (hf : n ≤ fuel) : leavesBelow fuel tree ref = t.symbols :=
  leavesBelow_of_built h fuel (h.depth_le.trans hf)

/-- The leaves below the entries of a queue are the symbols of their trees (R139). -/
theorem flatMap_leavesBelow {tree : Cells (TreeElem P)} {n fuel : Nat} {q : List (QEntry P)} {ts : List (CodeTree P)}
    (h : List.Forall₂ (fun e t => Built tree n e.ref t) q ts) (hf : n ≤ fuel) :
    (q.flatMap fun e => leavesBelow fuel tree e.ref) = ts.flatMap CodeTree.symbols := by
  induction h with
  | nil => rfl
  | cons hb _ ih => rw [List.flatMap_cons, List.flatMap_cons, hb.leavesBelow_eq hf, ih]

section
variable {keys : List (Sym P × Nat)} (h : Htb P) {fuel : Nat} (k : Nat) (hf : keys.length ≤ fuel)
include hf

/-- There are never more nodes than keys (R139). -/
theorem treeN_mergeLoop_le : (mergeLoop k (phase1Start keys h)).treeN ≤ fuel :=
  (Nat.le_of_add_right_le (treeN_add_length_mergeLoop keys h k).le).trans hf

/-- At every point of phase 1 the leaves below the entries are the keys, each once (R139). -/
theorem leaves_mergeLoop_perm :
    List.Perm
      ((mergeLoop k (phase1Start keys h)).queue.flatMap fun e =>
        leavesBelow fuel (mergeLoop k (phase1Start keys h)).tree e.ref)
      (keys.map Prod.fst) := by
  obtain ⟨ts, hbuilt, hperm⟩ := mergeInv_loop k (mergeInv_start keys h)
  rwa [flatMap_leavesBelow hbuilt (treeN_mergeLoop_le h k hf)]

/-- At every point of phase 1 an entry weighs the sum of the weights of the leaves below it (R135, R142). -/
theorem weight_mergeLoop {wt : Sym P → Nat} (hwt : ∀ x w, (x, w) ∈ keys → w = wt x) {e : QEntry P}
    (he : e ∈ (mergeLoop k (phase1Start keys h)).queue) :
    e.weight = ((leavesBelow fuel (mergeLoop k (phase1Start keys h)).tree e.ref).map wt).sum := by
  obtain ⟨t, hbuilt, hweight⟩ := weighsLeaves_mergeLoop hwt h k e he
  rwa [hbuilt.leavesBelow_eq (treeN_mergeLoop_le h k hf)]

end

/-- The keys of a table by symbol (R33, R134). -/
theorem mem_keysFrom_zero {es : List (FreqElem P)} (hlen : es.length ≤ P.N_SYM) {x : Sym P} {wt : Nat} :
    (x, wt) ∈ keysFrom 0 es ↔ ∃ e, es[x.toNat]? = some e ∧ e.present = true ∧ e.weight.toNat = wt := by
  rw [mem_keysFrom]
  constructor
  · rintro ⟨k, e, hk, hpresent, rfl, rfl⟩
    obtain ⟨hlt, -⟩ := List.getElem?_eq_some_iff.1 hk
    rw [Nat.zero_add, toNat_symOf (hlt.trans_le hlen)]
    exact ⟨e, hk, hpresent, rfl⟩
  · rintro ⟨e, hx, hpresent, rfl⟩
    exact ⟨x.toNat, e, hx, hpresent, by simp, rfl⟩

end Sys2Proof.Machine
end

section
/-! PROOFS. The statements of the family 42_huffman_tree_builder.md. -/

open Sys2Proof Sys2Proof.Machine

namespace Sys2Proof.Proofs

/-- Settles O28: the counting loop starts from the counts of no symbol and each turn counts one more. -/
theorem fcntCountsOccurrences : Obligations.FcntCountsOccurrences := by
  unfold Obligations.FcntCountsOccurrences
  refine ⟨decode_encode .fcnt, fun P s hs => ⟨fun syms hlen hcap hin => ?_, exec_fcnt_capacity hs⟩⟩
  obtain ⟨t, ht, hdone, hcounts⟩ := exec_fcnt_loaded hs hlen hcap hin
  exact ⟨t, ht, hdone, fun x => ⟨_, hcounts x, toNat_count hcap x⟩⟩

/-- Settles O29: the table that BUILD reads has a key exactly when FREQ has one. -/
theorem buildRaisesEmptyTableExactlyWithoutKeys : Obligations.BuildRaisesEmptyTableExactlyWithoutKeys := by
  unfold Obligations.BuildRaisesEmptyTableExactlyWithoutKeys
  intro P s hs hw
  obtain ⟨es, hlen, hin, hkey⟩ := exists_loaded_freq hs hw
  simp only [hkey]
  constructor
  · intro hnone
    exact exec_build_of_no_key hs hlen hin (List.map_eq_nil_iff.1 (List.eq_nil_iff_forall_not_mem.2 hnone))
  · rintro ⟨x, hx⟩
    have hk : keysFrom 0 es ≠ [] := fun hnil => by simp [hnil] at hx
    obtain ⟨t, ht, hdone, -⟩ := exec_build_of_keys hs hlen hin hk
    exact ⟨t, ht, hdone⟩

/-- Settles O34: equal contents of FREQ are one table, and the codebook of a table does not depend on the tree and queue that an
earlier BUILD left. -/
theorem buildIsAFunctionOfFreq : Obligations.BuildIsAFunctionOfFreq := by
  unfold Obligations.BuildIsAFunctionOfFreq
  intro P s s' t t' hs hs' hw hsame ht ht' herr
  obtain ⟨es, hlen, hin, -⟩ := exists_loaded_freq hs hw
  have hin' : Loaded s'.freq es := fun k hk => (hsame k).symm.trans (hin k hk)
  by_cases hk : keysFrom 0 es = []
  · obtain ⟨u, hu, hcode, -⟩ := exec_build_of_no_key hs hlen hin hk
    cases ht.symm.trans hu
    exact absurd (hcode.symm.trans herr) (code_ne_zero _)
  · obtain ⟨u, hu, -, hcb⟩ := exec_build_of_keys hs hlen hin hk
    obtain ⟨u', hu', hdone', hcb'⟩ := exec_build_of_keys hs' hlen hin' hk
    cases ht.symm.trans hu
    cases ht'.symm.trans hu'
    refine ⟨endedDone_err hdone', fun k => ?_⟩
    rw [hcb, hcb', phase2_phase1_congr _ hk]

/-- Settles O35: BUILD commits phase 2 of phase 1, and the merges of phase 1 leave one entry. -/
theorem buildRunsItsTwoPhases : Obligations.BuildRunsItsTwoPhases := by
  unfold Obligations.BuildRunsItsTwoPhases
  intro P s es hs hlen hin hk
  obtain ⟨t, ht, hdone, hcb⟩ := exec_build_of_keys hs hlen hin hk
  exact ⟨⟨t, ht, hdone, fun k => by rw [hcb]⟩, phase1_last_entry _ _ hk⟩

/-- Settles O36: the keys come in the order of the table, and the queue holds their leaf entries. -/
theorem phaseOneStartsWithTheKeysInOrder : Obligations.PhaseOneStartsWithTheKeysInOrder := by
  unfold Obligations.PhaseOneStartsWithTheKeysInOrder
  intro P es h hlen
  refine ⟨sorted_keysFrom (by rwa [Nat.zero_add]), fun x wt => mem_keysFrom_zero hlen, length_phase1Start _ h,
    fun j x wt hj => (phase1Start_queue_perm _ h).mem_iff.2 ?_, rfl, rfl⟩
  simpa using mem_leafEntries (j := 0) hj

/-- Settles O38: both halves are invariants of the merges; the fuel is enough since there are never more nodes than keys. -/
theorem entryWeightsAreTheSumsOfTheirLeaves : Obligations.EntryWeightsAreTheSumsOfTheirLeaves := by
  unfold Obligations.EntryWeightsAreTheSumsOfTheirLeaves
  intro P es h k hlen
  have hfuel : (keysFrom 0 es).length ≤ P.N_SYM := (length_keysFrom_le 0 es).trans hlen
  refine ⟨leaves_mergeLoop_perm h k hfuel, fun e he => weight_mergeLoop h k hfuel (fun x wt hx => ?_) he⟩
  obtain ⟨f, hf, -, rfl⟩ := (mem_keysFrom_zero hlen).1 hx
  rw [hf]

/-- Settles O39: the order of the queue is an invariant of the merges. -/
theorem queueIsStrictlyOrdered : Obligations.QueueIsStrictlyOrdered := by
  unfold Obligations.QueueIsStrictlyOrdered
  intro P keys h k
  obtain ⟨hordered, hdistinct, hnumbered⟩ := queueOrdered_mergeLoop keys h k
  exact ⟨hordered, hdistinct, hnumbered⟩

/-- Settles O40: each merge takes one entry off the queue and makes one node, the last of them the root. -/
theorem phaseOneEndsWithOneTree : Obligations.PhaseOneEndsWithOneTree := by
  unfold Obligations.PhaseOneEndsWithOneTree
  intro P keys h hk
  obtain ⟨e, he, hphase1⟩ := phase1_last_entry keys h hk
  obtain ⟨t, hbuilt, hperm, htreeN⟩ := phase1_built keys h hk
  refine ⟨by rw [hphase1, he]; rfl, htreeN, fun htwo => root_phase1 h (by omega), ?_, ?_⟩
  · rintro x wt rfl
    rfl
  · rwa [hbuilt.leavesBelow_eq (by omega)]

/-- Settles O41: the weights in the queue sum to those of the keys, of which there are at most N_SYM, each below 2^W_WT. -/
theorem queueWeightsFitTheirWidth : Obligations.QueueWeightsFitTheirWidth := by
  unfold Obligations.QueueWeightsFitTheirWidth
  intro P es h k hlen e he
  calc e.weight
      ≤ ((mergeLoop k (phase1Start (keysFrom 0 es) h)).queue.map QEntry.weight).sum :=
        List.le_sum_of_mem (List.mem_map_of_mem he)
    _ = ((keysFrom 0 es).map Prod.snd).sum := sum_weight_mergeLoop _ h k
    _ < 2 ^ P.W_ACC := sum_keys_lt hlen

/-- Settles O37, from the equation of a merge. -/
theorem aMergeJoinsTheFirstTwoEntries : Obligations.AMergeJoinsTheFirstTwoEntries := by
  unfold Obligations.AMergeJoinsTheFirstTwoEntries
  intro P h e1 e2 q hq
  rw [mergeStep_cons hq]
  exact ⟨fun k => (read_write _ _ _ _).trans (if_congr eq_comm rfl rfl), insertEntry_perm _ q, rfl, rfl, rfl, rfl,
    fun k => mergeLoop_succ k h⟩

end Sys2Proof.Proofs
end

section
/-! SUPPORT. The codebook of a tree (R150 to R154 of 43_huffman_codeword_mapper.md): when CB is the one that phase 2 makes of a
tree, what its codewords are, that it meets R157, and its Kraft sum. -/

namespace Sys2Proof.Machine

variable {P : Params}

/-! ## The book of a tree -/

/-- Every symbol of a tree has a codeword in its book (R154 (a)). -/
theorem CodeTree.exists_code {T : CodeTree P} {x : Sym P} (hx : x ∈ T.symbols) : ∃ c, (x, c) ∈ T.book := by
  rw [← T.map_fst_book] at hx
  obtain ⟨⟨_, c⟩, hc, rfl⟩ := List.mem_map.1 hx
  exact ⟨c, hc⟩

/-- With two or more symbols the book is the paths from the root (R152). -/
theorem CodeTree.book_eq_codes {T : CodeTree P} (h : 2 ≤ T.symbols.length) : T.book = T.codes [] := by
  cases T with
  | leaf x => exact absurd h (by simp [CodeTree.symbols])
  | node l r => rfl

/-- A tree with one symbol is its leaf (R153). -/
theorem CodeTree.eq_leaf {T : CodeTree P} {x : Sym P} (h : T.symbols = [x]) : T = .leaf x := by
  cases T with
  | leaf y => rw [List.singleton_inj.1 h]
  | node l r =>
    rcases List.append_eq_singleton_iff.1 h with ⟨hl, -⟩ | ⟨-, hr⟩
    · exact absurd hl l.symbols_ne_nil
    · exact absurd hr r.symbols_ne_nil

/-- Each node gives half of its share to either child, so the codes of a tree make up the share of its root (R154 (d)). -/
theorem CodeTree.sum_shares_codes (T : CodeTree P) {w : List Bool} {L : Nat} (h : w.length + T.depth ≤ L) :
    ((T.codes w).map fun p => 2 ^ (L - p.2.length)).sum = 2 ^ (L - w.length) := by
  induction T generalizing w with
  | leaf x => exact List.sum_singleton
  | node l r ihl ihr =>
    simp only [CodeTree.depth] at h
    have hchild (b : Bool) : (w ++ [b]).length = w.length + 1 := List.length_append
    rw [CodeTree.codes, List.map_append, List.sum_append, ihl (by rw [hchild]; omega), ihr (by rw [hchild]; omega), hchild,
      hchild, ← Nat.two_mul, ← Nat.pow_succ']
    congr 1
    omega

/-! ## A codebook that is the book of a tree -/

/-- `cb` is the codebook of the tree `T`: its symbols, each once, have the codewords of its book, and every other element is
(0, 0, 0) (R151). -/
structure HoldsTree (cb : Cells (CbElem P)) (T : CodeTree P) : Prop where
  nodup : T.symbols.Nodup
  depth_lt : T.depth < P.N_SYM
  valid : ∀ x c, (x, c) ∈ T.book → Cells.read cb x.toNat = some (codeEntry c)
  invalid : ∀ x : Sym P, x ∉ T.symbols → Cells.read cb x.toNat = some ⟨false, 0, 0⟩

namespace HoldsTree

section
variable {cb : Cells (CbElem P)} {T : CodeTree P} (h : HoldsTree cb T)
include h

theorem depth_le_L_MAX : T.depth ≤ P.L_MAX := Nat.le_sub_one_of_lt h.depth_lt

/-- Every codeword has 1 to L_MAX bits (R154 (c)). -/
theorem length_code {x : Sym P} {c : List Bool} (hc : (x, c) ∈ T.book) : 1 ≤ c.length ∧ c.length ≤ P.L_MAX := by
  obtain ⟨hpos, hle⟩ := T.length_book hc
  have hone : 1 ≤ P.L_MAX := Nat.le_sub_one_of_lt (lt_of_lt_of_le (by decide) P.four_le_N_SYM)
  exact ⟨hpos, hle.trans (max_le hone h.depth_le_L_MAX)⟩

/-- A code of the tree is the codeword of a valid element (R34, R151). -/
theorem exists_element {x : Sym P} {c : List Bool} (hc : (x, c) ∈ T.book) :
    ∃ e, Cells.read cb x.toNat = some e ∧ e.valid = true ∧ codeword e = c := by
  obtain ⟨-, hle⟩ := h.length_code hc
  exact ⟨codeEntry c, h.valid x c hc, rfl, codeword_codeEntry hle⟩

/-- Every element of CB is written (R151). -/
theorem written : Written cb P.N_SYM := by
  intro k hk
  rw [← toNat_symOf hk]
  by_cases hx : BitVec.ofNat P.W_SYM k ∈ T.symbols
  · obtain ⟨c, hc⟩ := CodeTree.exists_code hx
    rw [h.valid _ c hc, Option.isSome_some]
  · rw [h.invalid _ hx, Option.isSome_some]

end

section
variable {s : Block P} {T : CodeTree P} (h : HoldsTree s.cb T)
include h

/-- The codewords of CB are those of the book, and no others (R151, R154 (a)). -/
theorem code_eq_some_iff {x : Sym P} {w : List Bool} : s.code x = some w ↔ (x, w) ∈ T.book := by
  constructor
  · intro hw
    obtain ⟨e, he, hvalid, rfl⟩ := code_eq_some.1 hw
    have hx : x ∈ T.symbols := by
      by_contra hx
      cases he.symm.trans (h.invalid x hx)
      exact absurd hvalid Bool.false_ne_true
    obtain ⟨c, hc⟩ := CodeTree.exists_code hx
    obtain ⟨e', he', -, rfl⟩ := h.exists_element hc
    cases he.symm.trans he'
    exact hc
  · intro hw
    exact code_eq_some.2 (h.exists_element hw)

theorem code_eq_none {x : Sym P} (hx : x ∉ T.symbols) : s.code x = none := by
  rw [Option.eq_none_iff_forall_ne_some]
  intro w hw
  rw [← T.map_fst_book] at hx
  exact hx (List.mem_map_of_mem (h.code_eq_some_iff.1 hw))

/-- The codebook of a tree meets R157 (R154 (b), (c)). -/
theorem wellFormed : Codebook.WellFormed s := by
  simp only [Codebook.WellFormed, Codebook.Injective, Codebook.PrefixFree, Codebook.NoEmpty, ne_eq, h.code_eq_some_iff]
  have hprefixFree : ∀ x y v w, (x, v) ∈ T.book → (y, w) ∈ T.book → v <+: w → x = y := fun x y v w hx hy hvw =>
    (T.book_prefixFree hx hy hvw).1
  refine ⟨fun x y w hx hy => hprefixFree x y w w hx hy List.prefix_rfl, hprefixFree, fun x hx => ?_⟩
  exact absurd (T.length_book hx).1 (by decide)

end

end HoldsTree

/-! ## The Kraft sum -/

/-- The share of the bit sequences of `L_MAX` bits that begin with the codeword of `x`, 0 if it has none (R154 (d)). -/
def Block.share (s : Block P) (x : Sym P) : Nat :=
  match s.code x with
  | some w => 2 ^ (P.L_MAX - w.length)
  | none => 0

theorem share_of_code {s : Block P} {x : Sym P} {w : List Bool} (h : s.code x = some w) :
    s.share x = 2 ^ (P.L_MAX - w.length) := by simp only [Block.share, h]

theorem share_of_no_code {s : Block P} {x : Sym P} (h : s.code x = none) : s.share x = 0 := by simp only [Block.share, h]

/-- A sum over all symbols is the sum over those at which the summand is not 0. -/
theorem sum_range_eq_sum_symbols {f : Sym P → Nat} {xs : List (Sym P)} (hxs : xs.Nodup) (h : ∀ x, x ∉ xs → f x = 0) :
    ((List.range P.N_SYM).map fun k => f (BitVec.ofNat P.W_SYM k)).sum = (xs.map f).sum := by
  have hnodup : ((List.range P.N_SYM).map (BitVec.ofNat P.W_SYM)).Nodup := by
    refine List.Nodup.map_on (fun i hi j hj hij => ?_) List.nodup_range
    rw [← toNat_symOf (List.mem_range.1 hi), hij, toNat_symOf (List.mem_range.1 hj)]
  have hmem (x : Sym P) : x ∈ (List.range P.N_SYM).map (BitVec.ofNat P.W_SYM) :=
    List.mem_map.2 ⟨x.toNat, List.mem_range.2 x.isLt, by simp⟩
  calc ((List.range P.N_SYM).map fun k => f (BitVec.ofNat P.W_SYM k)).sum
      = (((List.range P.N_SYM).map (BitVec.ofNat P.W_SYM)).map f).sum := by rw [List.map_map]; rfl
    _ = ((List.range P.N_SYM).map (BitVec.ofNat P.W_SYM)).toFinset.sum f := (List.sum_toFinset f hnodup).symm
    _ = xs.toFinset.sum f := by
      refine (Finset.sum_subset (fun x _ => List.mem_toFinset.2 (hmem x)) fun x _ hx => h x ?_).symm
      rwa [List.mem_toFinset] at hx
    _ = (xs.map f).sum := List.sum_toFinset f hxs

/-- With two or more symbols the codebook of a tree is complete (R154 (d)). -/
theorem HoldsTree.sum_shares {s : Block P} {T : CodeTree P} (h : HoldsTree s.cb T) (htwo : 2 ≤ T.symbols.length) :
    ((List.range P.N_SYM).map fun k => s.share (BitVec.ofNat P.W_SYM k)).sum = 2 ^ P.L_MAX := by
  calc ((List.range P.N_SYM).map fun k => s.share (BitVec.ofNat P.W_SYM k)).sum
      = (T.symbols.map s.share).sum :=
        sum_range_eq_sum_symbols h.nodup fun x hx => share_of_no_code (h.code_eq_none hx)
    _ = (T.book.map fun p => 2 ^ (P.L_MAX - p.2.length)).sum := by
      rw [← T.map_fst_book, List.map_map]
      exact congrArg List.sum (List.map_congr_left fun p hp => share_of_code (h.code_eq_some_iff.2 hp))
    _ = 2 ^ P.L_MAX := by
      rw [CodeTree.book_eq_codes htwo]
      exact T.sum_shares_codes (by simpa using h.depth_le_L_MAX)

/-! ## The codebook of BUILD -/

/-- Phase 2 of phase 1 leaves the codebook of a tree whose symbols are the keys, which stands in TREE below ROOT (R139, R151). -/
theorem phase2_holdsTree {es : List (FreqElem P)} (hlen : es.length = P.N_SYM) (hk : keysFrom 0 es ≠ []) (h : Htb P) :
    ∃ T, HoldsTree (phase2 (phase1 (keysFrom 0 es) h)) T ∧
      Built (phase1 (keysFrom 0 es) h).tree (phase1 (keysFrom 0 es) h).treeN (phase1 (keysFrom 0 es) h).root T ∧
      List.Perm T.symbols ((keysFrom 0 es).map Prod.fst) := by
  obtain ⟨T, hbuilt, hperm, hnodup, hdepth⟩ := phase1_keys hlen hk h
  obtain ⟨hvalid, hinvalid⟩ := read_phase2 hbuilt hnodup hdepth
  exact ⟨T, ⟨hnodup, hdepth, hvalid, hinvalid⟩, hbuilt, hperm⟩

/-- BUILD of a FREQ with some key leaves the codebook of a tree whose symbols are the keys (R151, R154). -/
theorem exec_build_tree {s : Block P} (hs : Ready s) (hw : Written s.freq P.N_SYM) (hkey : ∃ x, s.isKey x) :
    ∃ t T, exec .build ⟨P, s⟩ = .next ⟨P, t⟩ ∧ EndedDone t ∧ HoldsTree t.cb T ∧ ∀ x, s.isKey x ↔ x ∈ T.symbols := by
  obtain ⟨es, hlen, hin, hkeys⟩ := exists_loaded_freq hs hw
  have hk : keysFrom 0 es ≠ [] := by
    intro hnil
    obtain ⟨x, hx⟩ := hkey
    rw [hkeys, hnil] at hx
    cases hx
  obtain ⟨t, ht, hdone, hcb⟩ := exec_build_of_keys hs hlen hin hk
  obtain ⟨T, hT, -, hperm⟩ := phase2_holdsTree hlen hk s.htb
  exact ⟨t, T, ht, hdone, hcb ▸ hT, fun x => (hkeys x).trans hperm.mem_iff.symm⟩

end Sys2Proof.Machine
end

section
/-! SUPPORT. `match` on a written CB (R156 of 43_huffman_codeword_mapper.md), and how UNPK ends on a loaded bitstring (R176 of
45_huffman_bit_unpacker.md), from its scan. -/

namespace Sys2Proof.Machine

variable {P : Params}

/-! ## match -/

/-- On a written CB, `match` picks among the symbols with the codeword (R156). -/
theorem matchCode_written (es : List (CbElem P)) (t j : Nat) (buf : List Bool) :
    matchCode (es.map some) t j buf = .ok (pickSym t j (candidates buf 0 es)) := by
  simp only [matchCode, readAll_map_some]

/-- The symbols that match are those whose valid element has the codeword (R156). -/
theorem mem_candidates_zero {es : List (CbElem P)} (hlen : es.length ≤ P.N_SYM) {buf : List Bool} {x : Sym P} :
    x ∈ candidates buf 0 es ↔ ∃ e, es[x.toNat]? = some e ∧ e.valid = true ∧ codeword e = buf := by
  rw [mem_candidates]
  constructor
  · rintro ⟨k, e, hk, hword, rfl⟩
    obtain ⟨hlt, -⟩ := List.getElem?_eq_some_iff.1 hk
    rw [Nat.zero_add, toNat_symOf (hlt.trans_le hlen)]
    exact ⟨e, hk, (hasWord_iff e buf).1 hword⟩
  · rintro ⟨e, hx, hword⟩
    exact ⟨x.toNat, e, hx, (hasWord_iff e buf).2 hword, by simp⟩

/-- No symbol matches exactly when no valid element has the codeword (R156). -/
theorem candidates_eq_nil_iff {es : List (CbElem P)} {buf : List Bool} :
    candidates buf 0 es = [] ↔ ∀ e ∈ es, ¬ (e.valid = true ∧ codeword e = buf) := by
  simp only [← hasWord_iff, List.eq_nil_iff_forall_not_mem, mem_candidates]
  constructor
  · intro hnone e he hword
    obtain ⟨k, hk⟩ := List.mem_iff_getElem?.1 he
    exact hnone _ ⟨k, e, hk, hword, rfl⟩
  · rintro hnone x ⟨k, e, hk, hword, -⟩
    exact hnone e (List.mem_of_getElem? hk) hword

/-! ## UNPK -/

/-- In a ready block CB is in canonical form (log 12). -/
theorem wf_cb_of_ready {s : Block P} (hs : Ready s) : Cells.wf P.N_SYM s.cb = true := by
  obtain ⟨⟨hwf, -⟩, -⟩ := hs
  obtain ⟨-, -, -, hcb, -⟩ := (memory_wf_iff s).1 hwf
  exact hcb

/-- Without empty codewords there are no more symbols than bits (R157 (c), R169). -/
theorem length_le_codeAll {s : Block P} (hne : Codebook.NoEmpty s) {syms : List (Sym P)} {bits : List Bool}
    (h : s.codeAll syms = some bits) : syms.length ≤ bits.length := by
  induction syms generalizing bits with
  | nil => exact Nat.zero_le _
  | cons x xs ih =>
    obtain ⟨w, ws, hw, hws, rfl⟩ := codeAll_cons.1 h
    have hpos : 0 < w.length := List.length_pos_iff.2 fun hnil => hne x (hnil ▸ hw)
    have htail := ih hws
    rw [List.length_cons, List.length_append]
    omega

section
variable {s : Block P} {bits : List Bool} (hs : Ready s) (hlen : bits.length = s.packLen.toNat)
  (hcap : s.packLen.toNat ≤ P.PACK_CAP) (hin : Loaded s.pack bits)
include hs hlen hcap hin

/-- A ready block scans the loaded bitstring, which is within the capacity (R176, R205). -/
theorem exec_unpk_loaded : exec .unpk ⟨P, s⟩ =
    liftBlock (endCommand .unpk s.accept (fun out t => t.setSym out (BitVec.ofNat _ out.length))
      (unpkScan s.opCodebook s.free s.packLen.toNat (s.work.start .unpk) (bits.map some))) := by
  obtain ⟨⟨hwf, hbusy, -⟩, herr⟩ := hs
  obtain ⟨-, -, -, -, hpack, -⟩ := (memory_wf_iff s).1 hwf
  have hbits : s.accept.opBitstring = bits.map some := window_loaded hpack hlen hin
  rw [exec_unpk, commandGate_ready hbusy herr, unpkBody, hbits, Block.accept_packLen, if_neg (not_lt.2 hcap)]
  rfl

/-- A scan that ends leaves its symbols in SYM (R176, R208). -/
theorem exec_unpk_done {w : Work} {syms : List (Sym P)} (hfit : syms.length ≤ P.SYM_CAP)
    (hscan : unpkScan s.opCodebook s.free s.packLen.toNat (s.work.start .unpk) (bits.map some) = .done w syms) :
    ∃ t, exec .unpk ⟨P, s⟩ = .next ⟨P, t⟩ ∧ EndedDone t ∧ t.symLen.toNat = syms.length ∧ Loaded t.sym syms := by
  rw [exec_unpk_loaded hs hlen hcap hin, hscan, endCommand_done, liftBlock_next]
  refine ⟨_, rfl, endedDone_of_ready hs ?_ rfl, ?_, loaded_ofSeq syms _ hfit⟩
  · simp
  · exact Nat.mod_eq_of_lt (hfit.trans_lt P.SYM_CAP_lt_W_IDX)

end

end Sys2Proof.Machine
end

section
/-! PROOFS. The statements of the family 43_huffman_codeword_mapper.md. -/

open Sys2Proof Sys2Proof.Machine

namespace Sys2Proof.Proofs

/-- Settles O32: the codebook is that of a tree, whose leaves lie on no path to another leaf. -/
theorem buildWritesAWellFormedCodebook : Obligations.BuildWritesAWellFormedCodebook := by
  unfold Obligations.BuildWritesAWellFormedCodebook
  intro P s t hs hw ht herr
  by_cases hkey : ∃ x, s.isKey x
  · obtain ⟨t', T, ht', -, hT, -⟩ := exec_build_tree hs hw hkey
    cases ht.symm.trans ht'
    exact hT.wellFormed
  · obtain ⟨hnoKey, -⟩ := buildRaisesEmptyTableExactlyWithoutKeys P s hs hw
    obtain ⟨t', ht', hcode, -⟩ := hnoKey (not_exists.1 hkey)
    cases ht.symm.trans ht'
    exact absurd (hcode.symm.trans herr) (code_ne_zero _)

/-- Settles O33: the codebook is that of a tree with two or more leaves, in which every node has two children. -/
theorem buildWritesACompleteCode : Obligations.BuildWritesACompleteCode := by
  unfold Obligations.BuildWritesACompleteCode
  intro P s t x y hs hw hx hy hxy ht
  obtain ⟨t', T, ht', -, hT, hkeys⟩ := exec_build_tree hs hw ⟨x, hx⟩
  cases ht.symm.trans ht'
  have htwo : 2 ≤ T.symbols.length := by
    have hsub : [x, y] ⊆ T.symbols := by simp [← hkeys, hx, hy]
    exact (List.subperm_of_subset (by simp [hxy]) hsub).length_le
  exact hT.sum_shares htwo

/-- Settles O30: the symbols of the tree are the keys. -/
theorem buildGivesACodewordToEveryKey : Obligations.BuildGivesACodewordToEveryKey := by
  unfold Obligations.BuildGivesACodewordToEveryKey
  intro P s hs hw hkey
  obtain ⟨t, T, ht, hdone, hT, hkeys⟩ := exec_build_tree hs hw hkey
  refine ⟨t, ht, hdone, hT.written, fun x => ⟨fun hx => ?_, fun hx => hT.invalid x (mt (hkeys x).2 hx)⟩⟩
  obtain ⟨w, hwx⟩ := CodeTree.exists_code ((hkeys x).1 hx)
  exact ⟨w, hT.code_eq_some_iff.2 hwx, hT.length_code hwx⟩

/-- Settles O31: the tree is the leaf of the one key. -/
theorem buildOfOneKeyGivesZero : Obligations.BuildOfOneKeyGivesZero := by
  unfold Obligations.BuildOfOneKeyGivesZero
  intro P s x hs hw honly
  obtain ⟨t, T, ht, hdone, hT, hkeys⟩ := exec_build_tree hs hw ⟨x, (honly x).2 rfl⟩
  have hperm : List.Perm T.symbols [x] := by
    refine (List.perm_ext_iff_of_nodup hT.nodup (List.nodup_singleton x)).2 fun y => ?_
    rw [← hkeys, honly, List.mem_singleton]
  obtain rfl := CodeTree.eq_leaf (List.perm_singleton.1 hperm)
  have hbook : (x, [false]) ∈ (CodeTree.leaf x).book := List.mem_singleton_self _
  exact ⟨t, ht, hdone, hT.valid x _ hbook, hT.code_eq_some_iff.2 hbook⟩

/-- Settles O42: phase 2 writes the paths of the tree, and each leads to its leaf. -/
theorem codewordIsThePathFromTheRoot : Obligations.CodewordIsThePathFromTheRoot := by
  unfold Obligations.CodewordIsThePathFromTheRoot
  intro P es h x wt hlen htwo hx
  obtain ⟨T, hT, hbuilt, hperm⟩ := phase2_holdsTree hlen (List.ne_nil_of_mem hx) h
  have hsymbols : 2 ≤ T.symbols.length := by rwa [hperm.length_eq, List.length_map]
  obtain ⟨w, hw⟩ := CodeTree.exists_code (hperm.mem_iff.2 (List.mem_map_of_mem hx))
  obtain ⟨e, he, hvalid, hcode⟩ := hT.exists_element hw
  rw [CodeTree.book_eq_codes hsymbols] at hw
  exact ⟨e, w, he, hvalid, hcode, by rw [← hcode, length_codeword], followPath_code hbuilt hw⟩

/-- Settles O47: with room for a symbol per bit, the scan emits the symbol of each codeword as soon as it matches. -/
theorem unpkEmitsTheShortestMatch : Obligations.UnpkEmitsTheShortestMatch := by
  unfold Obligations.UnpkEmitsTheShortestMatch
  intro P s syms bits hs hw hinj hne hcode hshort hlen hcap hin
  have hfit : syms.length ≤ P.SYM_CAP := ((length_le_codeAll hne hcode).trans hcap).trans P.PACK_CAP_le_SYM_CAP
  obtain ⟨es, hbook, heslen, hread⟩ := opCodebook_written (wf_cb_of_ready hs) hw
  have hscan := unpkScan_codes heslen hread hinj hne s.free s.packLen.toNat syms hshort hcode (s.work.start .unpk) rfl
    ((Nat.zero_add _).trans_le hfit) []
  rw [List.append_nil, unpkScan, if_pos rfl, emitAll_done, List.append_nil, ← hbook] at hscan
  exact exec_unpk_done hs hlen (hlen ▸ hcap) hin hfit hscan

/-- Settles O48: `match` picks one of the symbols that match, if there is any. -/
theorem matchAnswersAMatchingSymbol : Obligations.MatchAnswersAMatchingSymbol := by
  unfold Obligations.MatchAnswersAMatchingSymbol
  intro P es t j buf hlen
  refine ⟨_, matchCode_written es t j buf, ?_⟩
  rw [← candidates_eq_nil_iff]
  rcases pickSym_cases t j (candidates buf 0 es) with ⟨hnil, hpick⟩ | ⟨y, hy, hpick⟩
  · rw [hpick]
    exact ⟨iff_of_true rfl hnil, fun x hx => by cases hx⟩
  · rw [hpick]
    refine ⟨iff_of_false (Option.some_ne_none y) (List.ne_nil_of_mem hy), ?_⟩
    rintro x ⟨⟩
    exact (mem_candidates_zero hlen.le).1 hy

end Sys2Proof.Proofs
end

section
/-! SUPPORT. How PACK ends on the symbols in SYM (R166 to R169 of 44_huffman_bit_packer.md), from its scan, and what FCNT and
BUILD leave for it (R190 of 46_codec_sequences.md). -/

namespace Sys2Proof.Machine

variable {P : Params}

/-! ## Codewords -/

/-- A lookup that finds a codeword finds the codeword of the symbol (R155). -/
theorem code_of_lookupCode {s : Block P} {x : Sym P} {w : List Bool} (h : lookupCode s.cb x = .ok (some w)) :
    s.code x = some w := by
  unfold lookupCode at h
  cases he : Cells.read s.cb x.toNat with
  | none => simp [he] at h
  | some e => simpa [he, Block.code] using h

/-- The codewords of symbols that all have one can be laid end to end (R169). -/
theorem exists_codeAll {s : Block P} {xs : List (Sym P)} (h : ∀ x ∈ xs, ∃ w, s.code x = some w) :
    ∃ bits, s.codeAll xs = some bits := by
  induction xs with
  | nil => exact ⟨[], rfl⟩
  | cons x xs ih =>
    obtain ⟨⟨w, hw⟩, hxs⟩ := List.forall_mem_cons.1 h
    obtain ⟨ws, hws⟩ := ih hxs
    exact ⟨w ++ ws, codeAll_cons.2 ⟨w, ws, hw, hws, rfl⟩⟩

/-- One symbol's codeword, laid end to end with nothing (R169). -/
theorem codeAll_singleton {s : Block P} {x : Sym P} {w : List Bool} (h : s.code x = some w) : s.codeAll [x] = some w :=
  codeAll_cons.2 ⟨w, [], h, rfl, (List.append_nil w).symm⟩

/-! ## The scan -/

theorem emitAll_eq_done {α : Type} {xs out : List α} {r : Scan (List α)} {w : Work} :
    Scan.emitAll xs r = .done w out ↔ ∃ ys, r = .done w ys ∧ xs ++ ys = out := by
  cases r <;> simp [Scan.emitAll]

/-- A symbol without a codeword raises UnknownSymbol, whatever room is left and whatever follows (R167, R168). -/
theorem packScan_unknown {cb : Cells (CbElem P)} (w : Work) {x : Sym P} (rest : List (Option (Sym P)))
    (h : lookupCode cb x = .ok none) : packScan cb w (some x :: rest) = .raised .unknownSymbol w.rp := by
  simp only [packScan, h]

/-- Codewords that do not fit raise Capacity, whatever follows them (R166, R168). -/
theorem packScan_tooLong {s : Block P} (xs : List (Sym P)) {bits : List Bool} (hx : s.codeAll xs = some bits) {w : Work}
    (hw : w.wp ≤ P.PACK_CAP) (hlong : P.PACK_CAP < w.wp + bits.length) (rest : List (Option (Sym P))) :
    packScan s.cb w (xs.map some ++ rest) = .raised .capacity 0 := by
  induction xs generalizing w bits with
  | nil =>
    cases hx
    exact absurd hlong (not_lt.2 hw)
  | cons x xs ih =>
    obtain ⟨cw, ws, hcw, hws, rfl⟩ := codeAll_cons.1 hx
    rw [List.length_append] at hlong
    simp only [List.map_cons, List.cons_append, packScan, lookupCode_of_code hcw]
    by_cases hfull : P.PACK_CAP < w.wp + cw.length
    · rw [if_pos hfull]
    · rw [if_neg hfull, ih hws (not_lt.1 hfull) (by simp only; omega), emitAll_raised]

/-- A scan that ends has found the codeword of every symbol and gives them end to end (R169). -/
theorem codeAll_of_packScan_done {s : Block P} {xs : List (Sym P)} {w w' : Work} {out : List Bool}
    (h : packScan s.cb w (xs.map some) = .done w' out) : s.codeAll xs = some out := by
  induction xs generalizing w out with
  | nil =>
    cases h
    rfl
  | cons x xs ih =>
    simp only [List.map_cons, packScan] at h
    split at h
    · cases h
    · cases h
    · next cw hlookup =>
      split at h
      · cases h
      · obtain ⟨ws, hscan, hout⟩ := emitAll_eq_done.1 h
        exact codeAll_cons.2 ⟨cw, ws, code_of_lookupCode hlookup, ih hscan, hout.symm⟩

/-! ## The command -/

/-- A latched fault is not ERR = 0 (R215, R224). -/
theorem err_ne_zero_of_faulted {t : Block P} {f : FaultKind} {info : Nat} (h : Faulted t f info) : t.err ≠ 0 := by
  obtain ⟨hcode, -⟩ := h
  exact fun herr => code_ne_zero f (hcode.symm.trans herr)

/-- A ready block with SYM_LEN above the capacity raises Capacity in PACK (R166, R221). -/
theorem exec_pack_capacity {s : Block P} (hs : Ready s) (hcap : P.SYM_CAP < s.symLen.toNat) :
    ∃ t, exec .pack ⟨P, s⟩ = .next ⟨P, t⟩ ∧ Faulted t .capacity 0 := by
  obtain ⟨⟨-, hbusy, -⟩, herr⟩ := hs
  rw [exec_pack, commandGate_ready hbusy herr, packBody, Block.accept_symLen, if_pos hcap, endCommand_raised,
    liftBlock_next]
  exact ⟨_, rfl, faulted_raise ..⟩

section
variable {s : Block P} (hs : Ready s) (hcap : s.symLen.toNat ≤ P.SYM_CAP)
include hs hcap

/-- A ready block with SYM_LEN within the capacity scans SYM (R166, R205). -/
theorem exec_pack_ready : exec .pack ⟨P, s⟩ =
    liftBlock (endCommand .pack s.accept (fun out t => t.setPack out (BitVec.ofNat _ out.length))
      (packScan s.cb (s.work.start .pack) s.opRunLengths)) := by
  obtain ⟨⟨-, hbusy, -⟩, herr⟩ := hs
  rw [exec_pack, commandGate_ready hbusy herr, packBody, Block.accept_symLen, if_neg (not_lt.2 hcap)]
  rfl

/-- A fault of the scan is latched (R224). -/
theorem exec_pack_raised {f : FaultKind} {k : Nat}
    (hscan : packScan s.cb (s.work.start .pack) s.opRunLengths = .raised f k) :
    ∃ t, exec .pack ⟨P, s⟩ = .next ⟨P, t⟩ ∧ Faulted t f k := by
  rw [exec_pack_ready hs hcap, hscan, endCommand_raised, liftBlock_next]
  exact ⟨_, rfl, faulted_raise ..⟩

/-- Codewords that do not fit in PACK end the command in Capacity, whatever comes after their symbols (R166, R168). -/
theorem exec_pack_tooLong {xs : List (Sym P)} {bits : List Bool} (hle : xs.length ≤ s.symLen.toNat) (hin : Loaded s.sym xs)
    (hcode : s.codeAll xs = some bits) (hlong : P.PACK_CAP < bits.length) :
    ∃ t, exec .pack ⟨P, s⟩ = .next ⟨P, t⟩ ∧ Faulted t .capacity 0 := by
  obtain ⟨rest, hwindow⟩ := window_loaded_prefix (wf_sym_of_ready hs) hle hin
  have hstart : (s.work.start .pack).wp = 0 := rfl
  refine exec_pack_raised hs hcap ?_
  rw [Block.opRunLengths, hwindow, packScan_tooLong xs hcode (by omega) (by omega)]

/-- Symbols with codewords that fit leave these in PACK, end to end (R166, R169, R208). -/
theorem exec_pack_done {xs : List (Sym P)} {bits : List Bool} (hlen : xs.length = s.symLen.toNat) (hin : Loaded s.sym xs)
    (hcode : s.codeAll xs = some bits) (hfit : bits.length ≤ P.PACK_CAP) :
    ∃ t, exec .pack ⟨P, s⟩ = .next ⟨P, t⟩ ∧ EndedDone t ∧ t.packLen.toNat = bits.length ∧ Loaded t.pack bits := by
  have hscan := packScan_codes xs hcode (s.work.start .pack) ((Nat.zero_add _).trans_le hfit) []
  rw [List.append_nil, packScan, emitAll_done, List.append_nil] at hscan
  rw [exec_pack_ready hs hcap, Block.opRunLengths, window_loaded (wf_sym_of_ready hs) hlen hin, hscan, endCommand_done,
    liftBlock_next]
  refine ⟨_, rfl, endedDone_of_ready hs ?_ rfl, ?_, loaded_ofSeq bits _ hfit⟩
  · simp
  · exact Nat.mod_eq_of_lt (hfit.trans_lt P.PACK_CAP_lt_W_IDX)

/-- Symbols that all have codewords are packed, or do not fit (R166 to R168). -/
theorem exec_pack_known {xs : List (Sym P)} (hlen : xs.length = s.symLen.toNat) (hin : Loaded s.sym xs)
    (hknown : ∀ x ∈ xs, ∃ w, s.code x = some w) :
    ∃ t, exec .pack ⟨P, s⟩ = .next ⟨P, t⟩ ∧ (EndedDone t ∨ Faulted t .capacity 0) := by
  obtain ⟨bits, hcode⟩ := exists_codeAll hknown
  rcases le_or_gt bits.length P.PACK_CAP with hfit | hlong
  · obtain ⟨t, ht, hdone, -⟩ := exec_pack_done hs hcap hlen hin hcode hfit
    exact ⟨t, ht, .inl hdone⟩
  · obtain ⟨t, ht, hfault⟩ := exec_pack_tooLong hs hcap hlen.le hin hcode hlong
    exact ⟨t, ht, .inr hfault⟩

/-- When PACK ends without a fault, every symbol has a codeword and they fit (R166 to R168). -/
theorem codeAll_of_exec_pack {xs : List (Sym P)} {t : Block P} (hlen : xs.length = s.symLen.toNat) (hin : Loaded s.sym xs)
    (ht : exec .pack ⟨P, s⟩ = .next ⟨P, t⟩) (herr : t.err = 0) :
    ∃ bits, s.codeAll xs = some bits ∧ bits.length ≤ P.PACK_CAP := by
  have hend := ht
  rw [exec_pack_ready hs hcap, Block.opRunLengths, window_loaded (wf_sym_of_ready hs) hlen hin, liftBlock_eq_next_mk] at hend
  rcases endCommand_cases hend with ⟨w, bits, hscan, -⟩ | ⟨f, info, -, rfl⟩
  · have hcode := codeAll_of_packScan_done hscan
    refine ⟨bits, hcode, not_lt.1 fun hlong => ?_⟩
    obtain ⟨t', ht', hfault⟩ := exec_pack_tooLong hs hcap hlen.le hin hcode hlong
    cases ht.symm.trans ht'
    exact err_ne_zero_of_faulted hfault herr
  · exact absurd herr (err_ne_zero_of_faulted (faulted_raise ..))

end

/-! ## FCNT and BUILD before PACK -/

/-- A command that gives a next state hands it to the commands after it (R88). -/
theorem execAll_cons {i : Instr} {s t : State} (h : exec i s = .next t) (rest : List Instr) :
    execAll (i :: rest) s = execAll rest t := by
  simp only [execAll, h]

/-- A command that ends without a fault leaves a block that accepts the next one (R205, R208). -/
theorem ready_of_endedDone {i : Instr} {s t : Block P} (hs : Ready s) (ht : exec i ⟨P, s⟩ = .next ⟨P, t⟩)
    (hdone : EndedDone t) : Ready t := by
  obtain ⟨hinv, -⟩ := hs
  exact ⟨hinv.exec ht, endedDone_err hdone⟩

/-- RLE and UNPK alone write SYM, so any other command leaves the symbols loaded (R45). -/
theorem loaded_sym_exec {i : Instr} {s t : Block P} (ht : exec i ⟨P, s⟩ = .next ⟨P, t⟩) (hrle : i ≠ .rle) (hunpk : i ≠ .unpk)
    {syms : List (Sym P)} (hin : Loaded s.sym syms) : t.symLen = s.symLen ∧ Loaded t.sym syms := by
  obtain ⟨-, -, -, -, hsym, -⟩ := (exec_end ht).onlyOutputsChange
  obtain ⟨hlen, hreads⟩ := hsym hrle hunpk
  exact ⟨hlen, fun k hk => (hreads k).trans (hin k hk)⟩

/-- Counting writes every element of FREQ (R131). -/
theorem Counts.written {f : Cells (FreqElem P)} {syms : List (Sym P)} (h : Counts f syms) : Written f P.N_SYM := by
  intro k hk
  rw [← toNat_symOf hk, h, Option.isSome_some]

/-- The keys of a counted FREQ are the symbols that occur (R131). -/
theorem Counts.isKey_iff {s : Block P} {syms : List (Sym P)} (h : Counts s.freq syms) {x : Sym P} :
    s.isKey x ↔ x ∈ syms := by
  simp [Block.isKey, h x]

/-- FCNT and BUILD on non-empty symbols leave these in SYM, each with a codeword (R190). -/
theorem exec_fcnt_build {s : Block P} (hs : Ready s) {syms : List (Sym P)} (hlen : syms.length = s.symLen.toNat)
    (hcap : syms.length ≤ P.SYM_CAP) (hne : syms ≠ []) (hin : Loaded s.sym syms) :
    ∃ t u, exec .fcnt ⟨P, s⟩ = .next ⟨P, t⟩ ∧ exec .build ⟨P, t⟩ = .next ⟨P, u⟩ ∧ Ready u ∧ u.symLen = s.symLen ∧
      Loaded u.sym syms ∧ ∀ x ∈ syms, ∃ w, u.code x = some w := by
  obtain ⟨t, ht, hdone, hcounts⟩ := exec_fcnt_loaded hs hlen hcap hin
  have hready := ready_of_endedDone hs ht hdone
  obtain ⟨htlen, htin⟩ := loaded_sym_exec ht (by decide) (by decide) hin
  obtain ⟨x, hx⟩ := List.exists_mem_of_ne_nil syms hne
  obtain ⟨u, T, hu, hudone, hT, hkeys⟩ := exec_build_tree hready hcounts.written ⟨x, hcounts.isKey_iff.2 hx⟩
  obtain ⟨hulen, huin⟩ := loaded_sym_exec hu (by decide) (by decide) htin
  refine ⟨t, u, ht, hu, ready_of_endedDone hready hu hudone, hulen.trans htlen, huin, fun y hy => ?_⟩
  obtain ⟨w, hw⟩ := CodeTree.exists_code ((hkeys y).1 (hcounts.isKey_iff.2 hy))
  exact ⟨w, hT.code_eq_some_iff.2 hw⟩

end Sys2Proof.Machine
end

section
/-! PROOFS. The statements of the family 44_huffman_bit_packer.md. -/

open Sys2Proof Sys2Proof.Machine

namespace Sys2Proof.Proofs

/-- Settles O43: PACK ends without a fault only if every symbol has a codeword and they fit, and then it lays them end to end. -/
theorem packConcatenatesTheCodewords : Obligations.PackConcatenatesTheCodewords := by
  unfold Obligations.PackConcatenatesTheCodewords
  intro P s syms hs hlen hin
  constructor
  · intro bits hcap hcode hfit
    obtain ⟨t, ht, hdone, -⟩ := exec_pack_done hs (hlen ▸ hcap) hlen hin hcode hfit
    exact ⟨t, ht, hdone⟩
  · intro t ht herr
    rcases le_or_gt s.symLen.toNat P.SYM_CAP with hcap | habove
    · obtain ⟨bits, hcode, hfit⟩ := codeAll_of_exec_pack hs hcap hlen hin ht herr
      obtain ⟨t', ht', -, hpackLen, hpack⟩ := exec_pack_done hs hcap hlen hin hcode hfit
      cases ht.symm.trans ht'
      exact ⟨bits, hcode, hpack, hpackLen, hpackLen.trans (sum_code_lengths hcode).symm⟩
    · obtain ⟨t', ht', hfault⟩ := exec_pack_capacity hs habove
      cases ht.symm.trans ht'
      exact absurd herr (err_ne_zero_of_faulted hfault)

/-- Settles O44: the symbol is reached, and the scan looks its codeword up before it tests the space. -/
theorem packUnknownSymbolAtTheFirstIndex : Obligations.PackUnknownSymbolAtTheFirstIndex := by
  unfold Obligations.PackUnknownSymbolAtTheFirstIndex
  rintro P s before x bits hs hlt hcap hin hcode hfit ⟨e, he, hinvalid⟩
  obtain ⟨rest, hwindow⟩ := window_loaded_prefix (n := s.symLen.toNat) (wf_sym_of_ready hs) (by simpa using hlt) hin
  have hstart : (s.work.start .pack).rp = 0 ∧ (s.work.start .pack).wp = 0 := ⟨rfl, rfl⟩
  refine exec_pack_raised hs hcap ?_
  rw [Block.opRunLengths, hwindow, List.map_append, List.append_assoc, List.map_singleton, List.singleton_append,
    packScan_codes before hcode _ (by omega), packScan_unknown _ rest (lookupCode_of_invalid he hinvalid), emitAll_raised]
  simp [hstart.1]

/-- Settles O45: the codewords up to this symbol do not fit, so the scan ends by Capacity among them. -/
theorem packOutputAboveCapacity : Obligations.PackOutputAboveCapacity := by
  unfold Obligations.PackOutputAboveCapacity
  intro P s before x bits w hs hlt hcap hin hcode _ hx hlong
  exact exec_pack_tooLong hs hcap (by simpa using hlt) hin (codeAll_append hcode (codeAll_singleton hx))
    (by rwa [List.length_append])

/-- Settles O55: the keys that FCNT counts are the symbols, and BUILD gives each key a codeword. -/
theorem countedCodebookKnowsEverySymbol : Obligations.CountedCodebookKnowsEverySymbol := by
  unfold Obligations.CountedCodebookKnowsEverySymbol
  intro P s syms hs hlen hcap hne hin
  obtain ⟨t, u, ht, hu, hready, hulen, huin, hknown⟩ := exec_fcnt_build hs hlen hcap hne hin
  rw [← hulen] at hlen
  obtain ⟨v, hv, hend⟩ := exec_pack_known hready (hlen ▸ hcap) hlen huin hknown
  exact ⟨v, by rw [execAll_cons ht, execAll_cons hu, execAll_cons hv, execAll], hend⟩

end Sys2Proof.Proofs
end

section
/-! SUPPORT. What a well-formed codebook means for UNPK's scan (R177, R178 of 45_huffman_bit_unpacker.md), and the bitstring
that PACK leaves for it (R169, R180). -/

namespace Sys2Proof.Machine

variable {P : Params}

/-! ## Codebooks -/

/-- Two blocks whose CB reads the same have the same codewords. -/
theorem code_eq_of_sameReads {s v : Block P} (h : SameReads v.cb s.cb) : v.code = s.code := by
  funext x
  simp only [Block.code, h x.toNat]

/-- The codewords alone say what a sequence of symbols is packed to (R169). -/
theorem codeAll_eq_of_code_eq {s v : Block P} (h : v.code = s.code) (xs : List (Sym P)) : v.codeAll xs = s.codeAll xs := by
  induction xs with
  | nil => rfl
  | cons x xs ih => simp only [Block.codeAll, ih, h]

/-- The codewords alone say whether a codebook is well formed (R157). -/
theorem wellFormed_iff_of_code_eq {s v : Block P} (h : v.code = s.code) : Codebook.WellFormed v ↔ Codebook.WellFormed s := by
  simp only [Codebook.WellFormed, Codebook.Injective, Codebook.PrefixFree, Codebook.NoEmpty, h]

/-- No codeword starts another one (R157 (b), R177). -/
theorem code_ne_of_prefix {s : Block P} (hfree : Codebook.PrefixFree s) {x : Sym P} {w v : List Bool} (hx : s.code x = some w)
    (hpre : v <+: w) (hne : v ≠ w) (y : Sym P) : s.code y ≠ some v := by
  intro hy
  obtain rfl := hfree y x v w hy hx hpre
  exact hne (Option.some.inj (hy.symm.trans hx))

/-! ## UNPK on a well-formed codebook -/

section
variable {s : Block P} {syms : List (Sym P)} {bits : List Bool} (hs : Ready s) (hw : Written s.cb P.N_SYM)
  (hwf : Codebook.WellFormed s) (hcode : s.codeAll syms = some bits) (hcap : s.packLen.toNat ≤ P.PACK_CAP)
include hs hw hwf hcode hcap

/-- Codewords end to end give their symbols (R176, R177). -/
theorem exec_unpk_codes (hlen : bits.length = s.packLen.toNat) (hin : Loaded s.pack bits) :
    ∃ t, exec .unpk ⟨P, s⟩ = .next ⟨P, t⟩ ∧ EndedDone t ∧ t.symLen.toNat = syms.length ∧ Loaded t.sym syms := by
  obtain ⟨hinj, hfree, hne⟩ := hwf
  exact Proofs.unpkEmitsTheShortestMatch P s syms bits hs hw hinj hne hcode
    (fun x _ w v hx hpre _ hvw => code_ne_of_prefix hfree hx hpre hvw) hlen (hlen ▸ hcap) hin

/-- Bits left over that start with no codeword raise IncompleteCodeword at the first of them (R178). -/
theorem exec_unpk_tail {tail : List Bool} (hno : NoCodewordStarts s tail) (htail : tail ≠ [])
    (hlen : (bits ++ tail).length = s.packLen.toNat) (hin : Loaded s.pack (bits ++ tail)) :
    ∃ t, exec .unpk ⟨P, s⟩ = .next ⟨P, t⟩ ∧ Faulted t .incompleteCodeword bits.length := by
  obtain ⟨hinj, hfree, hne⟩ := hwf
  have hsum : bits.length + tail.length = s.packLen.toNat := by rwa [List.length_append] at hlen
  have hfit : syms.length ≤ P.SYM_CAP := by
    have hle := length_le_codeAll hne hcode
    have hcaps := P.PACK_CAP_le_SYM_CAP
    omega
  obtain ⟨es, hbook, heslen, hread⟩ := opCodebook_written (wf_cb_of_ready hs) hw
  have hscan : unpkScan s.opCodebook s.free s.packLen.toNat (s.work.start .unpk) ((bits ++ tail).map some) =
      .raised .incompleteCodeword bits.length := by
    rw [hbook, List.map_append, unpkScan_codes heslen hread hinj hne s.free s.packLen.toNat syms
        (fun x _ w v hx hpre _ hvw => code_ne_of_prefix hfree hx hpre hvw) hcode _ rfl ((Nat.zero_add _).trans_le hfit),
      emitAll_eq_raised, unpkScan_tail heslen hread, List.length_nil, Nat.zero_add, ← hsum, Nat.add_sub_cancel]
    · exact hno
    · exact htail
  rw [exec_unpk_loaded hs hlen hcap hin, hscan, endCommand_raised, liftBlock_next]
  exact ⟨_, rfl, faulted_raise ..⟩

end

/-! ## The bitstring of PACK -/

/-- When PACK ends without a fault, PACK_LEN and PACK hold the codewords of the symbols, which fit (R166, R169). -/
theorem loaded_pack_of_exec_pack {s t : Block P} (hs : Ready s) {syms : List (Sym P)} (hlen : syms.length = s.symLen.toNat)
    (hin : Loaded s.sym syms) (ht : exec .pack ⟨P, s⟩ = .next ⟨P, t⟩) (herr : t.err = 0) :
    ∃ bits, s.codeAll syms = some bits ∧ bits.length ≤ P.PACK_CAP ∧ t.packLen.toNat = bits.length ∧ Loaded t.pack bits := by
  have hcap : s.symLen.toNat ≤ P.SYM_CAP := by
    by_contra habove
    obtain ⟨t', ht', hfault⟩ := exec_pack_capacity hs (not_le.1 habove)
    cases ht.symm.trans ht'
    exact err_ne_zero_of_faulted hfault herr
  obtain ⟨bits, hcode, hfit⟩ := codeAll_of_exec_pack hs hcap hlen hin ht herr
  obtain ⟨t', ht', -, hpackLen, hpack⟩ := exec_pack_done hs hcap hlen hin hcode hfit
  cases ht.symm.trans ht'
  exact ⟨bits, hcode, hfit, hpackLen, hpack⟩

end Sys2Proof.Machine
end

section
/-! PROOFS. The statements of the family 45_huffman_bit_unpacker.md. -/

open Sys2Proof Sys2Proof.Machine

namespace Sys2Proof.Proofs

/-- Settles O49: PACK leaves the codewords of the symbols end to end, and the decoder, which has the same codewords, cuts them
apart again. -/
theorem unpkInvertsPack : Obligations.UnpkInvertsPack := by
  unfold Obligations.UnpkInvertsPack
  intro P s t syms hs hw hwf hlen hin ht herr v hv hvLen hvPack hvCb
  obtain ⟨bits, hcode, hfit, hpackLen, hpack⟩ := loaded_pack_of_exec_pack hs hlen hin ht herr
  have hsame := code_eq_of_sameReads hvCb
  have hvWritten : Written v.cb P.N_SYM := fun k hk => (hvCb k).symm ▸ hw k hk
  have hvCode : v.codeAll syms = some bits := (codeAll_eq_of_code_eq hsame syms).trans hcode
  have hvBits : bits.length = v.packLen.toNat := by rw [hvLen, hpackLen]
  have hvIn : Loaded v.pack bits := fun k hk => (hvPack k (hpackLen ▸ hk)).trans (hpack k hk)
  obtain ⟨u, hu, hdone, huLen, huSyms⟩ := exec_unpk_codes hv hvWritten ((wellFormed_iff_of_code_eq hsame).2 hwf) hvCode
    (hvBits ▸ hfit) hvBits hvIn
  exact ⟨u, hu, hdone, BitVec.eq_of_toNat_eq (huLen.trans hlen), huSyms⟩

/-- Settles O46: the scan cuts off the codewords, and what is left over stays in the candidate buffer to the end. -/
theorem unpkCutsTheBitstring : Obligations.UnpkCutsTheBitstring := by
  unfold Obligations.UnpkCutsTheBitstring
  intro P s syms bits tail hs hw hwf hcode hno hlen hcap hin
  constructor
  · rintro rfl
    rw [List.append_nil] at hlen hin
    exact exec_unpk_codes hs hw hwf hcode hcap hlen hin
  · intro htail
    exact exec_unpk_tail hs hw hwf hcode hcap hno htail hlen hin

end Sys2Proof.Proofs
end

section
/-! SUPPORT. The codec sequences (R190 to R192 of 46_codec_sequences.md): how a command hands its outputs to the commands after
it, the block in which PACK finds its symbols and codebook, and the sequences on no symbol at all (R195). -/

namespace Sys2Proof.Machine

variable {P : Params}

/-! ## Commands in a row -/

/-- Commands that give a next state give one each (R88). -/
theorem execAll_cons_eq_next {i : Instr} {rest : List Instr} {s : Block P} {t : State} :
    execAll (i :: rest) ⟨P, s⟩ = .next t ↔
      ∃ u : Block P, exec i ⟨P, s⟩ = .next ⟨P, u⟩ ∧ execAll rest ⟨P, u⟩ = .next t := by
  constructor
  · intro h
    cases he : exec i ⟨P, s⟩ with
    | next u =>
      obtain ⟨b, rfl⟩ := exec_params he
      exact ⟨b, rfl, (execAll_cons he rest).symm.trans h⟩
    | fault r => simp [execAll, he] at h
    | refused r => simp [execAll, he] at h
  · rintro ⟨u, hu, hrest⟩
    rw [execAll_cons hu, hrest]

/-- A latched fault makes every command but CLR do nothing (R206). -/
theorem exec_of_latched {i : Instr} {s : Block P} (hi : i ≠ .clr) (h : s.err ≠ 0) : exec i ⟨P, s⟩ = .next ⟨P, s⟩ := by
  rw [exec_block]
  cases i with
  | clr => exact absurd rfl hi
  | _ => exact congrArg liftBlock (commandGate_ignored (.inr h))

/-- Without CLR no fault latched at the end means none before (R206). -/
theorem err_eq_zero_of_exec {i : Instr} {s t : Block P} (hi : i ≠ .clr) (h : exec i ⟨P, s⟩ = .next ⟨P, t⟩)
    (ht : t.err = 0) : s.err = 0 := by
  by_contra hs
  cases (exec_of_latched hi hs).symm.trans h
  exact hs ht

/-- No command writes MAXLEN or FILESIZE (R45). -/
theorem maxlen_filesize_exec {i : Instr} {s t : Block P} (h : exec i ⟨P, s⟩ = .next ⟨P, t⟩) :
    t.maxlen = s.maxlen ∧ t.filesize = s.filesize := by
  obtain ⟨hmax, hfile, -⟩ := (exec_end h).onlyOutputsChange
  exact ⟨hmax, hfile⟩

/-- FCNT alone writes FREQ (R45). -/
theorem sameReads_freq_exec {i : Instr} {s t : Block P} (h : exec i ⟨P, s⟩ = .next ⟨P, t⟩) (hi : i ≠ .fcnt) :
    SameReads t.freq s.freq := by
  obtain ⟨-, -, -, -, -, -, hfreq, -⟩ := (exec_end h).onlyOutputsChange
  exact hfreq hi

/-- BUILD alone writes CB (R45). -/
theorem sameReads_cb_exec {i : Instr} {s t : Block P} (h : exec i ⟨P, s⟩ = .next ⟨P, t⟩) (hi : i ≠ .build) :
    SameReads t.cb s.cb := by
  obtain ⟨-, -, -, -, -, -, -, hcb, -⟩ := (exec_end h).onlyOutputsChange
  exact (hcb hi).1

/-! ## Before PACK -/

/-- A block in which PACK can begin on `syms` so that UNPK can undo it: it is ready, SYM holds `syms`, and CB is written and
meets R157. -/
structure ReadyToPack (s : Block P) (syms : List (Sym P)) : Prop where
  ready : Ready s
  length : syms.length = s.symLen.toNat
  loaded : Loaded s.sym syms
  written : Written s.cb P.N_SYM
  wellFormed : Codebook.WellFormed s

/-- RLE leaves the codebook of ENCODE_CB alone (R191). -/
theorem readyToPack_of_rle {s a : Block P} (hw : Written s.cb P.N_SYM) (hwf : Codebook.WellFormed s)
    (h : exec .rle ⟨P, s⟩ = .next ⟨P, a⟩) (ha : Ready a) {syms : List (Sym P)} (hlen : syms.length = a.symLen.toNat)
    (hin : Loaded a.sym syms) : ReadyToPack a syms := by
  have hcb := sameReads_cb_exec h (by decide)
  exact ⟨ha, hlen, hin, fun k hk => (hcb k).symm ▸ hw k hk, (wellFormed_iff_of_code_eq (code_eq_of_sameReads hcb)).2 hwf⟩

/-- FCNT and BUILD, if no fault is latched, leave the symbols in SYM and make a codebook for them (R190). -/
theorem readyToPack_of_fcnt_build {a b c : Block P} (ha : Ready a) {syms : List (Sym P)}
    (hlen : syms.length = a.symLen.toNat) (hcap : syms.length ≤ P.SYM_CAP) (hin : Loaded a.sym syms)
    (hb : exec .fcnt ⟨P, a⟩ = .next ⟨P, b⟩) (hc : exec .build ⟨P, b⟩ = .next ⟨P, c⟩) (herr : c.err = 0) :
    ReadyToPack c syms := by
  obtain ⟨b', hb', hdone, hcounts⟩ := exec_fcnt_loaded ha hlen hcap hin
  cases hb.symm.trans hb'
  have hready := ready_of_endedDone ha hb hdone
  obtain ⟨hblen, hbin⟩ := loaded_sym_exec hb (by decide) (by decide) hin
  obtain ⟨hclen, hcin⟩ := loaded_sym_exec hc (by decide) (by decide) hbin
  have hkey : ∃ x, b.isKey x := by
    by_contra hnone
    obtain ⟨hempty, -⟩ := Proofs.buildRaisesEmptyTableExactlyWithoutKeys P b hready hcounts.written
    obtain ⟨c', hc', hfault⟩ := hempty (not_exists.1 hnone)
    cases hc.symm.trans hc'
    exact err_ne_zero_of_faulted hfault herr
  obtain ⟨c', T, hc', hcdone, hT, -⟩ := exec_build_tree hready hcounts.written hkey
  cases hc.symm.trans hc'
  exact ⟨ready_of_endedDone hready hc hcdone, by rw [hclen, hblen, hlen], hcin, hT.written, hT.wellFormed⟩

/-- After RLE both encodings, if they end without a fault, come to PACK with RLE's symbols and a codebook for UNPK (R190,
R191). -/
theorem exists_readyToPack {s a t : Block P} {encoding : List Instr}
    (henc : encoding = encodeCommands ∨ encoding = encodeCbCommands ∧ Written s.cb P.N_SYM ∧ Codebook.WellFormed s)
    (ht : execAll encoding ⟨P, s⟩ = .next ⟨P, t⟩) (herr : t.err = 0) (hrle : exec .rle ⟨P, s⟩ = .next ⟨P, a⟩)
    (ha : Ready a) {syms : List (Sym P)} (hlen : syms.length = a.symLen.toNat) (hcap : syms.length ≤ P.SYM_CAP)
    (hin : Loaded a.sym syms) : ∃ c, ReadyToPack c syms ∧ exec .pack ⟨P, c⟩ = .next ⟨P, t⟩ := by
  rcases henc with rfl | ⟨rfl, hw, hwf⟩
  · rw [encodeCommands, execAll_cons hrle] at ht
    obtain ⟨b, hb, ht⟩ := execAll_cons_eq_next.1 ht
    obtain ⟨c, hc, ht⟩ := execAll_cons_eq_next.1 ht
    obtain ⟨d, hpack, ht⟩ := execAll_cons_eq_next.1 ht
    cases ht
    exact ⟨c, readyToPack_of_fcnt_build ha hlen hcap hin hb hc (err_eq_zero_of_exec (by decide) hpack herr), hpack⟩
  · rw [encodeCbCommands, execAll_cons hrle] at ht
    obtain ⟨d, hpack, ht⟩ := execAll_cons_eq_next.1 ht
    cases ht
    exact ⟨a, readyToPack_of_rle hw hwf hrle ha hlen hin, hpack⟩

/-! ## No symbol -/

/-- A sequence in a space in canonical form is within its capacity (log 12). -/
theorem length_le_of_loaded {α : Type} {cap : Nat} {c : Cells α} (h : Cells.wf cap c = true) {xs : List α}
    (hin : Loaded c xs) : xs.length ≤ cap := by
  refine le_of_forall_lt fun k hk => ?_
  exact lt_cap_of_read h ((hin k hk).trans (List.getElem?_eq_getElem hk))

theorem loaded_nil {α : Type} (c : Cells α) : Loaded c [] := fun _ hk => absurd hk (Nat.not_lt_zero _)

/-- No bit, or fewer than MAXLEN zeros with MAXLEN at least 3, gives no symbol (R104, R106, R107, R195). -/
theorem exec_rle_no_symbol {s : Block P} {n : Nat} (hs : Ready s)
    (hn : n = 0 ∨ 3 ≤ s.maxlen.toNat ∧ n < s.maxlen.toNat) (hlen : n = s.bitInLen.toNat)
    (hin : Loaded s.bitIn (List.replicate n false)) :
    ∃ t, exec .rle ⟨P, s⟩ = .next ⟨P, t⟩ ∧ EndedDone t ∧ t.symLen.toNat = 0 := by
  rcases hn with rfl | ⟨hM, hn⟩
  · obtain ⟨t, ht, hdone, hsymLen, -⟩ := exec_rle_done (bits := []) (syms := []) hs hlen (hlen ▸ Nat.zero_le _) hin
      (Nat.zero_le _) rfl
    exact ⟨t, ht, hdone, hsymLen⟩
  · have ⟨⟨hwf, _⟩, _⟩ := hs
    obtain ⟨hbitIn, -⟩ := (memory_wf_iff s).1 hwf
    have hcap : n ≤ P.BIT_CAP := by simpa using length_le_of_loaded hbitIn hin
    obtain ⟨t, ht, hdone, hsymLen, -⟩ := Proofs.rleRecoversTheRuns P s [] n hs hM (by simp) hn (by simpa using hlen)
      (hlen ▸ hcap) hin
    exact ⟨t, ht, hdone, hsymLen⟩

section
variable {s : Block P} (hs : Ready s) (hlen : s.symLen.toNat = 0)
include hs hlen

/-- FCNT of no symbol makes no key, so BUILD raises EmptyTable, which PACK then leaves latched (R131, R140, R206, R195). -/
theorem fcnt_build_pack_no_symbol : ∃ t, execAll [.fcnt, .build, .pack] ⟨P, s⟩ = .next ⟨P, t⟩ ∧
    Faulted t .emptyTable 0 ∧ ∀ x, ¬ t.isKey x := by
  obtain ⟨b, hb, hdone, hcounts⟩ := exec_fcnt_loaded (syms := []) hs hlen.symm (Nat.zero_le _) (loaded_nil _)
  have hnone : ∀ x, ¬ b.isKey x := fun x hx => List.not_mem_nil (hcounts.isKey_iff.1 hx)
  obtain ⟨hempty, -⟩ :=
    Proofs.buildRaisesEmptyTableExactlyWithoutKeys P b (ready_of_endedDone hs hb hdone) hcounts.written
  obtain ⟨t, ht, hfault⟩ := hempty hnone
  have hpack := exec_of_latched (i := .pack) (by decide) (err_ne_zero_of_faulted hfault)
  refine ⟨t, by rw [execAll_cons hb, execAll_cons ht, execAll_cons hpack, execAll], hfault, fun x hx => hnone x ?_⟩
  rwa [Block.isKey, sameReads_freq_exec ht (by decide)] at hx

/-- PACK of no symbol gives no bit, whatever the codebook (R166, R195). -/
theorem exec_pack_no_symbol : ∃ t, exec .pack ⟨P, s⟩ = .next ⟨P, t⟩ ∧ EndedDone t ∧ t.packLen = 0 := by
  obtain ⟨t, ht, hdone, hpackLen, -⟩ := exec_pack_done (xs := []) (bits := []) hs (hlen ▸ Nat.zero_le _) hlen.symm
    (loaded_nil _) rfl (Nat.zero_le _)
  exact ⟨t, ht, hdone, BitVec.eq_of_toNat_eq hpackLen⟩

end

/-- DECODE of no bit gives no symbol, whatever the codebook, and RLD pads that to FILESIZE zeros (R125, R176, R195). -/
theorem decode_no_bit {v : Block P} (hv : Ready v) (hlen : v.packLen = 0) (hfile : v.filesize.toNat ≤ P.BIT_CAP) :
    ∃ u, execAll decodeCommands ⟨P, v⟩ = .next ⟨P, u⟩ ∧ EndedDone u ∧ u.bitOutLen = v.filesize ∧
      Loaded u.bitOut (List.replicate v.filesize.toNat false) := by
  have hpackLen : 0 = v.packLen.toNat := by rw [hlen]; rfl
  obtain ⟨a, ha, hdone, hsymLen, hin⟩ := exec_unpk_done (bits := []) (syms := []) hv hpackLen (hpackLen ▸ Nat.zero_le _)
    (loaded_nil _) (Nat.zero_le _) rfl
  obtain ⟨-, hfilesize⟩ := maxlen_filesize_exec ha
  obtain ⟨u, hu, hend⟩ := Proofs.rldExpandsAndPads P a [] (ready_of_endedDone hv ha hdone) hsymLen.symm (Nat.zero_le _)
    hin (hfilesize ▸ hfile) (by simp) (Nat.zero_le _)
  rw [hfilesize] at hend
  exact ⟨u, by rw [decodeCommands, execAll_cons ha, execAll_cons hu, execAll], hend⟩

end Sys2Proof.Machine
end

section
/-! PROOFS. The statements of the family 46_codec_sequences.md. -/

open Sys2Proof Sys2Proof.Machine

namespace Sys2Proof.Proofs

/-- Settles O57: both encodings end in a PACK of RLE's symbols, which UNPK gives back (O49) and RLD expands (O27). -/
theorem codecRoundTrip : Obligations.CodecRoundTrip := by
  unfold Obligations.CodecRoundTrip
  intro P s t v bits encoding hs hlen hcap hin hM henc ht herr hv hvLen hvPack hvCb hvMax hvFile
  obtain ⟨a, syms, z, ha, hdone, hsymLen, hsym, -, -, -, hle⟩ := rleSymbolsAccountForTheInput P s bits hs hlen hcap hin hM
  obtain ⟨c, hc, hpack⟩ := exists_readyToPack henc ht herr ha (ready_of_endedDone hs ha hdone) hsymLen.symm
    (le_SYM_CAP_of_le_BIT_CAP hle hcap) hsym
  have hcb : SameReads v.cb c.cb := fun k => (hvCb k).trans (sameReads_cb_exec hpack (by decide) k)
  obtain ⟨b, hb, hbdone, hbLen, hbSym⟩ := unpkInvertsPack P c t syms hc.ready hc.written hc.wellFormed hc.length hc.loaded
    hpack herr v hv hvLen hvPack hcb
  have hbaLen : b.symLen = a.symLen := BitVec.eq_of_toNat_eq (by rw [hbLen, ← hc.length, hsymLen])
  have hbaSym : SameBelow a.symLen.toNat b.sym a.sym := fun k hk => by
    rw [hbSym k (hsymLen ▸ hk), hsym k (hsymLen ▸ hk)]
  obtain ⟨hbMax, hbFile⟩ := maxlen_filesize_exec hb
  obtain ⟨-, hrld⟩ := rldInvertsRle P s a bits hs hlen hcap hin (by omega) ha
  obtain ⟨u, hu, hend⟩ := hrld (by rw [endedDone_err hdone]; decide) b (ready_of_endedDone hv hb hbdone) hbaLen hbaSym
    (hbMax.trans hvMax) (by rw [hbFile, hvFile])
  exact ⟨u, by rw [decodeCommands, execAll_cons hb, execAll_cons hu, execAll], hend⟩

/-- Settles O56: RLE gives no symbol, and each command after it is given nothing. -/
theorem encodeOfNoSymbol : Obligations.EncodeOfNoSymbol := by
  unfold Obligations.EncodeOfNoSymbol
  intro P s n hs hn hlen hin
  obtain ⟨a, ha, hdone, hsymLen⟩ := exec_rle_no_symbol hs hn hlen hin
  have hready := ready_of_endedDone hs ha hdone
  constructor
  · obtain ⟨t, ht, hend⟩ := fcnt_build_pack_no_symbol hready hsymLen
    exact ⟨t, by rw [encodeCommands, execAll_cons ha, ht], hend⟩
  · obtain ⟨t, ht, htdone, hpackLen⟩ := exec_pack_no_symbol hready hsymLen
    refine ⟨t, by rw [encodeCbCommands, execAll_cons ha, execAll_cons ht, execAll], htdone, hpackLen, ?_⟩
    exact fun v hv hvLen hfile => decode_no_bit hv (hvLen.trans hpackLen) hfile

end Sys2Proof.Proofs
end

section
/-! SUPPORT. What the block ignores at CMD, and how an accepted command ends: with DONE, or with a fault of its own row of R215
(R205, R206, R208, R211 of 47_system_commands.md, R224 of 60_exceptions.md). -/

namespace Sys2Proof.Machine

variable {P : Params}

/-! ## Words that are ignored -/

/-- While BUSY every command does nothing, CLR included (R211). -/
theorem exec_of_busy {s : Block P} (hb : s.busy = true) (i : Instr) : exec i ⟨P, s⟩ = .next ⟨P, s⟩ := by
  rw [exec_block]
  cases i with
  | clr => exact congrArg liftBlock (if_pos hb)
  | _ => exact congrArg liftBlock (commandGate_ignored (.inl hb))

/-- A block that is not ready ignores an illegal word (R206, R211). -/
theorem illegalCommand_ignored {s : Block P} (h : s.busy = true ∨ s.err ≠ 0) (w : CmdWord) : s.illegalCommand w = s := by
  unfold Block.illegalCommand
  split
  · rfl
  · next hb => exact if_pos (h.resolve_left hb)

/-- A block that is not ready ignores a word if it ignores the command that the word decodes to, if any (R205). -/
theorem writeCmd_ignored {s : Block P} {w : CmdWord} (h : s.busy = true ∨ s.err ≠ 0)
    (hexec : ∀ i, decode w = .ok i → exec i ⟨P, s⟩ = .next ⟨P, s⟩) : writeCmd w ⟨P, s⟩ = .next ⟨P, s⟩ := by
  cases hd : decode w with
  | ok i => rw [writeCmd_of_ok hd, hexec i hd]
  | error e => rw [writeCmd_of_error hd, State.onBlock_mk, illegalCommand_ignored h]

/-! ## The faults of a command -/

/-- A scan of command `i` that ends by a fault raises one of the row of `i` in R215. -/
def Scan.RaisesOwn {β : Type} (i : Instr) (r : Scan β) : Prop := ∀ f info, r = .raised f info → mayRaise i f = true

/-- A capacity test before the scan adds Capacity (R221). -/
theorem Scan.RaisesOwn.capacityTest {β : Type} {i : Instr} {r : Scan β} {c : Prop} [Decidable c] (h : r.RaisesOwn i)
    (hcap : mayRaise i .capacity = true) : (if c then .raised .capacity 0 else r).RaisesOwn i := by
  split
  · intro f info hraised
    cases hraised
    exact hcap
  · exact h

theorem raisesOwn_rleScan {M n : Nat} {w : Work} {l : List (Option Bool)} : (rleScan (P := P) M n w l).RaisesOwn .rle := by
  intro f info h
  rcases rleScan_raised h with rfl | rfl <;> rfl

theorem raisesOwn_rldScan {M F : Nat} {w : Work} {l : List (Option (Sym P))} : (rldScan M F w l).RaisesOwn .rld := by
  intro f info h
  rcases rldScan_raised h with rfl | rfl <;> rfl

theorem raisesOwn_fcntScan {w : Work} {c : Cells (FreqElem P)} {l : List (Option (Sym P))} :
    (fcntScan w c l).RaisesOwn .fcnt := fun _ _ h => absurd h fcntScan_raised

theorem raisesOwn_buildScan {w : Work} {h : Htb P} {table : Except Nat (List (FreqElem P))} :
    (buildScan w h table).RaisesOwn .build := by
  intro f info hraised
  obtain ⟨rfl, -⟩ := buildScan_raised hraised
  rfl

theorem raisesOwn_packScan {cb : Cells (CbElem P)} {w : Work} {l : List (Option (Sym P))} :
    (packScan cb w l).RaisesOwn .pack := by
  intro f info h
  rcases packScan_raised h with rfl | rfl <;> rfl

theorem raisesOwn_unpkScan {cb : List (Option (CbElem P))} {t p : Nat} {w : Work} {l : List (Option Bool)} :
    (unpkScan cb t p w l).RaisesOwn .unpk := by
  intro f info h
  rcases unpkScan_raised h with rfl | rfl <;> rfl

/-- The ends of a command that a ready block accepts (R208, R224). -/
def EndsOwn (i : Instr) (t : Block P) : Prop := EndedDone t ∨ ∃ f info, mayRaise i f = true ∧ Faulted t f info

/-- A command that commits its own outputs and raises its own faults ends in one of the ways of `EndsOwn`. -/
theorem endsOwn_of_gate {β : Type} {i : Instr} {s t : Block P} {body : Block P → BlockResult P}
    {commit : Block P → β → Block P → Block P} {scan : Block P → Scan β} (hs : Ready s)
    (h : commandGate s body = .next t) (hbody : ∀ a, body a = endCommand i a (commit a) (scan a))
    (hc : ∀ a out, WritesOutputs i a (commit a out a)) (hr : ∀ a, (scan a).RaisesOwn i) : EndsOwn i t := by
  have ⟨⟨_, hb, _⟩, he⟩ := hs
  rw [commandGate_ready hb he, hbody] at h
  rcases endCommand_cases h with ⟨w, out, -, rfl⟩ | ⟨f, info, hscan, rfl⟩
  · obtain ⟨hstatus, herrinfo⟩ := (hc s.accept out).status_errinfo
    exact .inl (endedDone_of_ready hs (by simp [hstatus]) (by simp [herrinfo]))
  · exact .inr ⟨f, info, hr _ f info hscan, faulted_raise ..⟩

/-- In a ready block every command but CLR ends in one of the ways of `EndsOwn`. -/
theorem endsOwn_exec {i : Instr} {s t : Block P} (hs : Ready s) (hi : i ≠ .clr) (h : exec i ⟨P, s⟩ = .next ⟨P, t⟩) :
    EndsOwn i t := by
  rw [exec_block, liftBlock_eq_next_mk] at h
  cases i with
  | rle =>
    exact endsOwn_of_gate hs h (fun _ => rfl) (fun _ _ => ⟨_, _, rfl⟩) (fun _ => raisesOwn_rleScan.capacityTest rfl)
  | rld =>
    exact endsOwn_of_gate hs h (fun _ => rfl) (fun _ _ => ⟨_, _, rfl⟩) (fun _ => raisesOwn_rldScan.capacityTest rfl)
  | fcnt =>
    exact endsOwn_of_gate hs h (fun _ => rfl) (fun _ _ => ⟨_, rfl⟩) (fun _ => raisesOwn_fcntScan.capacityTest rfl)
  | build => exact endsOwn_of_gate hs h (fun _ => rfl) (fun _ _ => ⟨_, rfl⟩) (fun _ => raisesOwn_buildScan)
  | pack =>
    exact endsOwn_of_gate hs h (fun _ => rfl) (fun _ _ => ⟨_, _, rfl⟩) (fun _ => raisesOwn_packScan.capacityTest rfl)
  | unpk =>
    exact endsOwn_of_gate hs h (fun _ => rfl) (fun _ _ => ⟨_, _, rfl⟩) (fun _ => raisesOwn_unpkScan.capacityTest rfl)
  | clr => exact absurd rfl hi

end Sys2Proof.Machine
end

section
/-! PROOFS. The statements of the family 47_system_commands.md. -/

open Sys2Proof Sys2Proof.Machine

namespace Sys2Proof.Proofs

/-- Settles O18: the scan of each command raises only faults of the command's own row of R215. -/
theorem aCommandEndsDoneOrWithItsFault : Obligations.ACommandEndsDoneOrWithItsFault := by
  unfold Obligations.ACommandEndsDoneOrWithItsFault
  exact fun P i s t hs hi h => endsOwn_exec hs hi h

/-- Settles O4: the move that writes CMD is the reaction to its word, which is the command that the word decodes to. -/
theorem stepRunsTheDecodedCommand : Obligations.StepRunsTheDecodedCommand := by
  unfold Obligations.StepRunsTheDecodedCommand
  exact fun P s v rest h => ⟨step_writeCmd h, fun i hd _ => (step_writeCmd h).trans (writeCmd_of_ok hd _)⟩

/-- Settles O5: a word other than 0x07 does not decode to CLR, and a latched fault blocks everything else. -/
theorem latchedFaultBlocksAllButClr : Obligations.LatchedFaultBlocksAllButClr := by
  unfold Obligations.LatchedFaultBlocksAllButClr
  intro P s w he hw
  refine writeCmd_ignored (.inr he) fun i hd => exec_of_latched ?_ he
  rintro rfl
  exact hw (decode_eq_ok_iff.1 hd)

/-- Settles O6: BUSY blocks every command and every illegal word. -/
theorem busyIgnoresEveryCommandWord : Obligations.BusyIgnoresEveryCommandWord := by
  unfold Obligations.BusyIgnoresEveryCommandWord
  exact fun P s w hb => writeCmd_ignored (.inl hb) fun i _ => exec_of_busy hb i

/-- Settles O7: with BUSY = 0 the STATUS word that CLR writes is 0x00. -/
theorem clrClearsTheFaultLatch : Obligations.ClrClearsTheFaultLatch := by
  unfold Obligations.ClrClearsTheFaultLatch
  refine ⟨decode_encode .clr, fun P s hb => ?_⟩
  have hstatus : statusWord false false 0 = 0x00 := by decide
  rw [exec_clr, hb, if_neg Bool.false_ne_true, Block.clearFault, hb, hstatus]

end Sys2Proof.Proofs
end

section
/-! SUPPORT. The capacity test before a command's scan (R221 of 60_exceptions.md), the idle step (R236) and reset (R240 of
70_reset_and_hazards.md), and the one stop of the model, at an unwritten element of a command's input (R242, log 3). -/

namespace Sys2Proof.Machine

variable {P : Params}

/-! ## Lengths above a capacity -/

/-- In a ready block a capacity test that fires ends the command in Capacity, before its scan (R221). -/
theorem exec_capacity_of_gate {β : Type} {i : Instr} {s : Block P} {body : Block P → BlockResult P}
    {commit : β → Block P → Block P} {scan : Scan β} {c : Prop} [Decidable c] (hs : Ready s) (hc : c)
    (hexec : exec i ⟨P, s⟩ = liftBlock (commandGate s body))
    (hbody : body s.accept = endCommand i s.accept commit (if c then .raised .capacity 0 else scan)) :
    ∃ t, exec i ⟨P, s⟩ = .next ⟨P, t⟩ ∧ Faulted t .capacity 0 := by
  obtain ⟨⟨-, hbusy, -⟩, herr⟩ := hs
  rw [hexec, commandGate_ready hbusy herr, hbody, if_pos hc, endCommand_raised, liftBlock_next]
  exact ⟨_, rfl, faulted_raise ..⟩

/-- BIT_IN_LEN above the capacity in RLE (R111). -/
theorem exec_rle_capacity {s : Block P} (hs : Ready s) (hcap : P.BIT_CAP < s.bitInLen.toNat) :
    ∃ t, exec .rle ⟨P, s⟩ = .next ⟨P, t⟩ ∧ Faulted t .capacity 0 := exec_capacity_of_gate hs hcap rfl rfl

/-- SYM_LEN or FILESIZE above the capacity in RLD (R126). -/
theorem exec_rld_capacity {s : Block P} (hs : Ready s)
    (hcap : P.SYM_CAP < s.symLen.toNat ∨ P.BIT_CAP < s.filesize.toNat) :
    ∃ t, exec .rld ⟨P, s⟩ = .next ⟨P, t⟩ ∧ Faulted t .capacity 0 := exec_capacity_of_gate hs hcap rfl rfl

/-- PACK_LEN above the capacity in UNPK (R176). -/
theorem exec_unpk_capacity {s : Block P} (hs : Ready s) (hcap : P.PACK_CAP < s.packLen.toNat) :
    ∃ t, exec .unpk ⟨P, s⟩ = .next ⟨P, t⟩ ∧ Faulted t .capacity 0 := exec_capacity_of_gate hs hcap rfl rfl

/-! ## Idling and reset -/

/-- A step with no move of the host is idle (R236). -/
theorem step_idle {s : Block P} (h : s.moves = []) : step ⟨P, s⟩ = .next ⟨P, s⟩ := by simp only [step, h]

theorem hardReset_busy (s : Block P) : s.hardReset.busy = false := show statusBusy 0 = false by decide

theorem hardReset_err (s : Block P) : s.hardReset.err = 0 := show statusErr 0 = 0 by decide

/-- After a reset every register reads 0, whatever the block held (R48, R240). -/
theorem readReg_hardReset (s : Block P) (n : RegNum) : s.hardReset.readReg n = 0 := by
  rw [readReg_eq (hardReset_busy s)]
  simp [Block.hardReset, Block.reset]

/-! ## Unwritten elements -/

/-- Element `k` of space `sp` is one that command `i` can read in state `s`, and nothing has written it since reset (R242). -/
def UnwrittenInput (i : Instr) (s : Block P) (sp : SpaceName) (k : Nat) : Prop :=
  (i = .rle ∧ sp = .bitIn ∧ k < s.bitInLen.toNat ∧ Cells.read s.bitIn k = none) ∨
    ((i = .rld ∨ i = .fcnt ∨ i = .pack) ∧ sp = .sym ∧ k < s.symLen.toNat ∧ Cells.read s.sym k = none) ∨
    (i = .build ∧ sp = .freq ∧ k < P.N_SYM ∧ Cells.read s.freq k = none) ∨
    ((i = .pack ∨ i = .unpk) ∧ sp = .cb ∧ k < P.N_SYM ∧ Cells.read s.cb k = none) ∨
    (i = .unpk ∧ sp = .pack ∧ k < s.packLen.toNat ∧ Cells.read s.pack k = none)

/-- A scan of command `i` stops the model only at an unwritten element of its input. -/
def Scan.StopsInInput {β : Type} (i : Instr) (s : Block P) (r : Scan β) : Prop :=
  ∀ sp k, r = .unwritten sp k → UnwrittenInput i s sp k

/-- A capacity test before the scan adds no stop (R221). -/
theorem Scan.StopsInInput.capacityTest {β : Type} {i : Instr} {s : Block P} {r : Scan β} {c : Prop} [Decidable c]
    (h : r.StopsInInput i s) : (if c then .raised .capacity 0 else r).StopsInInput i s := by
  split
  · intro sp k hstop
    cases hstop
  · exact h

section
variable {s : Block P} (hwf : Memory.wf s = true)
include hwf

theorem stopsInInput_rleScan {M n : Nat} {w : Work} (hw : w.rp = 0) :
    (rleScan (P := P) M n w s.opBits).StopsInInput .rle s := by
  intro sp k h
  obtain ⟨hbitIn, -⟩ := (memory_wf_iff s).1 hwf
  obtain ⟨rfl, hstop⟩ := rleScan_unwritten h
  rw [hw] at hstop
  exact .inl ⟨rfl, rfl, hstop.window hbitIn⟩

/-- The unwritten element at which a command stops in SYM. -/
theorem unwrittenInput_sym {i : Instr} (hi : i = .rld ∨ i = .fcnt ∨ i = .pack) {rp k : Nat} (hrp : rp = 0)
    (hstop : StopsAt s.opRunLengths rp k) : UnwrittenInput i s .sym k := by
  obtain ⟨-, hsym, -⟩ := (memory_wf_iff s).1 hwf
  rw [hrp] at hstop
  exact .inr (.inl ⟨hi, rfl, hstop.window hsym⟩)

theorem stopsInInput_rldScan {M F : Nat} {w : Work} (hw : w.rp = 0) :
    (rldScan M F w s.opRunLengths).StopsInInput .rld s := by
  intro sp k h
  obtain ⟨rfl, hstop⟩ := rldScan_unwritten h
  exact unwrittenInput_sym hwf (.inl rfl) hw hstop

theorem stopsInInput_fcntScan {w : Work} {f : Cells (FreqElem P)} (hw : w.rp = 0) :
    (fcntScan w f s.opRunLengths).StopsInInput .fcnt s := by
  intro sp k h
  obtain ⟨rfl, hstop⟩ := fcntScan_unwritten h
  exact unwrittenInput_sym hwf (.inr (.inl rfl)) hw hstop

theorem stopsInInput_buildScan {w : Work} {b : Htb P} :
    (buildScan w b (readAll 0 s.opFrequencies)).StopsInInput .build s := by
  intro sp k h
  obtain ⟨-, -, hfreq, -⟩ := (memory_wf_iff s).1 hwf
  obtain ⟨rfl, htable⟩ := buildScan_unwritten h
  exact .inr (.inr (.inl ⟨rfl, rfl, (readAll_stopsAt htable).window hfreq⟩))

theorem stopsInInput_packScan {w : Work} (hw : w.rp = 0) : (packScan s.cb w s.opRunLengths).StopsInInput .pack s := by
  intro sp k h
  rcases packScan_unwritten h with ⟨rfl, hstop⟩ | ⟨rfl, hcb⟩
  · exact unwrittenInput_sym hwf (.inr (.inr rfl)) hw hstop
  · exact .inr (.inr (.inr (.inl ⟨.inl rfl, rfl, hcb⟩)))

theorem stopsInInput_unpkScan {t p : Nat} {w : Work} (hw : w.rp = 0) :
    (unpkScan s.opCodebook t p w s.opBitstring).StopsInInput .unpk s := by
  intro sp k h
  obtain ⟨-, -, -, hcb, hpack, -⟩ := (memory_wf_iff s).1 hwf
  rcases unpkScan_unwritten h with ⟨rfl, hstop⟩ | ⟨rfl, hstop⟩
  · rw [hw] at hstop
    exact .inr (.inr (.inr (.inr ⟨rfl, rfl, hstop.window hpack⟩)))
  · exact .inr (.inr (.inr (.inl ⟨.inr rfl, rfl, hstop.window hcb⟩)))

end

/-- Command `i` goes on, or stops at an unwritten element of its input with no fault latched. -/
def NextOrStopsInInput (i : Instr) (s : Block P) (r : BlockResult P) : Prop :=
  (∃ t, r = .next t) ∨ ∃ sp k, r = .fault (.unwrittenElement sp k) ∧ s.err = 0 ∧ UnwrittenInput i s sp k

/-- Dispatch and the end of a command add no stop to those of its scan (R205, R208). -/
theorem nextOrStopsInInput_commandGate {β : Type} {i : Instr} {s : Block P} {body : Block P → BlockResult P}
    {commit : β → Block P → Block P} {scan : Scan β} (hbody : body s.accept = endCommand i s.accept commit scan)
    (hscan : scan.StopsInInput i s) : NextOrStopsInInput i s (commandGate s body) := by
  rcases commandGate_cases s body with ⟨hg, -⟩ | ⟨hg, -, herr⟩
  · exact .inl ⟨s, hg⟩
  · rw [hg, hbody]
    cases hr : scan with
    | done w out => exact .inl ⟨_, endCommand_done ..⟩
    | raised f info => exact .inl ⟨_, endCommand_raised ..⟩
    | unwritten sp k => exact .inr ⟨sp, k, endCommand_unwritten .., herr, hscan sp k hr⟩

/-- With the spaces in canonical form a command goes on or stops in its input. -/
theorem nextOrStopsInInput_blockExec (i : Instr) {s : Block P} (hwf : Memory.wf s = true) :
    NextOrStopsInInput i s (blockExec i s) := by
  cases i with
  | rle => exact nextOrStopsInInput_commandGate rfl (stopsInInput_rleScan hwf rfl).capacityTest
  | rld => exact nextOrStopsInInput_commandGate rfl (stopsInInput_rldScan hwf rfl).capacityTest
  | fcnt => exact nextOrStopsInInput_commandGate rfl (stopsInInput_fcntScan hwf rfl).capacityTest
  | build => exact nextOrStopsInInput_commandGate rfl (stopsInInput_buildScan hwf)
  | pack => exact nextOrStopsInInput_commandGate rfl (stopsInInput_packScan hwf rfl).capacityTest
  | unpk => exact nextOrStopsInInput_commandGate rfl (stopsInInput_unpkScan hwf rfl).capacityTest
  | clr =>
    rw [blockExec]
    split <;> exact .inl ⟨_, rfl⟩

end Sys2Proof.Machine
end

section
/-! PROOFS. The statements of the families 60_exceptions.md and 70_reset_and_hazards.md. -/

open Sys2Proof Sys2Proof.Machine

namespace Sys2Proof.Proofs

/-- Settles O17: each of the commands tests its lengths before its scan reads any element. -/
theorem lengthAboveCapacityRaisesCapacity : Obligations.LengthAboveCapacityRaisesCapacity := by
  unfold Obligations.LengthAboveCapacityRaisesCapacity
  exact fun P s hs => ⟨exec_rle_capacity hs,
    fun hcap => ⟨exec_rld_capacity hs (.inl hcap), exec_fcnt_capacity hs hcap, exec_pack_capacity hs hcap⟩,
    fun hcap => exec_rld_capacity hs (.inr hcap), exec_unpk_capacity hs⟩

/-- Settles O20: only a scan can stop the model, and the scan of each command reads its own input alone. -/
theorem onlyAnUnwrittenInputStopsACommand : Obligations.OnlyAnUnwrittenInputStopsACommand := by
  unfold Obligations.OnlyAnUnwrittenInputStopsACommand
  rintro P i s ⟨hwf, -⟩
  rw [exec_block]
  rcases nextOrStopsInInput_blockExec i hwf with ⟨t, ht⟩ | ⟨sp, k, hfault, herr, hinput⟩
  · exact .inl ⟨t, by rw [ht, liftBlock_next]⟩
  · exact .inr ⟨sp, k, by rw [hfault, liftBlock_fault], herr, hinput⟩

/-- Settles O8: an empty queue leaves the step nothing to do. -/
theorem idleKeepsAllState : Obligations.IdleKeepsAllState := by
  unfold Obligations.IdleKeepsAllState
  exact fun P s h => step_idle h

/-- Settles O11: the move is `hardReset`, which looks at nothing of the block but the host's queue and data. -/
theorem hostResetFromAnyState : Obligations.HostResetFromAnyState := by
  unfold Obligations.HostResetFromAnyState
  exact fun P s rest h => ⟨Block.hardReset { s with moves := rest }, step_move h, readReg_hardReset _, hardReset_busy _,
    hardReset_err _, rfl, fun k => ⟨rfl, rfl, rfl, rfl, rfl, rfl⟩⟩

end Sys2Proof.Proofs
end
